-- ==== Sys2Proof/Word.lean ====
section
/-! DEFINITION. The machine's word types (spec 00_scope.md R7, R10; 10_state.md). -/

namespace Sys2Proof

/-- One byte: a command word, a symbol, a unit of either stream (R61, R100). Bit 7 is the most significant (R10). -/
abbrev Byte := BitVec 8

/-- A frequency count, a node weight, `TOTAL`, `OUTCNT`: `u32` (R7 `CNT_W`). -/
abbrev Count := BitVec 32

/-- A node reference, 9 bits: an index 0..510 of `NODE`, or `NIL` (R23, R24). -/
abbrev NodeRef := BitVec 9

/-- `NIL`, the absent child (R9, R24): not the index of any node. -/
def nil : NodeRef := 511

end Sys2Proof
end

