-- ==== Sys2Proof/Syntax.lean ====
section
/-! DEFINITION. The 13 commands of spec/opcode_table.json (30_encoding.md R102). No command has an operand (R100). -/

namespace Sys2Proof

/-- One constructor per row of the opcode table. -/
inductive Instr where
  /-- `NOP`: do nothing (R210). -/
  | nop
  /-- `FCLR`: clear the Frequency Table (R120). -/
  | fclr
  /-- `FCNT`: count the source into the Frequency Table (R121). -/
  | fcnt
  /-- `BUILD`: build the tree of the present Frequency Table (R130). -/
  | build
  /-- `GENC`: generate the code table of the present tree (R150). -/
  | genc
  /-- `HSER`: serialize the Frequency Table to the sink (R160). -/
  | hser
  /-- `HDES`: deserialize a header from the source (R163). -/
  | hdes
  /-- `PACK`: encode the source with the present code table (R175). -/
  | pack
  /-- `UNPACK`: decode the payload with the present tree (R190). -/
  | unpack
  /-- `REWIND`: move the source cursor to the start (R211). -/
  | rewind
  /-- `ENCODE`: compress the whole source to the sink (R213). -/
  | encode
  /-- `DECODE`: decompress the source to the sink (R215). -/
  | decode
  /-- `RESET`: return the engine to its reset state (R217). -/
  | reset
  deriving DecidableEq, Repr

end Sys2Proof
end

