-- ==== Sys2Proof/WellFormed.lean ====
section
/-! DEFINITION. What is well formed: a command word (30_encoding.md R100 to R104), and an instruction. -/

namespace Sys2Proof

/-- The words R103 leaves defined: all but `0x0C`, `0x0D`, `0x0E` and `0x10` to `0xFF`. -/
def definedWord (w : Byte) : Bool := w.toNat ≤ 0x0B || w == 0x0F

/-- "every command is exactly one byte" (R104), and the byte is a defined word. -/
def wellFormedWords : List Byte → Bool
  | [w] => definedWord w
  | _ => false

/-- No command has an operand (R100), so there is no ill-formed instruction: the check stands on the words. -/
def WellFormed (_ : Instr) : Bool := true

end Sys2Proof
end

