-- ==== Sys2Proof/Decode.lean ====
section
/-! DEFINITION. Decoding and encoding of command words (30_encoding.md R100 to R104). -/

namespace Sys2Proof

/-- One row of the opcode table: the word selects the command when `cmd & mask = match` (R100). -/
structure OpRow where
  mask  : Byte
  word  : Byte
  instr : Instr
  deriving DecidableEq, Repr

/-- The opcode map of R102, `mask = 0xFF` in every row. -/
def opcodeRows : List OpRow :=
  [ ⟨0xFF, 0x00, .nop⟩, ⟨0xFF, 0x01, .fclr⟩, ⟨0xFF, 0x02, .fcnt⟩, ⟨0xFF, 0x03, .build⟩
  , ⟨0xFF, 0x04, .genc⟩, ⟨0xFF, 0x05, .hser⟩, ⟨0xFF, 0x06, .hdes⟩, ⟨0xFF, 0x07, .pack⟩
  , ⟨0xFF, 0x08, .unpack⟩, ⟨0xFF, 0x09, .rewind⟩, ⟨0xFF, 0x0A, .encode⟩, ⟨0xFF, 0x0B, .decode⟩
  , ⟨0xFF, 0x0F, .reset⟩ ]

/-- The command a word selects; `none` for the 243 words of R103. -/
def decodeWord (w : Byte) : Option Instr :=
  (opcodeRows.find? fun r => w &&& r.mask == r.word).map OpRow.instr

/-- Why no instruction was read. -/
inductive Rejected where
  /-- The word is one of R103's. -/
  | undefinedWord (w : Byte)
  /-- There is no byte to read. -/
  | noBytes
  deriving DecidableEq, Repr

/-- Read one command from a script's bytes, with the bytes left over; total, rejecting by name. -/
def decode : List Byte → Except Rejected (Instr × List Byte)
  | [] => .error .noBytes
  | w :: rest =>
    match decodeWord w with
    | some i => .ok (i, rest)
    | none => .error (.undefinedWord w)

/-- The opcode of a command, from R102. -/
def encodeWord : Instr → Byte
  | .nop => 0x00
  | .fclr => 0x01
  | .fcnt => 0x02
  | .build => 0x03
  | .genc => 0x04
  | .hser => 0x05
  | .hdes => 0x06
  | .pack => 0x07
  | .unpack => 0x08
  | .rewind => 0x09
  | .encode => 0x0A
  | .decode => 0x0B
  | .reset => 0x0F

/-- The bytes of a command: one (R104). -/
def encode (i : Instr) : List Byte := [encodeWord i]

/-- The first byte of an instruction whose low `nbits` bits are `w`'s and whose others are 0. A command is one byte. -/
def tableByte (nbits w : Nat) : Byte := BitVec.ofNat 8 (w % 2 ^ nbits)

/-- The instruction the decoder reads from an opcode-table word. -/
def decodeTableWord (nbits w : Nat) : Option Instr :=
  match decode [tableByte nbits w] with
  | .ok (i, _) => some i
  | .error _ => none

end Sys2Proof
end

