-- ==== Sys2Proof/Config.lean ====
section
/-! DEFINITION. What one machine fixes: the parameters of 00_scope.md R7, and the open parameter `EQ_INTERNAL` of R8. -/

namespace Sys2Proof

/-- The two values of `EQ_INTERNAL` (R8): which of two Internal nodes of equal weight comes first. -/
inductive EqInternal where
  /-- The node merged earlier comes first (D4). -/
  | oldestFirst
  /-- The node merged later comes first (D4). -/
  | newestFirst
  deriving DecidableEq, Repr, Inhabited

namespace Config

/-- The open parameter of R8 (D4 `OPEN`): it has no body, so no proof can know its value (log entry 1).
`State.reset` puts it into the state; every statement over all states holds for both values. -/
opaque eqInternal : EqInternal

/-- `NSYM` (R7). -/
def nSym : Nat := 256

/-- `MAXNODES` (R7). -/
def maxNodes : Nat := 511

/-- `MAXCODELEN` (R7, R155). -/
def maxCodeLen : Nat := 255

/-- `HDR_LEN(k)` (R7, R91). -/
def hdrLen (k : Nat) : Nat := 1 + 5 * k

/-- The greatest count or weight, `2^32 - 1` (R122, R137). -/
def maxCount : Nat := 0xFFFFFFFF

/-- `WBUF_CAP` (R7): recorded, read by no rule (R180, C1). -/
def wbufCap : Nat := 4096

/-- `RBUF_CAP` (R7): recorded, read by no rule. -/
def rbufCap : Nat := 4096

/-- `WBUF2_CAP` (R7): recorded, read by no rule. -/
def wbuf2Cap : Nat := 8192

/-- `HBUF_CAP` (R7): recorded, read by no rule. -/
def hbufCap : Nat := 2048

end Config

end Sys2Proof
end

