-- ==== Sys2Proof/Machine/State.lean ====
section
/-! DEFINITION. The state of the machine (10_state.md R20 to R44), its fault codes, the host's moves, and the state after reset. -/

namespace Sys2Proof.Machine

/-- `NODE[i].kind` (R23): 0 is `leaf`, 1 is `internal`. -/
inductive NodeKind where
  | leaf
  | internal
  deriving DecidableEq, Repr

/-- One element of `NODE` (R23). In a Leaf `left` and `right` are `NIL`; in an Internal node `sym` is 0. -/
structure Node where
  kind   : NodeKind
  sym    : Byte
  weight : Count
  left   : NodeRef
  right  : NodeRef
  deriving DecidableEq, Repr

/-- One element of `CODE` (R30). `bits` lists the edges from the root: `false` a left edge (0), `true` a right edge (1). -/
structure Code where
  valid : Bool
  len   : Byte
  bits  : List Bool
  deriving DecidableEq, Repr

/-- The faults a command can raise (R231); `Err.code` gives the number `ERRCODE` takes. -/
inductive Err where
  /-- `ERR_IO_RD`: a read or a rewind failed. -/
  | ioRd
  /-- `ERR_IO_WR`: a write failed. -/
  | ioWr
  /-- `ERR_HDR`: the header is shorter than its `k` implies. -/
  | hdr
  /-- `ERR_WALK`: the walk would step to an absent child. -/
  | walk
  /-- `ERR_TRUNC`: the payload ends early. -/
  | trunc
  /-- `ERR_SEQ`: a prerequisite is not met. -/
  | seq
  /-- `ERR_OVF`: a count or a weight would pass 2^32 - 1. -/
  | ovf
  /-- `ERR_NOCODE`: a source byte has no valid Code. -/
  | noCode
  /-- `ERR_ILLCMD`: the word selects no command. -/
  | illCmd
  deriving DecidableEq, Repr

/-- The environment's answer to one `SrcRead`, `SnkWrite` or rewind (R64, R212; U9 for `never`). -/
inductive IoAnswer where
  /-- The access succeeds. -/
  | ok
  /-- The access returns `IOFAIL`. -/
  | fail
  /-- The environment never answers: the command waits forever. -/
  | never
  deriving DecidableEq, Repr

/-- What the host may ask to read (R43, R274). -/
inductive HostReg where
  | status
  | errcode
  | ft (s : Byte)
  | node (i : NodeRef)
  | nnode
  | root
  | total
  | code (s : Byte)
  | acc
  | nbits
  | cur
  | outcnt
  | sink
  deriving DecidableEq, Repr

/-- One move of the host (R274, R105). -/
inductive HostMove where
  /-- Present a command word. -/
  | issue (w : Byte)
  /-- Bind a source: `SRC` is `bytes`, `SRCPOS` is 0 (`.src`). -/
  | bindSource (bytes : List Byte)
  /-- Bind an empty sink (`.snk`). -/
  | bindSink
  /-- Read a register. -/
  | readReg (r : HostReg)
  deriving DecidableEq, Repr

/-- The state. The first group is the engine's, the second the environment's (R20); the last group is the model's own:
what R20 calls parameters of the step relation, and the host's coming moves. -/
structure State where
  ft         : Vector Count 256
  node       : Vector Node 511
  nnode      : BitVec 10
  root       : NodeRef
  total      : Count
  code       : Vector Code 256
  acc        : Byte
  nbits      : BitVec 4
  cur        : NodeRef
  outcnt     : Count
  status     : Byte
  errcode    : BitVec 4
  src        : List Byte
  srcPos     : Nat
  snk        : List Byte
  eqInternal : EqInternal
  answers    : List IoAnswer
  faultKeep  : List Nat
  script     : List HostMove
  deriving DecidableEq, Repr

/-- Where the machine stops. A fault of the spec (`raise`, R240) is no such stop: it is a next state. -/
inductive Fault where
  /-- Raised by any `SrcRead`, `SnkWrite` or rewind the environment never answers: the command is stuck with
  `STATUS.BUSY = 1` (U9, R273). Safe: no state follows, so no claim holds of one. -/
  | noIoAnswer
  /-- Raised by the step when the host binds a stream, or reads anything but `STATUS`, while `STATUS.BUSY = 1`:
  a breach of duty outside the contract (R276, U19). Safe: the model stops. -/
  | hostBreach
  /-- Raised when a command's loop has used the bound the spec gives it. For the stream loops and the merge loop no
  state reaches it; for the walk of `GENC` only a node store no `BUILD` made does. Safe: the model stops. -/
  | loopBound
  /-- Raised when a command would read `NODE[NIL]`, which is no element (R24); only a `ROOT` no `BUILD` wrote reaches
  it. Safe: the model stops. -/
  | noSuchNode
  deriving DecidableEq, Repr

/-- Words the model gives no meaning. -/
inductive Refusal where
  /-- Raised by `exec` for an instruction without a meaning; none is left. Safe: the model stops. -/
  | notModelled (mnemonic : String)
  deriving DecidableEq, Repr

/-- A `NODE` element after reset: unspecified by R44; DESIGN CHOICE, an empty Leaf (log entry 6). -/
def Node.blank : Node := { kind := .leaf, sym := 0, weight := 0, left := nil, right := nil }

/-- A `CODE` element after reset: `valid = 0` (R44); `len`, `bits` unspecified, DESIGN CHOICE empty (log entry 7). -/
def Code.blank : Code := { valid := false, len := 0, bits := [] }

/-- The machine right after power-on reset (R44, R270, R271). The streams are not bound yet (log entry 5); the last
four fields are the model's own (log entries 1 to 4). -/
def State.reset : State :=
  { ft := Vector.replicate 256 0
    node := Vector.replicate 511 Node.blank
    nnode := 0
    root := nil
    total := 0
    code := Vector.replicate 256 Code.blank
    acc := 0
    nbits := 0
    cur := nil
    outcnt := 0
    status := 0x00
    errcode := 0
    src := []
    srcPos := 0
    snk := []
    eqInternal := Config.eqInternal
    answers := []
    faultKeep := []
    script := [] }

end Sys2Proof.Machine
end

