-- ==== Sys2Proof/Machine/Flags.lean ====
section
/-! DEFINITION. The bits of `STATUS` (10_state.md R35) and the numbers of `ERRCODE` (60_exceptions.md R231). -/

namespace Sys2Proof.Machine

/-- `w` with bit `i` set to `b`, the other bits kept. -/
def setBit (w : Byte) (i : Nat) (b : Bool) : Byte :=
  if b then w ||| (1#8 <<< i) else w &&& ~~~(1#8 <<< i)

/-- `STATUS.BUSY`, bit 0: 1 while a command executes. -/
def State.busy (s : State) : Bool := s.status.getLsbD 0

/-- `STATUS.ERR`, bit 1: 1 in the fault state. -/
def State.err (s : State) : Bool := s.status.getLsbD 1

/-- `STATUS.TREEV`, bit 2: 1 when the tree is that of the present `FT`. -/
def State.treev (s : State) : Bool := s.status.getLsbD 2

/-- `STATUS.CODEV`, bit 3: 1 when `CODE` is the code table of the present tree. -/
def State.codev (s : State) : Bool := s.status.getLsbD 3

/-- `STATUS.BUSY <- b`. -/
def State.setBusy (s : State) (b : Bool) : State := { s with status := setBit s.status 0 b }

/-- `STATUS.TREEV <- b`. -/
def State.setTreev (s : State) (b : Bool) : State := { s with status := setBit s.status 2 b }

/-- `STATUS.CODEV <- b`. -/
def State.setCodev (s : State) (b : Bool) : State := { s with status := setBit s.status 3 b }

/-- `STATUS.TREEV <- 0; STATUS.CODEV <- 0`, as every write of `FT` and the start of `BUILD` do (R35, R77). -/
def State.dropDerived (s : State) : State := (s.setTreev false).setCodev false

/-- `STATUS` in the fault state: `ERR` alone (R240, R241, C6). -/
def faultStatus : Byte := 0x02

/-- `code(E)` (R231). -/
def Err.code : Err → BitVec 4
  | .ioRd => 1
  | .ioWr => 2
  | .hdr => 3
  | .walk => 4
  | .trunc => 5
  | .seq => 6
  | .ovf => 7
  | .noCode => 8
  | .illCmd => 9

end Sys2Proof.Machine
end

