-- ==== Sys2Proof/Machine/Operands.lean ====
section
/-! DEFINITION. The implicit operands of the commands: the assembly of counts, bytes and bits (00_scope.md R15;
20_memory.md R65, R66; 30_encoding.md R92, R95; 44_bit_writer.md R176, R178). -/

namespace Sys2Proof.Machine

/-- The four bytes of a count in stream order, most significant first (R65). -/
def countBytes (c : Count) : List Byte :=
  [c.extractLsb' 24 8, c.extractLsb' 16 8, c.extractLsb' 8 8, c.extractLsb' 0 8]

/-- `b0 || b1 || b2 || b3` (R65): the first byte read is the most significant. -/
def countOf (b0 b1 b2 b3 : Byte) : Count := b0 ++ b1 ++ b2 ++ b3

/-- `zext_9(b) + 1` (R92): a value in 1..256, no wrap. -/
def recordCount (b : Byte) : Nat := (b.setWidth 9 + 1).toNat

/-- `(k - 1)[7:0]` (R92, R160). -/
def kMinus1 (k : Nat) : Byte := BitVec.ofNat 8 (k - 1)

/-- The bits of a byte in the order 7, 6, .., 0 (R66). -/
def bitsMsb (b : Byte) : List Bool :=
  [b.getLsbD 7, b.getLsbD 6, b.getLsbD 5, b.getLsbD 4, b.getLsbD 3, b.getLsbD 2, b.getLsbD 1, b.getLsbD 0]

/-- `((ACC << 1) | bit)` truncated to 8 bits (R176). -/
def shiftIn (acc : Byte) (bit : Bool) : Byte := (acc <<< 1) ||| (if bit then 1 else 0)

/-- `(ACC << (8 - NBITS))[7:0]` (R178). -/
def padOut (acc : Byte) (nbits : BitVec 4) : Byte := acc <<< (8 - nbits.toNat)

/-- The bits of a Code: `bits[0] .. bits[len - 1]` (R30). -/
def Code.path (c : Code) : List Bool := c.bits.take c.len.toNat

/-- One header record: the symbol and its count (R93). -/
def recordBytes (e : Byte × Count) : List Byte := e.1 :: countBytes e.2

/-- The non-zero entries among counts that stand from symbol `i` on, in ascending symbol order. -/
def entriesFrom : Nat → List Count → List (Byte × Count)
  | _, [] => []
  | i, c :: cs =>
    if c = 0 then entriesFrom (i + 1) cs else (BitVec.ofNat 8 i, c) :: entriesFrom (i + 1) cs

/-- The symbols `s` with `FT[s] ≠ 0`, ascending, each with its count: what every `for s = 0 .. 255 ascending:
if FT[s] ≠ 0` of the spec visits (R133, R160). -/
def tableEntries (ft : Vector Count 256) : List (Byte × Count) := entriesFrom 0 ft.toList

/-- `k(FT)` (R22). -/
def State.k (s : State) : Nat := (tableEntries s.ft).length

/-- `total(FT)` (R22): the mathematical sum, which may exceed 32 bits. -/
def State.totalFT (s : State) : Nat := (s.ft.toList.map BitVec.toNat).sum

/-- The header of a Frequency Table (R91 to R94, R160): `k - 1`, then the records in ascending symbol order. -/
def headerBytes (ft : Vector Count 256) : List Byte :=
  kMinus1 (tableEntries ft).length :: (tableEntries ft).flatMap recordBytes

end Sys2Proof.Machine
end

