-- ==== Sys2Proof/Machine/Ops.lean ====
section
/-! DEFINITION. The named operations: the arrays, the two stream primitives (20_memory.md R62, R63), the loop over the
source, `raise` (60_exceptions.md R240), the common prologue and epilogue (R235), and reset (10_state.md R44). -/

namespace Sys2Proof.Machine

/-- Where a piece of a command's pseudocode ends: it goes on, it has reached `raise e`, or it has no next step. -/
inductive Flow where
  | done (s : State)
  | raised (e : Err) (s : State)
  | stuck (r : Fault)
  deriving Repr

/-- Go on with the next line; nothing after a `raise` is executed (R11, R240). -/
def Flow.andThen (f : Flow) (k : State → Flow) : Flow :=
  match f with
  | .done s => k s
  | .raised e s => .raised e s
  | .stuck r => .stuck r

/-! ### The arrays -/

/-- `FT[b]`. -/
def State.ftAt (s : State) (b : Byte) : Count := s.ft[b.toNat]'b.isLt

/-- `FT[b] <- c`. -/
def State.setFt (s : State) (b : Byte) (c : Count) : State := { s with ft := s.ft.set b.toNat c b.isLt }

/-- `for s = 0 .. 255 ascending: FT[s] <- 0`. -/
def State.clearFt (s : State) : State := { s with ft := Vector.replicate 256 0 }

/-- `NODE[i]`; `none` for `NIL`, which is no index (R24). -/
def State.nodeAt (s : State) (i : NodeRef) : Option Node := s.node[i.toNat]?

/-- `NODE[i] <- nd`. -/
def State.setNode (s : State) (i : NodeRef) (nd : Node) : State :=
  { s with node := s.node.setIfInBounds i.toNat nd }

/-- `NODE[NNODE] <- nd; NNODE <- NNODE + 1` (R133, R135). -/
def State.allocNode (s : State) (nd : Node) : State :=
  { s.setNode (s.nnode.setWidth 9) nd with nnode := s.nnode + 1 }

/-- `CODE[b]`. -/
def State.codeAt (s : State) (b : Byte) : Code := s.code[b.toNat]'b.isLt

/-- `CODE[b] <- c`. -/
def State.setCode (s : State) (b : Byte) (c : Code) : State := { s with code := s.code.set b.toNat c b.isLt }

/-- `CODE` with `valid = 0` in every element, `len` and `bits` kept (R150). -/
def invalidated (code : Vector Code 256) : Vector Code 256 :=
  ⟨⟨code.toList.map fun c => { c with valid := false }⟩, by simp⟩

/-- `for s = 0 .. 255 ascending: CODE[s].valid <- 0`. -/
def State.invalidateCodes (s : State) : State := { s with code := invalidated s.code }

/-! ### The streams -/

/-- The environment's answer to the next access (R64): the head of `answers`, a success where the list has ended. -/
def State.answer (s : State) : IoAnswer := s.answers.headD .ok

/-- The state after one answer was drawn. -/
def State.drawn (s : State) : State := { s with answers := s.answers.tail }

/-- `SRCPOS <- SRCPOS + 1`. -/
def State.advance (s : State) : State := { s with srcPos := s.srcPos + 1 }

/-- `SNK <- SNK ++ [v]`. -/
def State.append (s : State) (v : Byte) : State := { s with snk := s.snk ++ [v] }

/-- What `SrcRead()` returns (R62). -/
inductive SrcRead where
  | byte (b : Byte) (s : State)
  | eof (s : State)
  | ioFail (s : State)
  | noAnswer
  deriving Repr

/-- `SrcRead()` (R62). -/
def srcRead (s : State) : SrcRead :=
  match s.answer with
  | .fail => .ioFail s.drawn
  | .never => .noAnswer
  | .ok =>
    match s.src[s.srcPos]? with
    | none => .eof s.drawn
    | some b => .byte b s.drawn.advance

/-- A `SrcRead()` whose `IOFAIL` arm is `raise ERR_IO_RD` (R63): `onEof` is what the caller does on `EOF`. -/
def readByte (s : State) (onEof : State → Flow) (k : Byte → State → Flow) : Flow :=
  match srcRead s with
  | .byte b s' => k b s'
  | .eof s' => onEof s'
  | .ioFail s' => .raised .ioRd s'
  | .noAnswer => .stuck .noIoAnswer

/-- A bare `SnkWrite(v)` (R63): `raise ERR_IO_WR` when the environment fails it. -/
def snkWrite (v : Byte) (s : State) : Flow :=
  match s.answer with
  | .fail => .raised .ioWr s.drawn
  | .never => .stuck .noIoAnswer
  | .ok => .done (s.drawn.append v)

/-- `SnkWrite` of each byte in order. -/
def snkWrites : List Byte → State → Flow
  | [], s => .done s
  | v :: vs, s => (snkWrite v s).andThen (snkWrites vs)

/-- The bytes of the source not read yet. -/
def State.unread (s : State) : List Byte := s.src.drop s.srcPos

/-- `loop: r <- SrcRead(); if EOF: exit; body(b)` with a bound on the passes. -/
def eachByte (body : Byte → State → Flow) : Nat → State → Flow
  | 0, _ => .stuck .loopBound
  | n + 1, s => readByte s .done fun b s' => (body b s').andThen (eachByte body n)

/-- The loop over the source from `SRCPOS` to its end (R121, R175): one pass per unread byte and one for `EOF`. -/
def overSource (body : Byte → State → Flow) (s : State) : Flow := eachByte body (s.unread.length + 1) s

/-! ### Fault entry, prologue and epilogue -/

/-- The prefix of a faulting command's output that reached the sink: the environment's draw (R241, D19). -/
def State.delivered (s : State) (emitted : List Byte) : List Byte :=
  match s.faultKeep with
  | [] => emitted
  | n :: _ => emitted.take n

/-- `raise e` (R240, R241), reached in `s` by a command accepted in `accepted`: `ERRCODE` and `STATUS` are written, and
`SNK` keeps some prefix of what the command emitted; the rest stays as the pseudocode left it, which R241 allows. -/
def faultEntry (accepted : State) (e : Err) (s : State) : State :=
  { s with
    errcode := e.code
    status := faultStatus
    snk := accepted.snk ++ s.delivered (s.snk.drop accepted.snk.length)
    faultKeep := s.faultKeep.tail }

/-- `Issue(w)` around a command's pseudocode (R235): a word presented while `BUSY = 1` is not accepted (R101), one
presented in the fault state is refused (R242); neither changes anything. -/
def runCommand (body : State → Flow) (s : State) : Host.Outcome State Fault Refusal :=
  if s.busy || s.err then .next s
  else
    match body (s.setBusy true) with
    | .done t => .next (t.setBusy false)
    | .raised e t => .next (faultEntry s e t)
    | .stuck r => .fault r

/-- A word that selects no command (R237): refused like any other, else `ERR_ILLCMD`. -/
def illegalWord (s : State) : Host.Outcome State Fault Refusal :=
  runCommand (fun t => .raised .illCmd t) s

/-- Every engine register and array at its value of R44; the streams, the environment's draws and the host's moves
are not touched (R217, R271). -/
def resetEngine (s : State) : State :=
  { State.reset with
    src := s.src
    srcPos := s.srcPos
    snk := s.snk
    eqInternal := s.eqInternal
    answers := s.answers
    faultKeep := s.faultKeep
    script := s.script }

end Sys2Proof.Machine
end

