-- ==== Sys2Proof/Machine/BitReader.lean ====
section
/-! DEFINITION. The Bit Reader / Decode Loop command `UNPACK` (45_bit_reader.md). -/

namespace Sys2Proof.Machine

/-- `SnkWrite(sym); OUTCNT <- OUTCNT + 1`, with `CUR <- ROOT` (R191, R192). -/
def emitSymbol (sym : Byte) (s : State) : Flow :=
  (snkWrite sym s).andThen fun t => .done { t with cur := t.root, outcnt := t.outcnt + 1 }

/-- `DegenerateEmit()` (R191), with a bound on the passes; `CUR` is `ROOT` already and stays so. -/
def degenerateEmit (sym : Byte) : Nat → State → Flow
  | 0, s => if s.outcnt = s.total then .done s else .stuck .loopBound
  | n + 1, s => if s.outcnt = s.total then .done s else (emitSymbol sym s).andThen (degenerateEmit sym n)

/-- One bit of the walk (R192, R193): the `NIL` test stands before `CUR` moves. -/
def walkBit (bit : Bool) (s : State) : Flow :=
  match s.nodeAt s.cur with
  | none => .stuck .noSuchNode
  | some nd =>
    let nxt := if bit then nd.right else nd.left
    match s.nodeAt nxt with
    | none => .raised .walk s
    | some nd' =>
      match nd'.kind with
      | .leaf => emitSymbol nd'.sym { s with cur := nxt }
      | .internal => .done { s with cur := nxt }

/-- The bits of one payload byte (R192): the walk stops in the middle of a byte when `OUTCNT = TOTAL`. -/
def walkBits : List Bool → State → Flow
  | [], s => .done s
  | b :: bs, s => (walkBit b s).andThen fun t => if t.outcnt = t.total then .done t else walkBits bs t

/-- `WalkLoop()` (R192, R194), with a bound on the payload bytes. -/
def walkLoop : Nat → State → Flow
  | 0, _ => .stuck .loopBound
  | n + 1, s =>
    if s.outcnt = s.total then .done s
    else readByte s (Flow.raised .trunc) fun b t => (walkBits (bitsMsb b) t).andThen (walkLoop n)

/-- `UNPACK` (R190). -/
def unpackBody (s : State) : Flow :=
  if s.treev then
    let t := { s with outcnt := 0, cur := s.root }
    match t.nodeAt t.root with
    | none => .stuck .noSuchNode
    | some nd =>
      match nd.kind with
      | .leaf => degenerateEmit nd.sym t.total.toNat t
      | .internal => walkLoop (t.unread.length + 1) t
  else .raised .seq s

/-- The command `UNPACK`. -/
def execUnpack (s : State) : Host.Outcome State Fault Refusal := runCommand unpackBody s

end Sys2Proof.Machine
end

