-- ==== Sys2Proof/Machine/BitWriter.lean ====
section
/-! DEFINITION. The Bit Writer command `PACK` (44_bit_writer.md). -/

namespace Sys2Proof.Machine

/-- `ACC <- 0; NBITS <- 0`. -/
def State.clearAcc (s : State) : State := { s with acc := 0, nbits := 0 }

/-- `SnkWrite(ACC); ACC <- 0; NBITS <- 0` (R176, R178). -/
def emitAcc (s : State) : Flow := (snkWrite s.acc s).andThen fun t => .done t.clearAcc

/-- `ACC <- (ACC[6:0] || bit); NBITS <- NBITS + 1` (R176). -/
def State.shiftBit (s : State) (bit : Bool) : State :=
  { s with acc := shiftIn s.acc bit, nbits := s.nbits + 1 }

/-- `PutBit(bit)` (R176). -/
def putBit (bit : Bool) (s : State) : Flow :=
  if (s.shiftBit bit).nbits = 8 then emitAcc (s.shiftBit bit) else .done (s.shiftBit bit)

/-- `PutBit` of each bit in order. -/
def putBits : List Bool → State → Flow
  | [], s => .done s
  | b :: bs, s => (putBit b s).andThen (putBits bs)

/-- `FlushBits()` (R178). -/
def flushBits (s : State) : Flow :=
  if s.nbits = 0 then .done s else emitAcc { s with acc := padOut s.acc s.nbits }

/-- One source byte of `PACK` (R175, R177): `len` and `bits` are read only when `valid = 1`. -/
def packByte (b : Byte) (s : State) : Flow :=
  if (s.codeAt b).valid then putBits (s.codeAt b).path s else .raised .noCode s

/-- `PACK` (R175). -/
def packBody (s : State) : Flow :=
  if s.codev then (overSource packByte s.clearAcc).andThen flushBits else .raised .seq s

/-- The command `PACK`. -/
def execPack (s : State) : Host.Outcome State Fault Refusal := runCommand packBody s

end Sys2Proof.Machine
end

