-- ==== Sys2Proof/Machine/CodeTable.lean ====
section
/-! DEFINITION. The Code Table Generator command `GENC` (42_code_table.md). -/

namespace Sys2Proof.Machine

/-- The code table entry of a Leaf reached by `path` (R150). -/
def codeOf (path : List Bool) : Code :=
  { valid := true, len := BitVec.ofNat 8 path.length, bits := path }

/-- `Walk(i, path)` (R150, R152): depth first, left before right; the bound is on the frames (R155: at most 256). -/
def walkCodes : Nat → NodeRef → List Bool → State → Flow
  | 0, _, _, _ => .stuck .loopBound
  | n + 1, i, path, s =>
    match s.nodeAt i with
    | none => .stuck .noSuchNode
    | some nd =>
      match nd.kind with
      | .leaf => .done (s.setCode nd.sym (codeOf path))
      | .internal =>
        if nd.left = nil ∨ nd.right = nil then .raised .walk s
        else
          (walkCodes n nd.left (path ++ [false]) s).andThen (walkCodes n nd.right (path ++ [true]))

/-- `GENC` (R150). -/
def gencBody (s : State) : Flow :=
  if s.treev then
    (walkCodes 256 s.root [] (s.setCodev false).invalidateCodes).andThen fun t => .done (t.setCodev true)
  else .raised .seq (s.setCodev false)

/-- The command `GENC`. -/
def execGenc (s : State) : Host.Outcome State Fault Refusal := runCommand gencBody s

end Sys2Proof.Machine
end

