-- ==== Sys2Proof/Machine/FreqTable.lean ====
section
/-! DEFINITION. The Frequency Table commands `FCLR` and `FCNT` (40_frequency_table.md). -/

namespace Sys2Proof.Machine

/-- `FCLR` (R120): `FT` to all zero; `TREEV`, `CODEV` to 0. -/
def fclrBody (s : State) : Flow := .done s.clearFt.dropDerived

/-- One pass of `FCNT` (R121, R122): the increment that would produce 2^32 faults and does not write. -/
def countByte (b : Byte) (s : State) : Flow :=
  if s.ftAt b = 0xFFFFFFFF then .raised .ovf s else .done (s.setFt b (s.ftAt b + 1))

/-- `FCNT` (R121). -/
def fcntBody (s : State) : Flow := overSource countByte s.dropDerived

/-- The command `FCLR`. -/
def execFclr (s : State) : Host.Outcome State Fault Refusal := runCommand fclrBody s

/-- The command `FCNT`. -/
def execFcnt (s : State) : Host.Outcome State Fault Refusal := runCommand fcntBody s

end Sys2Proof.Machine
end

