-- ==== Sys2Proof/Machine/HeaderCodec.lean ====
section
/-! DEFINITION. The Header Codec commands `HSER` and `HDES` (43_header_codec.md). -/

namespace Sys2Proof.Machine

/-- `HSER` (R160, R161). -/
def hserBody (s : State) : Flow :=
  if s.k = 0 then .raised .seq s else snkWrites (headerBytes s.ft) s

/-- `HdrByte()` (R163, R165): an `EOF` here raises `ERR_HDR`. -/
def hdrByte (s : State) (k : Byte → State → Flow) : Flow := readByte s (Flow.raised .hdr) k

/-- One record (R163): the symbol, then the four count bytes, most significant first. -/
def readRecord (s : State) : Flow :=
  hdrByte s fun sym s => hdrByte s fun c3 s => hdrByte s fun c2 s => hdrByte s fun c1 s => hdrByte s fun c0 s =>
    .done (s.setFt sym (countOf c3 c2 c1 c0))

/-- `for i = 0 .. k-1 ascending` (R163). -/
def readRecords : Nat → State → Flow
  | 0, s => .done s
  | n + 1, s => (readRecord s).andThen (readRecords n)

/-- `HDES` (R163 to R166): an `EOF` at the very first byte completes with an empty table (R164). -/
def hdesBody (s : State) : Flow :=
  readByte s.dropDerived.clearFt .done fun b t => readRecords (recordCount b) t

/-- The command `HSER`. -/
def execHser (s : State) : Host.Outcome State Fault Refusal := runCommand hserBody s

/-- The command `HDES`. -/
def execHdes (s : State) : Host.Outcome State Fault Refusal := runCommand hdesBody s

end Sys2Proof.Machine
end

