-- ==== Sys2Proof/Machine/System.lean ====
section
/-! DEFINITION. The system commands `NOP`, `REWIND`, `RESET` (46_composite_system.md R210, R211, R217). -/

namespace Sys2Proof.Machine

/-- `REWIND` (R211, R212): whether it succeeds is the environment's draw. -/
def rewindBody (s : State) : Flow :=
  match s.answer with
  | .fail => .raised .ioRd s.drawn
  | .never => .stuck .noIoAnswer
  | .ok => .done { s.drawn with srcPos := 0 }

/-- The command `NOP` (R210): empty pseudocode. -/
def execNop (s : State) : Host.Outcome State Fault Refusal := runCommand .done s

/-- The command `REWIND`. -/
def execRewind (s : State) : Host.Outcome State Fault Refusal := runCommand rewindBody s

/-- The command `RESET` (R217): the one command accepted in the fault state (R242); not accepted while `BUSY` (R101). -/
def execReset (s : State) : Host.Outcome State Fault Refusal :=
  if s.busy then .next s else .next (resetEngine s)

end Sys2Proof.Machine
end

