-- ==== Sys2Proof/Machine/TreeBuilder.lean ====
section
/-! DEFINITION. The Tree Builder command `BUILD` (41_tree_builder.md). -/

namespace Sys2Proof.Machine

/-- `key(i)` (R132): all three components are mathematical integers (R15). -/
structure Key where
  weight : Nat
  tb     : Int
  seq    : Int
  deriving DecidableEq, Repr

/-- `tb(i)` (R132): the symbol of a Leaf, the sentinel -1 of an Internal node (R9). -/
def tieBreak (nd : Node) : Int :=
  match nd.kind with
  | .leaf => nd.sym.toNat
  | .internal => -1

/-- `seq(i)` (R132). -/
def seqOf (eq : EqInternal) (i : NodeRef) : Int :=
  match eq with
  | .oldestFirst => i.toNat
  | .newestFirst => -i.toNat

/-- `key(i)` of the node `nd` at index `i` (R132). -/
def keyOf (eq : EqInternal) (i : NodeRef) (nd : Node) : Key :=
  { weight := nd.weight.toNat, tb := tieBreak nd, seq := seqOf eq i }

/-- `key(i) < key(j)`, lexicographic (R132). -/
def Key.before (a b : Key) : Bool :=
  decide (a.weight < b.weight) ||
    (decide (a.weight = b.weight) &&
      (decide (a.tb < b.tb) || (decide (a.tb = b.tb) && decide (a.seq < b.seq))))

/-- `before(i, j)` (R132). -/
def State.before (s : State) (i j : NodeRef) : Bool :=
  match s.nodeAt i, s.nodeAt j with
  | some a, some b => (keyOf s.eqInternal i a).before (keyOf s.eqInternal j b)
  | _, _ => false

/-- `ORD` with `n` inserted at the position that keeps it sorted by `before` (R135). -/
def insertOrd (s : State) (n : NodeRef) : List NodeRef → List NodeRef
  | [] => [n]
  | j :: js => if s.before n j then n :: j :: js else j :: insertOrd s n js

/-- The Leaf of one non-zero entry (R133). -/
def leafNode (e : Byte × Count) : Node :=
  { kind := .leaf, sym := e.1, weight := e.2, left := nil, right := nil }

/-- `MaterializeLeaves()` (R133). -/
def materializeLeaves (s : State) : State :=
  (tableEntries s.ft).foldl (fun t e => t.allocNode (leafNode e)) { s with nnode := 0 }

/-- The allocated indices, `0 .. NNODE - 1`. -/
def State.allocated (s : State) : List NodeRef := (List.range s.nnode.toNat).map (BitVec.ofNat 9)

/-- `SortLeaves()` (R134): the allocated indices in ascending order of `before`. -/
def sortLeaves (s : State) : List NodeRef := s.allocated.foldr (insertOrd s) []

/-- The Internal node that merges `a` and `b` (R135). -/
def internalNode (w : Nat) (a b : NodeRef) : Node :=
  { kind := .internal, sym := 0, weight := BitVec.ofNat 32 w, left := a, right := b }

/-- `ROOT <- ORD[0]; TOTAL <- NODE[ROOT].weight; STATUS.TREEV <- 1` (R130), where `r` is the one index left. -/
def takeRoot (r : NodeRef) (s : State) : Flow :=
  match s.nodeAt r with
  | none => .stuck .noSuchNode
  | some nd => .done (State.setTreev { s with root := r, total := nd.weight } true)

/-- `MergeLoop()` (R135, R137) and the lines of `BUILD` after it, with a bound on the merges. -/
def mergeLoop : Nat → List NodeRef → State → Flow
  | _, [], _ => .stuck .noSuchNode
  | _, [r], s => takeRoot r s
  | 0, _ :: _ :: _, _ => .stuck .loopBound
  | n + 1, a :: b :: rest, s =>
    match s.nodeAt a, s.nodeAt b with
    | some na, some nb =>
      let w := na.weight.toNat + nb.weight.toNat
      if w > Config.maxCount then .raised .ovf s
      else
        let t := s.allocNode (internalNode w a b)
        mergeLoop n (insertOrd t (s.nnode.setWidth 9) rest) t
    | _, _ => .stuck .noSuchNode

/-- `BUILD` (R130): `k - 1` merges at most (R135). -/
def buildBody (s : State) : Flow :=
  if s.k = 0 then .raised .seq s.dropDerived
  else
    let t := materializeLeaves s.dropDerived
    mergeLoop s.k (sortLeaves t) t

/-- The command `BUILD`. -/
def execBuild (s : State) : Host.Outcome State Fault Refusal := runCommand buildBody s

end Sys2Proof.Machine
end

