-- ==== Sys2Proof/Machine/Composite.lean ====
section
/-! DEFINITION. The composite commands `ENCODE` and `DECODE` (46_composite_system.md R213, R215): each line is the
named command's pseudocode without a prologue and an epilogue of its own. -/

namespace Sys2Proof.Machine

/-- The lines of `ENCODE` after `FCNT` (R213), for a table that is not empty. -/
def encodeRest (s : State) : Flow :=
  (((((buildBody s).andThen gencBody).andThen hserBody).andThen rewindBody).andThen packBody)

/-- `ENCODE` (R213, R214): an empty input completes and writes nothing. -/
def encodeBody (s : State) : Flow :=
  (((rewindBody s).andThen fclrBody).andThen fcntBody).andThen fun t =>
    if t.k = 0 then .done t else encodeRest t

/-- `DECODE` (R215, R219): an empty table completes and writes nothing. -/
def decodeBody (s : State) : Flow :=
  (hdesBody s).andThen fun t => if t.k = 0 then .done t else (buildBody t).andThen unpackBody

/-- The command `ENCODE`. -/
def execEncode (s : State) : Host.Outcome State Fault Refusal := runCommand encodeBody s

/-- The command `DECODE`. -/
def execDecode (s : State) : Host.Outcome State Fault Refusal := runCommand decodeBody s

end Sys2Proof.Machine
end

