-- ==== Sys2Proof/Machine/HostSide.lean ====
section
/-! DEFINITION. The host's side of the interface (70_reset_and_hazards.md R274 to R277; 10_state.md R43): binding the
streams, and what a read of a register returns. -/

namespace Sys2Proof.Machine

/-- Bind a source (R38, R274): allowed only while `BUSY = 0`; otherwise the host has left the contract (R276, U19). -/
def bindSource (bytes : List Byte) (s : State) : Host.Outcome State Fault Refusal :=
  if s.busy then .fault .hostBreach else .next { s with src := bytes, srcPos := 0 }

/-- Bind an empty sink (R39, R274). -/
def bindSink (s : State) : Host.Outcome State Fault Refusal :=
  if s.busy then .fault .hostBreach else .next { s with snk := [] }

/-- While `STATUS.BUSY = 1` only `STATUS` may be read (R43, R74). -/
def mayRead (r : HostReg) (s : State) : Bool := !s.busy || r == .status

/-- A read has no side effect (R43). -/
def readReg (r : HostReg) (s : State) : Host.Outcome State Fault Refusal :=
  if mayRead r s then .next s else .fault .hostBreach

/-- What the host gets back from a read. -/
inductive Readout where
  | num (n : Nat)
  | node (nd : Node)
  /-- A `CODE` record, field by field: `valid` always has a value, `len` and `bits` only while it is 1 (R30, U12). -/
  | code (valid : Bool) (len : Option Byte) (bits : Option (List Bool))
  | bytes (l : List Byte)
  /-- The spec gives no value: a register in the fault state, or a `NODE` element that holds none (R23, R241). -/
  | unspecified
  /-- The host must not read it now (R276). -/
  | forbidden
  deriving DecidableEq, Repr

/-- What a read of `CODE[s]` gives: `valid` as it stands, and `len`, `bits` while `valid` is 1; while it is 0 the spec
leaves just those two open (R30, R44, U12). -/
def codeReadout (c : Code) : Readout :=
  if c.valid then .code true (some c.len) (some c.bits) else .code false none none

/-- The value of a register outside the fault state; what R44 and U11, U12 leave unspecified has no value. -/
def regValue (r : HostReg) (s : State) : Readout :=
  match r with
  | .status => .num s.status.toNat
  | .errcode => .num s.errcode.toNat
  | .ft b => .num (s.ftAt b).toNat
  | .node i =>
    match s.nodeAt i with
    | some nd => if i.toNat < s.nnode.toNat then .node nd else .unspecified
    | none => .unspecified
  | .nnode => .num s.nnode.toNat
  | .root => .num s.root.toNat
  | .total => .num s.total.toNat
  | .code b => codeReadout (s.codeAt b)
  | .acc => .num s.acc.toNat
  | .nbits => .num s.nbits.toNat
  | .cur => .num s.cur.toNat
  | .outcnt => .num s.outcnt.toNat
  | .sink => .bytes s.snk

/-- Registers defined in the fault state (R241): `STATUS`, `ERRCODE`, and the sink's old bytes with a prefix. -/
def definedInFault (r : HostReg) : Bool := r == .status || r == .errcode || r == .sink

/-- What the host reads (R43). -/
def readout (r : HostReg) (s : State) : Readout :=
  if mayRead r s then
    if s.err && !definedInFault r then .unspecified else regValue r s
  else .forbidden

end Sys2Proof.Machine
end

