-- ==== Sys2Proof/Machine/Issue.lean ====
section
/-! DEFINITION. What one move of the host does to the machine (30_encoding.md R101; 60_exceptions.md R235;
70_reset_and_hazards.md R274), and where the next command word comes from. -/

namespace Sys2Proof.Machine

/-- The host presents the word `w`: the command it selects, or the illegal word (R103). -/
def issueWord (w : Byte) (s : State) : Host.Outcome State Fault Refusal :=
  match decode [w] with
  | .ok (i, _) => exec i s
  | .error _ => illegalWord s

/-- One move of the host. -/
def hostMove (m : HostMove) (s : State) : Host.Outcome State Fault Refusal :=
  match m with
  | .issue w => issueWord w s
  | .bindSource bytes => bindSource bytes s
  | .bindSink => bindSink s
  | .readReg r => readReg r s

/-- The host's next move, with the rest of its moves left in the state; with none the engine idles (R271). -/
def hostStep (s : State) : Host.Outcome State Fault Refusal :=
  match s.script with
  | [] => .next s
  | m :: rest => hostMove m { s with script := rest }

/-- `s` with the word `w` as what the host presents next. -/
def presentNext (s : State) (w : Byte) : State := { s with script := .issue w :: s.script }

end Sys2Proof.Machine
end

