-- ==== Sys2Proof/Machine/Step.lean ====
section
/-! DEFINITION. One step: the host's next move, run to its end (20_memory.md R73, 30_encoding.md R101). -/

namespace Sys2Proof.Machine

def step (s : State) : Host.Outcome State Fault Refusal := hostStep s

def State.withFetchWord (s : State) (nbits w : Nat) : State := presentNext s (tableByte nbits w)

end Sys2Proof.Machine
end

