-- ==== Sys2Proof/Safety.lean ====
section
/-! DEFINITION. The terms the claims use: when a command is accepted, the environment's answers, the tree as the spec's
inductive value (10_state.md R28), the packed BitStream (44_bit_writer.md R181), header records, and the invariants. -/

namespace Sys2Proof.Machine

/-! ### Acceptance and answers -/

/-- The engine accepts a command (R101, R235): `STATUS.BUSY = 0` and `STATUS.ERR = 0`. -/
def Accepts (s : State) : Prop := s.busy = false ∧ s.err = false

/-- The environment's next `n` answers are successes: "no `IOFAIL` was drawn" among them (R64). -/
def AnswersOk (s : State) (n : Nat) : Prop := ∀ a ∈ s.answers.take n, a = IoAnswer.ok

/-- No `IOFAIL` is drawn at all (R64). -/
def NeverFails (s : State) : Prop := ∀ a ∈ s.answers, a = IoAnswer.ok

/-- The command run from `s` has ended in `t`, in the fault state with the code of `e` (R240, R241); it delivered `p`. -/
def FaultsWith (s t : State) (e : Err) (p : List Byte) : Prop :=
  t.status = 0x02 ∧ t.errcode = e.code ∧ t.snk = s.snk ++ p

/-- The environment's part and the machine's constants that no command but by a read or a draw may change:
`SRC`, `EQ_INTERNAL` and the host's coming moves. -/
def SameSurroundings (s t : State) : Prop :=
  t.src = s.src ∧ t.eqInternal = s.eqInternal ∧ t.script = s.script

/-- The tree registers are unchanged: `NODE`, `NNODE`, `ROOT`, `TOTAL`. -/
def SameTree (s t : State) : Prop :=
  t.node = s.node ∧ t.nnode = s.nnode ∧ t.root = s.root ∧ t.total = s.total

/-- The Bit Writer's registers are unchanged. -/
def SameWriter (s t : State) : Prop := t.acc = s.acc ∧ t.nbits = s.nbits

/-- The decoder's registers are unchanged. -/
def SameReader (s t : State) : Prop := t.cur = s.cur ∧ t.outcnt = s.outcnt

/-- Neither stream is touched, and nothing is drawn from the environment. -/
def SameStreams (s t : State) : Prop := t.srcPos = s.srcPos ∧ t.snk = s.snk ∧ t.answers = s.answers

/-- `STATUS` as a command that completes leaves it: `BUSY` 0, `ERR` 0, the two flags as given, reserved bits 0 (R35). -/
def statusWord (treev codev : Bool) : Byte := (if codev then 8 else 0) ||| (if treev then 4 else 0)

/-- The reserved bits `STATUS[7:4]` read as 0 (R35). -/
def ReservedZero (s : State) : Prop := s.status.extractLsb' 4 4 = 0

/-! ### The tree -/

/-- The source's `Node` type (R28). -/
inductive Tree where
  | leaf (sym : Byte) (weight : Count)
  | internal (weight : Count) (left right : Tree)
  deriving DecidableEq, Repr

/-- The weight of a tree's root. -/
def Tree.weight : Tree → Count
  | .leaf _ w => w
  | .internal w _ _ => w

/-- The Leaves from left to right, each symbol with its weight. -/
def Tree.leaves : Tree → List (Byte × Count)
  | .leaf b w => [(b, w)]
  | .internal _ l r => l.leaves ++ r.leaves

/-- Each Leaf's symbol with its root path: `false` a left edge, `true` a right edge (R151). -/
def Tree.codes : Tree → List (Byte × List Bool)
  | .leaf b _ => [(b, [])]
  | .internal _ l r =>
    (l.codes.map fun e => (e.1, false :: e.2)) ++ (r.codes.map fun e => (e.1, true :: e.2))

/-- R28 (a): the weight of an Internal node is the sum of its children's weights, as integers. -/
def Tree.SumsHold : Tree → Prop
  | .leaf _ _ => True
  | .internal w l r => w.toNat = l.weight.toNat + r.weight.toNat ∧ l.SumsHold ∧ r.SumsHold

/-- `Tree(i)` (R28): the tree that stands in the node store at index `i`. -/
inductive TreeAt (s : State) : NodeRef → Tree → Prop where
  | leaf {i : NodeRef} {nd : Node} (at_i : s.nodeAt i = some nd) (kind : nd.kind = .leaf) :
      TreeAt s i (.leaf nd.sym nd.weight)
  | internal {i : NodeRef} {nd : Node} {l r : Tree} (at_i : s.nodeAt i = some nd) (kind : nd.kind = .internal)
      (left : TreeAt s nd.left l) (right : TreeAt s nd.right r) : TreeAt s i (.internal nd.weight l r)

/-- The children of the node at `i`: none for a Leaf. -/
def State.childrenOf (s : State) (i : NodeRef) : List NodeRef :=
  match s.nodeAt i with
  | some nd => match nd.kind with
    | .leaf => []
    | .internal => [nd.left, nd.right]
  | none => []

/-- Every `left` and `right` of the allocated Internal nodes. -/
def State.childRefs (s : State) : List NodeRef := s.allocated.flatMap s.childrenOf

/-- What holds whenever `STATUS.TREEV = 1` (R25 to R28): `t` is the tree of the present table. -/
structure TreeOf (s : State) (t : Tree) : Prop where
  /-- The tree of the machine is `Tree(ROOT)`. -/
  at_root : TreeAt s s.root t
  /-- R28 (a). -/
  sums : t.SumsHold
  /-- R28 (b), (c): the children are exactly the allocated indices other than `ROOT`, each once. -/
  owned : (s.root :: s.childRefs).Perm s.allocated
  /-- R28 (d): one Leaf per `s` with `FT[s] ≠ 0`, of weight `FT[s]`. -/
  leaves : t.leaves.Perm (tableEntries s.ft)
  /-- The table is not empty (R130). -/
  nonempty : 1 ≤ s.k
  /-- R25. -/
  nnode : s.nnode.toNat = 2 * s.k - 1
  /-- R26. -/
  root : s.root.toNat = 2 * s.k - 2
  /-- R27. -/
  total : s.total.toNat = s.totalFT

/-- The code table is that of the tree `t` (R150, R151): an entry is valid exactly for a symbol that occurs, and a
Leaf's entry is its root path. -/
structure CodesOf (s : State) (t : Tree) : Prop where
  valid : ∀ b : Byte, (s.codeAt b).valid = true ↔ s.ftAt b ≠ 0
  paths : ∀ e ∈ t.codes, s.codeAt e.1 = { valid := true, len := BitVec.ofNat 8 e.2.length, bits := e.2 }

/-! ### Streams of bytes and bits -/

/-- Byte `m` of a BitStream (R181): `S[8m] .. S[8m+7]` in bits 7 .. 0, with 0 past the end of `S`. -/
def packedByte (bits : List Bool) (m : Nat) : Byte :=
  BitVec.ofFnLE fun i : Fin 8 => bits.getD (8 * m + (7 - i.val)) false

/-- The BitStream of the code bits `bits` (R96, R181): `ceil(B / 8)` bytes. -/
def packedBytes (bits : List Bool) : List Byte :=
  (List.range ((bits.length + 7) / 8)).map (packedByte bits)

/-- The bits of a byte sequence, most significant first within each byte (R66). -/
def bitsOf (bytes : List Byte) : List Bool := bytes.flatMap bitsMsb

/-- The records that stand in a byte sequence, five bytes each (R93). -/
def recordsIn : List Byte → List (Byte × Count)
  | sym :: c3 :: c2 :: c1 :: c0 :: rest => (sym, c3 ++ c2 ++ c1 ++ c0) :: recordsIn rest
  | _ => []

/-- The count a symbol has after the records were assigned in order onto an empty table (R166): the last one's. -/
def lastCount (b : Byte) (records : List (Byte × Count)) : Count :=
  ((records.reverse.find? fun e => e.1 == b).map Prod.snd).getD 0

/-! ### Invariants -/

/-- What R31, R32, R35, R36, R38 and R240 say of the registers between commands. -/
structure RegistersOk (s : State) : Prop where
  /-- Between commands `BUSY` is 0 (R35, R101). -/
  idle : s.busy = false
  /-- R35. -/
  reserved : ReservedZero s
  /-- `ERRCODE` is 0 exactly outside the fault state (R36). -/
  code_iff : s.errcode = 0 ↔ s.err = false
  /-- Values 10 to 15 are never written (R36). -/
  code_range : s.errcode.toNat ≤ 9
  /-- `STATUS = 0x02` in the fault state (R241). -/
  fault_status : s.err = true → s.status = 0x02
  /-- A valid code table belongs to a valid tree (R35). -/
  codev_treev : s.codev = true → s.treev = true
  /-- `0 ≤ SRCPOS ≤ len(SRC)` (R38). -/
  cursor : s.srcPos ≤ s.src.length
  /-- `PACK` leaves `ACC` and `NBITS` 0 (R31, R32); in the fault state they are unspecified (R241). -/
  writer : s.err = false → s.acc = 0 ∧ s.nbits = 0

/-- Whenever `STATUS.TREEV = 1`, the invariants of R28 hold. -/
def TreeInv (s : State) : Prop := s.treev = true → ∃ t, TreeOf s t

/-- Whenever `STATUS.CODEV = 1`, `CODE` is the table of the present tree, which is the tree of the present `FT`. -/
def CodeInv (s : State) : Prop := s.codev = true → s.treev = true ∧ ∃ t, TreeOf s t ∧ CodesOf s t

/-- All of it. -/
structure Inv (s : State) : Prop where
  registers : RegistersOk s
  tree : TreeInv s
  codes : CodeInv s

/-- Commands issued one after the other (R220), stopping where the machine stops. -/
def execAll : List Instr → State → Host.Outcome State Fault Refusal
  | [], s => .next s
  | i :: is, s =>
    match exec i s with
    | .next t => execAll is t
    | .fault r => .fault r
    | .refused r => .refused r

end Sys2Proof.Machine
end

