-- ==== Sys2Proof/Certificates/Slice0/Obligations.lean ====
section
/-! DEFINITION. The statements for the provers, one definition each; the docstring names the rules of spec/ it rests on.
Where a statement says what becomes of `answers`, `faultKeep` or `script`, that clause is the model's choice and no rule of
the spec: these lists are the model's own (log entries 2, 3 and 4), and no statement rests on their values at reset. -/

open Sys2Proof Sys2Proof.Machine

/-! ### Command words and the step -/

/-- The thirteen words of R102 select their commands, whatever bytes follow. -/
def Obligations.OpcodeMapDecodes : Prop :=
  ∀ rest : List Byte,
    decode (0x00 :: rest) = .ok (.nop, rest) ∧ decode (0x01 :: rest) = .ok (.fclr, rest) ∧
    decode (0x02 :: rest) = .ok (.fcnt, rest) ∧ decode (0x03 :: rest) = .ok (.build, rest) ∧
    decode (0x04 :: rest) = .ok (.genc, rest) ∧ decode (0x05 :: rest) = .ok (.hser, rest) ∧
    decode (0x06 :: rest) = .ok (.hdes, rest) ∧ decode (0x07 :: rest) = .ok (.pack, rest) ∧
    decode (0x08 :: rest) = .ok (.unpack, rest) ∧ decode (0x09 :: rest) = .ok (.rewind, rest) ∧
    decode (0x0A :: rest) = .ok (.encode, rest) ∧ decode (0x0B :: rest) = .ok (.decode, rest) ∧
    decode (0x0F :: rest) = .ok (.reset, rest)

/-- Decoding and encoding agree in both directions: a word selects a command exactly when it is the command's opcode. -/
def Obligations.DecodeAndEncodeAgree : Prop :=
  (∀ (i : Instr) (rest : List Byte), decode (encode i ++ rest) = .ok (i, rest)) ∧
  ∀ (w : Byte) (i : Instr), decodeWord w = some i ↔ encode i = [w]

/-- R103: the words `0x0C`, `0x0D`, `0x0E` and `0x10` to `0xFF` select no command; issued outside the fault state such
a word faults with `ERR_ILLCMD` and changes nothing else; issued in it, it is refused. (The draw `faultKeep` is the
model's own; every fault entry consumes one, log entry 3.) -/
def Obligations.UndefinedWordFaultsOrIsRefused : Prop :=
  ∀ (s : State) (w : Byte) (rest : List HostMove),
    (w = 0x0C ∨ w = 0x0D ∨ w = 0x0E ∨ 0x10 ≤ w.toNat) → s.script = .issue w :: rest → s.busy = false →
    decodeWord w = none ∧
    (s.err = false → step s = .next
      { s with script := rest, status := 0x02, errcode := 9, faultKeep := s.faultKeep.tail }) ∧
    (s.err = true → step s = .next { s with script := rest })

/-- A step runs the command the host presents: `exec` of it, on the state whose next host move is taken (R101, R235). -/
def Obligations.StepRunsTheIssuedCommand : Prop :=
  ∀ (s : State) (w : Byte) (i : Instr) (rest : List HostMove),
    s.script = .issue w :: rest → decodeWord w = some i → step s = exec i { s with script := rest }

/-- The host's other moves (R274, R38, R39, R43): binding sets the stream and nothing else, a read has no side effect,
and with no move left the engine idles. While `BUSY = 1` a word is not accepted and has no effect (R101), and the
host's other moves have left the contract (R276): they stop as `hostBreach`, the model's own name (log entry 12). -/
def Obligations.HostBindsStreamsAndReads : Prop :=
  ∀ (s : State) (rest : List HostMove) (w : Byte) (bytes : List Byte) (r : HostReg),
    (s.script = [] → step s = .next s) ∧
    (s.script = .issue w :: rest → s.busy = true → step s = .next { s with script := rest }) ∧
    (s.script = .bindSource bytes :: rest → s.busy = false →
      step s = .next { s with script := rest, src := bytes, srcPos := 0 }) ∧
    (s.script = .bindSink :: rest → s.busy = false → step s = .next { s with script := rest, snk := [] }) ∧
    (s.script = .readReg r :: rest → (s.busy = false ∨ r = .status) → step s = .next { s with script := rest }) ∧
    (s.script = .bindSource bytes :: rest → s.busy = true → step s = .fault .hostBreach) ∧
    (s.script = .bindSink :: rest → s.busy = true → step s = .fault .hostBreach) ∧
    (s.script = .readReg r :: rest → s.busy = true → r ≠ .status → step s = .fault .hostBreach)

/-! ### System commands and reset -/

/-- R210: `NOP`, opcode `0x00`, changes nothing, in every state. -/
def Obligations.NopChangesNothing : Prop := encode .nop = [0x00] ∧ ∀ s : State, exec .nop s = .next s

/-- R211, R212: `REWIND`, opcode `0x09`: a rewind that succeeds sets `SRCPOS` to 0 and nothing else; one the environment fails is `ERR_IO_RD`. -/
def Obligations.RewindMovesTheCursor : Prop :=
  encode .rewind = [0x09] ∧ ∀ s : State, Accepts s →
    (s.answer = .ok → exec .rewind s = .next { s with srcPos := 0, answers := s.answers.tail }) ∧
    (s.answer = .fail → ∃ t, exec .rewind s = .next t ∧ FaultsWith s t .ioRd [])

/-- R217, R44: `RESET`, opcode `0x0F`, in the fault state too, puts every engine register and array at its reset value and leaves the
streams alone. What R44 leaves unspecified (`NODE`, `CODE[s].len`, `CODE[s].bits`) is not stated. -/
def Obligations.ResetReturnsTheEngine : Prop :=
  encode .reset = [0x0F] ∧ ∀ s : State, s.busy = false → ∃ t, exec .reset s = .next t ∧
    (∀ b, t.ftAt b = 0) ∧ t.nnode = 0 ∧ t.root = 511 ∧ t.total = 0 ∧ (∀ b, (t.codeAt b).valid = false) ∧
    t.acc = 0 ∧ t.nbits = 0 ∧ t.cur = 511 ∧ t.outcnt = 0 ∧ t.status = 0x00 ∧ t.errcode = 0 ∧
    t.src = s.src ∧ t.srcPos = s.srcPos ∧ t.snk = s.snk ∧ t.answers = s.answers ∧ SameSurroundings s t

/-- R44, R270: the values the spec gives for power-on reset. -/
def Obligations.ResetStateHoldsTheSpecsValues : Prop :=
  (∀ b, State.reset.ftAt b = 0) ∧ State.reset.nnode = 0 ∧ State.reset.root = 511 ∧ State.reset.total = 0 ∧
  (∀ b, (State.reset.codeAt b).valid = false) ∧ State.reset.acc = 0 ∧ State.reset.nbits = 0 ∧
  State.reset.cur = 511 ∧ State.reset.outcnt = 0 ∧ State.reset.status = 0x00 ∧ State.reset.errcode = 0

/-! ### The Frequency Table -/

/-- R22, R94: the entries visited are exactly the symbols with a non-zero count, in strictly ascending order; `k` is the
number of those symbols, at most 256 and 0 exactly for the empty table; `total` is the sum of the counts, at most
`256 * (2^32 - 1)`. -/
def Obligations.TableEntriesAreTheNonzeroCounts : Prop :=
  ∀ s : State, (∀ e : Byte × Count, e ∈ tableEntries s.ft ↔ s.ftAt e.1 = e.2 ∧ e.2 ≠ 0) ∧
    (tableEntries s.ft).Pairwise (fun e e' => e.1.toNat < e'.1.toNat) ∧
    s.k = ((List.range 256).filter fun n => decide (s.ftAt (BitVec.ofNat 8 n) ≠ 0)).length ∧
    s.k ≤ 256 ∧ (s.k = 0 ↔ ∀ b, s.ftAt b = 0) ∧
    s.totalFT = ((List.range 256).map fun n => (s.ftAt (BitVec.ofNat 8 n)).toNat).sum ∧
    s.totalFT ≤ 256 * (2 ^ 32 - 1)

/-- R120: `FCLR`, opcode `0x01`, completes with `FT` all zero and both flags 0, and touches nothing else. -/
def Obligations.FclrClearsTheTable : Prop :=
  encode .fclr = [0x01] ∧ ∀ s : State, Accepts s → ∃ t, exec .fclr s = .next t ∧
    (∀ b, t.ftAt b = 0) ∧ t.treev = false ∧ t.codev = false ∧ t.busy = false ∧ t.err = false ∧
    t.status.extractLsb' 4 4 = s.status.extractLsb' 4 4 ∧ t.errcode = s.errcode ∧
    SameTree s t ∧ t.code = s.code ∧ SameWriter s t ∧ SameReader s t ∧ SameStreams s t ∧ SameSurroundings s t

/-- R121: `FCNT` adds to each count the occurrences in the unread source, leaves `SRCPOS` at its end, clears both
flags, and touches nothing else. Premises: the reads succeed and no count passes `2^32 - 1`. -/
def Obligations.FcntCountsTheUnreadSource : Prop :=
  ∀ s : State, Accepts s → s.srcPos ≤ s.src.length → AnswersOk s (s.unread.length + 1) →
    (∀ b, (s.ftAt b).toNat + s.unread.count b ≤ Config.maxCount) →
    ∃ t, exec .fcnt s = .next t ∧
      (∀ b, (t.ftAt b).toNat = (s.ftAt b).toNat + s.unread.count b) ∧ t.srcPos = s.src.length ∧
      t.treev = false ∧ t.codev = false ∧ t.busy = false ∧ t.err = false ∧
      t.status.extractLsb' 4 4 = s.status.extractLsb' 4 4 ∧ t.errcode = s.errcode ∧
      SameTree s t ∧ t.code = s.code ∧ SameWriter s t ∧ SameReader s t ∧
      t.snk = s.snk ∧ t.answers = s.answers.drop (s.unread.length + 1) ∧ SameSurroundings s t

/-- R121, R122, R232: where a count would pass `2^32 - 1` and the reads succeed, `FCNT` faults with `ERR_OVF`; where no
count has overflowed, the first read the environment fails is `ERR_IO_RD`. -/
def Obligations.FcntOverflowAndReadFailureFault : Prop :=
  (∀ s : State, Accepts s → AnswersOk s s.unread.length →
    (∃ b, Config.maxCount < (s.ftAt b).toNat + s.unread.count b) →
    ∃ t, exec .fcnt s = .next t ∧ FaultsWith s t .ovf []) ∧
  ∀ (s : State) (m : Nat) (later : List IoAnswer), Accepts s → m ≤ s.unread.length →
    s.answers = List.replicate m .ok ++ .fail :: later →
    (∀ b, (s.ftAt b).toNat + (s.unread.take m).count b ≤ Config.maxCount) →
    ∃ t, exec .fcnt s = .next t ∧ FaultsWith s t .ioRd []

/-- R236: a command whose prerequisite is missing faults with `ERR_SEQ` before it reads or writes a stream. -/
def Obligations.MissingPrerequisiteFaults : Prop :=
  ∀ s : State, Accepts s →
    (s.k = 0 → ∃ t, exec .build s = .next t ∧ FaultsWith s t .seq [] ∧ t.answers = s.answers) ∧
    (s.k = 0 → ∃ t, exec .hser s = .next t ∧ FaultsWith s t .seq [] ∧ t.answers = s.answers) ∧
    (s.treev = false → ∃ t, exec .genc s = .next t ∧ FaultsWith s t .seq [] ∧ t.answers = s.answers) ∧
    (s.treev = false → ∃ t, exec .unpack s = .next t ∧ FaultsWith s t .seq [] ∧ t.answers = s.answers) ∧
    (s.codev = false → ∃ t, exec .pack s = .next t ∧ FaultsWith s t .seq [] ∧ t.answers = s.answers)

/-! ### The Tree Builder -/

/-- R137, R130, R25 to R27: a non-empty table whose counts sum to at most `2^32 - 1` is built: `TREEV` 1, `CODEV` 0,
`NNODE = 2k - 1`, `ROOT = 2k - 2`, `TOTAL` the sum of the counts; nothing else is touched. -/
def Obligations.BuildCompletesWithinTheWeightLimit : Prop :=
  ∀ s : State, Accepts s → 1 ≤ s.k → s.totalFT ≤ Config.maxCount →
    ∃ t, exec .build s = .next t ∧
      t.treev = true ∧ t.codev = false ∧ t.busy = false ∧ t.err = false ∧
      t.status.extractLsb' 4 4 = s.status.extractLsb' 4 4 ∧ t.errcode = s.errcode ∧
      t.nnode.toNat = 2 * s.k - 1 ∧ t.root.toNat = 2 * s.k - 2 ∧ t.total.toNat = s.totalFT ∧
      t.ft = s.ft ∧ t.code = s.code ∧ SameWriter s t ∧ SameReader s t ∧ SameStreams s t ∧ SameSurroundings s t

/-- R137: a non-empty table whose counts sum above `2^32 - 1` faults with `ERR_OVF`. -/
def Obligations.BuildWeightOverflowFaults : Prop :=
  ∀ s : State, Accepts s → 1 ≤ s.k → Config.maxCount < s.totalFT →
    ∃ t, exec .build s = .next t ∧ FaultsWith s t .ovf [] ∧ t.answers = s.answers

/-- R28, R25 to R27: what a `BUILD` that completes leaves is the tree of the table: sums hold, every allocated node but
the root has exactly one parent, both children of an Internal node exist, the Leaves are the non-zero entries. -/
def Obligations.BuildMakesTheTreeOfTheTable : Prop :=
  ∀ s t : State, Accepts s → exec .build s = .next t → t.err = false → ∃ tr, TreeOf t tr

/-- R133, R71: the Leaves stand at indices `0 .. k-1` in ascending symbol order with `NIL` children; the Internal nodes
stand at `k .. 2k-2`, each made after its children. -/
def Obligations.BuildAllocationOrder : Prop :=
  ∀ s t : State, Accepts s → exec .build s = .next t → t.err = false →
    (∀ j : Nat, ∀ e : Byte × Count, (tableEntries s.ft)[j]? = some e →
      t.nodeAt (BitVec.ofNat 9 j) =
        some { kind := .leaf, sym := e.1, weight := e.2, left := 511, right := 511 }) ∧
    (∀ j : Nat, s.k ≤ j → j < 2 * s.k - 1 → ∃ nd, t.nodeAt (BitVec.ofNat 9 j) = some nd ∧
      nd.kind = .internal ∧ nd.sym = 0 ∧ nd.left.toNat < j ∧ nd.right.toNat < j)

/-- R135: every merge takes the two lowest-ordered nodes. In the tree `BUILD` leaves, an Internal node's left child
comes before its right child, and both come before every other node that existed at that merge and that no earlier
merge had taken. -/
def Obligations.BuildMergesTheTwoLowest : Prop :=
  ∀ s t : State, Accepts s → exec .build s = .next t → t.err = false →
    ∀ (i : NodeRef) (nd : Node), i.toNat < t.nnode.toNat → t.nodeAt i = some nd → nd.kind = .internal →
      t.before nd.left nd.right = true ∧
      ∀ j : NodeRef, j.toNat < i.toNat → j ≠ nd.left → j ≠ nd.right →
        (∀ (i' : NodeRef), i'.toNat < i.toNat → j ∉ t.childrenOf i') → t.before nd.right j = true

/-- R136: for one symbol no merge occurs; the single Leaf is the root. -/
def Obligations.BuildOfOneSymbol : Prop :=
  ∀ (s : State) (b : Byte) (c : Count), Accepts s → tableEntries s.ft = [(b, c)] →
    ∃ t, exec .build s = .next t ∧ t.err = false ∧ t.treev = true ∧ t.nnode = 1 ∧ t.root = 0 ∧ t.total = c ∧
      t.nodeAt 0 = some { kind := .leaf, sym := b, weight := c, left := 511, right := 511 }

/-- R138: `BUILD` is a function of `FT` and `EQ_INTERNAL` alone: it draws nothing from the environment's answers; it
ends alike from any two states that agree on the two, and when it completes the allocated nodes, `NNODE`, `ROOT` and
`TOTAL` are the same. -/
def Obligations.BuildDependsOnTableAndParameterOnly : Prop :=
  ∀ s s' t t' : State, Accepts s → Accepts s' → s.ft = s'.ft → s.eqInternal = s'.eqInternal →
    exec .build s = .next t → exec .build s' = .next t' →
    t.answers = s.answers ∧ t.err = t'.err ∧ t.treev = t'.treev ∧
    (t.err = false → t.nnode = t'.nnode ∧ t.root = t'.root ∧ t.total = t'.total ∧
      ∀ i : NodeRef, i.toNat < t.nnode.toNat → t.nodeAt i = t'.nodeAt i)

/-- R132: for either value of `EQ_INTERNAL`, `before` is a strict total order on nodes; at equal weight an Internal node
comes before every Leaf, among Leaves the smaller symbol comes first, and two Internal nodes stand in the order
`EQ_INTERNAL` names. -/
def Obligations.KeyOrderIsStrictAndTotal : Prop :=
  ∀ (s : State) (i j : NodeRef) (a b : Node), s.nodeAt i = some a → s.nodeAt j = some b →
    s.before i i = false ∧
    (i ≠ j → s.before i j = !s.before j i) ∧
    (∀ l : NodeRef, s.before i j = true → s.before j l = true → s.before i l = true) ∧
    (a.weight.toNat < b.weight.toNat → s.before i j = true) ∧
    (a.weight = b.weight → a.kind = .internal → b.kind = .leaf → s.before i j = true) ∧
    (a.weight = b.weight → a.kind = .leaf → b.kind = .leaf → a.sym.toNat < b.sym.toNat → s.before i j = true) ∧
    (a.weight = b.weight → a.kind = .internal → b.kind = .internal → i.toNat < j.toNat →
      (s.eqInternal = .oldestFirst → s.before i j = true) ∧ (s.eqInternal = .newestFirst → s.before j i = true))

/-! ### The Code Table Generator -/

/-- R150, R151, R155: with a valid tree `GENC` completes; an entry is valid exactly for a symbol that occurs, and holds
the Leaf's root path, left edge 0, right edge 1; nothing but `CODE` and `CODEV` changes. -/
def Obligations.GencWritesRootPaths : Prop :=
  ∀ (s : State) (tr : Tree), Accepts s → s.treev = true → TreeOf s tr →
    ∃ t, exec .genc s = .next t ∧ CodesOf t tr ∧ t.codev = true ∧ t.treev = true ∧ t.busy = false ∧ t.err = false ∧
      t.status.extractLsb' 4 4 = s.status.extractLsb' 4 4 ∧ t.errcode = s.errcode ∧
      t.ft = s.ft ∧ SameTree s t ∧ SameWriter s t ∧ SameReader s t ∧ SameStreams s t ∧ SameSurroundings s t

/-- R153: the Code of a root that is itself a Leaf is empty, and valid. -/
def Obligations.GencOfOneLeaf : Prop :=
  ∀ (s : State) (nd : Node), Accepts s → s.treev = true → s.nodeAt s.root = some nd → nd.kind = .leaf →
    ∃ t, exec .genc s = .next t ∧ t.err = false ∧ t.codev = true ∧
      t.codeAt nd.sym = { valid := true, len := 0, bits := [] } ∧ ∀ b, b ≠ nd.sym → (t.codeAt b).valid = false

/-- R154: for `k ≥ 2` no symbol's Code is a prefix of another symbol's Code, and none is empty. -/
def Obligations.CodesArePrefixFree : Prop :=
  ∀ (s : State) (tr : Tree), TreeOf s tr → CodesOf s tr → 2 ≤ s.k →
    (∀ b b' : Byte, (s.codeAt b).valid = true → (s.codeAt b').valid = true → b ≠ b' →
      ¬ (s.codeAt b).path <+: (s.codeAt b').path) ∧
    ∀ b : Byte, (s.codeAt b).valid = true → 1 ≤ (s.codeAt b).len.toNat

/-- R155, R30: the length of a Code is the depth of its Leaf, at most `k - 1`, which is at most 255; it is the number of
its bits. -/
def Obligations.CodeLengthBound : Prop :=
  ∀ (s : State) (tr : Tree), TreeOf s tr → CodesOf s tr →
    (∀ e ∈ tr.codes, (s.codeAt e.1).len.toNat = e.2.length) ∧ ∀ b : Byte, (s.codeAt b).valid = true →
      (s.codeAt b).len.toNat ≤ s.k - 1 ∧ s.k - 1 ≤ Config.maxCodeLen ∧
      (s.codeAt b).bits.length = (s.codeAt b).len.toNat

/-! ### The Header Codec -/

/-- R160, R91: `HSER` on a non-empty table appends the header, `1 + 5k` bytes, and changes nothing else. -/
def Obligations.HserWritesTheHeader : Prop :=
  ∀ s : State, Accepts s → 1 ≤ s.k → AnswersOk s (1 + 5 * s.k) →
    (headerBytes s.ft).length = 1 + 5 * s.k ∧
    exec .hser s = .next
      { s with snk := s.snk ++ headerBytes s.ft, answers := s.answers.drop (1 + 5 * s.k) }

/-- R92, R93, R94, R65: the header's bytes: `k - 1`, then record `i` at offset `1 + 5i`: the `i`-th symbol and its count,
most significant byte first. -/
def Obligations.HeaderLayout : Prop :=
  ∀ s : State, 1 ≤ s.k →
    (∃ b0, (headerBytes s.ft)[0]? = some b0 ∧ b0.toNat = s.k - 1) ∧
    ∀ (i : Nat) (e : Byte × Count), (tableEntries s.ft)[i]? = some e →
      (headerBytes s.ft)[1 + 5 * i]? = some e.1 ∧
      (∃ c3 c2 c1 c0 : Byte, (headerBytes s.ft)[2 + 5 * i]? = some c3 ∧ (headerBytes s.ft)[3 + 5 * i]? = some c2 ∧
        (headerBytes s.ft)[4 + 5 * i]? = some c1 ∧ (headerBytes s.ft)[5 + 5 * i]? = some c0 ∧
        e.2.toNat = c3.toNat * 2 ^ 24 + c2.toNat * 2 ^ 16 + c1.toNat * 2 ^ 8 + c0.toNat)

/-- R160, R232, R241: the write the environment fails ends `HSER` with `ERR_IO_WR`; the sink holds some prefix of the
bytes written before it. -/
def Obligations.HserWriteFailureFaults : Prop :=
  ∀ (s : State) (m : Nat) (later : List IoAnswer), Accepts s → 1 ≤ s.k → m < 1 + 5 * s.k →
    s.answers = List.replicate m .ok ++ .fail :: later →
    ∃ t p, exec .hser s = .next t ∧ FaultsWith s t .ioWr p ∧ p <+: (headerBytes s.ft).take m

/-- R164: on an empty source `HDES` completes with the table empty, and nothing read. -/
def Obligations.HdesOfEmptySource : Prop :=
  ∀ s : State, Accepts s → s.unread = [] → AnswersOk s 1 →
    ∃ t, exec .hdes s = .next t ∧ t.err = false ∧ t.busy = false ∧ t.treev = false ∧ t.codev = false ∧
      (∀ b, t.ftAt b = 0) ∧ t.k = 0 ∧ t.srcPos = s.srcPos ∧ t.snk = s.snk

/-- R163, R166: `HDES` assigns the records in file order onto a cleared table (the last record of a symbol wins, a count
0 leaves it absent, any order is accepted), advances `SRCPOS` by `1 + 5k`, clears both flags, and touches nothing else. -/
def Obligations.HdesReadsTheHeader : Prop :=
  ∀ (s : State) (b : Byte) (rest : List Byte), Accepts s → s.unread = b :: rest →
    5 * (b.toNat + 1) ≤ rest.length → AnswersOk s (1 + 5 * (b.toNat + 1)) →
    ∃ t, exec .hdes s = .next t ∧
      (∀ sym, t.ftAt sym = lastCount sym (recordsIn (rest.take (5 * (b.toNat + 1))))) ∧
      t.srcPos = s.srcPos + (1 + 5 * (b.toNat + 1)) ∧
      t.treev = false ∧ t.codev = false ∧ t.busy = false ∧ t.err = false ∧
      t.status.extractLsb' 4 4 = s.status.extractLsb' 4 4 ∧ t.errcode = s.errcode ∧
      SameTree s t ∧ t.code = s.code ∧ SameWriter s t ∧ SameReader s t ∧
      t.snk = s.snk ∧ t.answers = s.answers.drop (1 + 5 * (b.toNat + 1)) ∧ SameSurroundings s t

/-- R165: a source that ends inside the `5k` record bytes is `ERR_HDR`. -/
def Obligations.HdesShortHeaderFaults : Prop :=
  ∀ (s : State) (b : Byte) (rest : List Byte), Accepts s → s.unread = b :: rest →
    rest.length < 5 * (b.toNat + 1) → AnswersOk s (rest.length + 2) →
    ∃ t, exec .hdes s = .next t ∧ FaultsWith s t .hdr []

/-- R162: an `HSER` that completes appends exactly `1 + 5k` bytes, and `HDES` of a source that starts with them
reproduces the identical table and reads exactly them. -/
def Obligations.HeaderRoundTrip : Prop :=
  ∀ s t : State, Accepts s → exec .hser s = .next t → t.err = false →
    ∃ H : List Byte, t.snk = s.snk ++ H ∧ H.length = 1 + 5 * s.k ∧
      ∀ (s' : State) (more : List Byte), Accepts s' → s'.src = H ++ more → s'.srcPos = 0 → AnswersOk s' H.length →
        ∃ t', exec .hdes s' = .next t' ∧ t'.err = false ∧ t'.ft = s.ft ∧ t'.srcPos = H.length

/-! ### The Bit Writer -/

/-- R176: a bit enters at bit 0 after a left shift by one; the eighth bit writes the byte and clears `ACC`, `NBITS`. R178:
`FlushBits()` writes nothing when no bit is held; else one byte: the held bits at its top, 0 below them. -/
def Obligations.BitWriterShiftsAndPads : Prop :=
  ∀ (s : State) (bit : Bool), s.nbits.toNat < 8 →
    (shiftIn s.acc bit).getLsbD 0 = bit ∧
    (∀ i < 7, (shiftIn s.acc bit).getLsbD (i + 1) = s.acc.getLsbD i) ∧
    (s.nbits ≠ 7 → putBit bit s = .done { s with acc := shiftIn s.acc bit, nbits := s.nbits + 1 }) ∧
    (s.nbits = 7 → s.answer = .ok → putBit bit s = .done
      { s with acc := 0, nbits := 0, snk := s.snk ++ [shiftIn s.acc bit], answers := s.answers.tail }) ∧
    (s.nbits = 0 → flushBits s = .done s) ∧
    (s.nbits ≠ 0 → s.answer = .ok → ∃ v : Byte,
      flushBits s = .done { s with acc := 0, nbits := 0, snk := s.snk ++ [v], answers := s.answers.tail } ∧
      (∀ i < s.nbits.toNat, v.getLsbD (8 - s.nbits.toNat + i) = s.acc.getLsbD i) ∧
      ∀ i < 8 - s.nbits.toNat, v.getLsbD i = false)

/-- R181, R175, R179: a `PACK` whose source bytes all have Codes appends exactly the packed concatenation of their Codes,
`ceil(B / 8)` bytes, leaves `SRCPOS` at the end and `ACC`, `NBITS` 0, and touches nothing else. -/
def Obligations.PackAppendsTheBitStream : Prop :=
  ∀ s : State, Accepts s → s.codev = true → s.srcPos ≤ s.src.length →
    (∀ b ∈ s.unread, (s.codeAt b).valid = true) →
    AnswersOk s (s.unread.length + 1 + ((s.unread.flatMap fun b => (s.codeAt b).path).length + 7) / 8) →
    ∃ t, exec .pack s = .next t ∧
      t.snk = s.snk ++ packedBytes (s.unread.flatMap fun b => (s.codeAt b).path) ∧
      t.srcPos = s.src.length ∧ t.acc = 0 ∧ t.nbits = 0 ∧ t.status = s.status ∧ t.errcode = s.errcode ∧
      t.ft = s.ft ∧ SameTree s t ∧ t.code = s.code ∧ SameReader s t ∧ SameSurroundings s t

/-- R177: the first source byte without a Code ends `PACK` with `ERR_NOCODE`, before any bit of it is put; the sink holds
some prefix of the whole bytes the Codes before it filled. -/
def Obligations.PackWithoutCodeFaults : Prop :=
  ∀ (s : State) (before later : List Byte) (b : Byte), Accepts s → s.codev = true →
    s.unread = before ++ b :: later → (∀ c ∈ before, (s.codeAt c).valid = true) → (s.codeAt b).valid = false →
    AnswersOk s (before.length + 1 + (before.flatMap fun c => (s.codeAt c).path).length / 8) →
    ∃ t p, exec .pack s = .next t ∧ FaultsWith s t .noCode p ∧
      p <+: (packedBytes (before.flatMap fun c => (s.codeAt c).path)).take
        ((before.flatMap fun c => (s.codeAt c).path).length / 8)

/-! ### The Bit Reader -/

/-- R191: on a single Leaf `UNPACK` emits its symbol `TOTAL` times and reads no payload. -/
def Obligations.UnpackOfOneLeaf : Prop :=
  ∀ (s : State) (nd : Node), Accepts s → s.treev = true → s.nodeAt s.root = some nd → nd.kind = .leaf →
    AnswersOk s s.total.toNat →
    ∃ t, exec .unpack s = .next t ∧ t.snk = s.snk ++ List.replicate s.total.toNat nd.sym ∧ t.srcPos = s.srcPos ∧
      t.cur = s.root ∧ t.outcnt = s.total ∧ t.status = s.status ∧ t.errcode = s.errcode ∧
      t.ft = s.ft ∧ SameTree s t ∧ t.code = s.code ∧ SameWriter s t ∧
      t.answers = s.answers.drop s.total.toNat ∧ SameSurroundings s t

/-- R196, R192, R195: when the unread bits begin with the Codes of `TOTAL` symbols of the tree, `UNPACK` emits exactly
those symbols; it reads no byte past the last one it needs and never examines the bits after the last Code. -/
def Obligations.UnpackEmitsTheEncodedSymbols : Prop :=
  ∀ (s : State) (tr : Tree) (coded : List (Byte × List Bool)) (more : List Bool),
    Accepts s → s.treev = true → TreeOf s tr → 2 ≤ s.k → (∀ e ∈ coded, e ∈ tr.codes) →
    coded.length = s.total.toNat → bitsOf s.unread = (coded.flatMap Prod.snd) ++ more →
    AnswersOk s (((coded.flatMap Prod.snd).length + 7) / 8 + s.total.toNat) →
    ∃ t, exec .unpack s = .next t ∧ t.snk = s.snk ++ coded.map Prod.fst ∧
      t.srcPos = s.srcPos + ((coded.flatMap Prod.snd).length + 7) / 8 ∧
      t.cur = s.root ∧ t.outcnt = s.total ∧ t.status = s.status ∧ t.errcode = s.errcode ∧
      t.ft = s.ft ∧ SameTree s t ∧ t.code = s.code ∧ SameWriter s t ∧ SameSurroundings s t

/-- R194: when the source ends with symbols still owed, at a Code's end or inside a Code, `UNPACK` faults with
`ERR_TRUNC`; the sink holds some prefix of the symbols decoded. -/
def Obligations.UnpackTruncatedFaults : Prop :=
  ∀ (s : State) (tr : Tree) (coded : List (Byte × List Bool)) (part : List Bool),
    Accepts s → s.treev = true → TreeOf s tr → 2 ≤ s.k → (∀ e ∈ coded, e ∈ tr.codes) →
    coded.length < s.total.toNat → bitsOf s.unread = (coded.flatMap Prod.snd) ++ part →
    (∀ e ∈ tr.codes, ¬ e.2 <+: part) → AnswersOk s (s.unread.length + 1 + coded.length) →
    ∃ t p, exec .unpack s = .next t ∧ FaultsWith s t .trunc p ∧ p <+: coded.map Prod.fst

/-- R152, R193: a step to an absent child is a decode error, `ERR_WALK`, with nothing emitted for it: `GENC` at an Internal
root with an absent child, `UNPACK` at the first payload bit (no run of commands reaches either). -/
def Obligations.AbsentChildFaults : Prop :=
  ∀ (s : State) (nd : Node), Accepts s → s.treev = true → s.nodeAt s.root = some nd → nd.kind = .internal →
    (nd.left = 511 ∨ nd.right = 511 → ∃ t, exec .genc s = .next t ∧ FaultsWith s t .walk []) ∧
    ∀ (b : Byte) (rest : List Byte), s.total ≠ 0 → s.unread = b :: rest → AnswersOk s 1 →
      (if b.getLsbD 7 then nd.right else nd.left) = 511 → ∃ t, exec .unpack s = .next t ∧ FaultsWith s t .walk []

/-! ### Composites, and whole-machine rules -/

/-- R220: where the steps complete, `ENCODE` has the same effect on all state as its steps issued one after the other,
skipping those after `FCNT` when the table is empty. -/
def Obligations.EncodeEqualsItsParts : Prop :=
  ∀ s u : State, Accepts s → execAll [.rewind, .fclr, .fcnt] s = .next u → u.err = false →
    (u.k = 0 → exec .encode s = .next u) ∧
    (u.k ≠ 0 → ∀ t, execAll [.build, .genc, .hser, .rewind, .pack] u = .next t → t.err = false →
      exec .encode s = .next t)

/-- R220: where the steps complete, `DECODE` has the same effect as `HDES`, then `BUILD` and `UNPACK` unless the table is
empty. -/
def Obligations.DecodeEqualsItsParts : Prop :=
  ∀ s u : State, Accepts s → exec .hdes s = .next u → u.err = false →
    (u.k = 0 → exec .decode s = .next u) ∧
    (u.k ≠ 0 → ∀ t, execAll [.build, .unpack] u = .next t → t.err = false → exec .decode s = .next t)

/-- R213, R96: `ENCODE` of a non-empty source of at most `2^32 - 1` bytes completes: `STATUS` has both flags, `FT` counts
the source, `NODE` and `CODE` describe it, `SRCPOS` is at its end, and the sink has gained the header and the packed
Codes of the source bytes. -/
def Obligations.EncodeWritesTheFile : Prop :=
  ∀ s : State, Accepts s → ReservedZero s → s.src ≠ [] → s.src.length ≤ Config.maxCount → NeverFails s →
    ∃ t tr, exec .encode s = .next t ∧ t.status = statusWord true true ∧ t.errcode = s.errcode ∧
      (∀ b, (t.ftAt b).toNat = s.src.count b) ∧ TreeOf t tr ∧ CodesOf t tr ∧
      t.srcPos = s.src.length ∧ t.acc = 0 ∧ t.nbits = 0 ∧ SameReader s t ∧ SameSurroundings s t ∧
      t.snk = s.snk ++ headerBytes t.ft ++ packedBytes (s.src.flatMap fun b => (t.codeAt b).path)

/-- R215, R163, R196: `DECODE` of the header of a table, followed by bits that begin with the Codes of `TOTAL` symbols of the
tree `BUILD` makes of that table under the same parameter, emits those symbols, and leaves the table and its tree. -/
def Obligations.DecodeReadsTheFile : Prop :=
  ∀ (s t w : State) (tr : Tree) (coded : List (Byte × List Bool)) (bytes : List Byte) (more : List Bool),
    Accepts s → exec .build s = .next t → t.err = false → TreeOf t tr → 2 ≤ s.k →
    Accepts w → NeverFails w → w.eqInternal = s.eqInternal → w.unread = headerBytes s.ft ++ bytes →
    (∀ e ∈ coded, e ∈ tr.codes) → coded.length = s.totalFT → bitsOf bytes = coded.flatMap Prod.snd ++ more →
    ∃ x, exec .decode w = .next x ∧ x.snk = w.snk ++ coded.map Prod.fst ∧
      x.srcPos = w.srcPos + (1 + 5 * s.k) + ((coded.flatMap Prod.snd).length + 7) / 8 ∧
      x.ft = s.ft ∧ TreeOf x tr ∧ x.treev = true ∧ x.codev = false ∧ x.busy = false ∧ x.err = false ∧
      x.cur = x.root ∧ x.outcnt = x.total ∧ x.code = w.code ∧ SameWriter w x ∧ x.errcode = w.errcode ∧
      SameSurroundings w x

/-- R214, R219: `ENCODE` of an empty source completes and writes nothing, `FT` empty and both flags 0; `DECODE` does so for
an empty source, and for a header all of whose counts are 0. -/
def Obligations.EmptyInputCompletes : Prop :=
  ∀ s : State, Accepts s →
    (s.src = [] → AnswersOk s 2 →
      ∃ t, exec .encode s = .next t ∧ t.err = false ∧ t.treev = false ∧ t.codev = false ∧ t.k = 0 ∧ t.snk = s.snk) ∧
    (s.unread = [] → AnswersOk s 1 →
      ∃ t, exec .decode s = .next t ∧ t.err = false ∧ t.treev = false ∧ t.codev = false ∧ t.k = 0 ∧ t.snk = s.snk) ∧
    ∀ (b : Byte) (rest : List Byte), s.unread = b :: rest → 5 * (b.toNat + 1) ≤ rest.length →
      AnswersOk s (1 + 5 * (b.toNat + 1)) → (∀ e ∈ recordsIn (rest.take (5 * (b.toNat + 1))), e.2 = 0) →
      ∃ t, exec .decode s = .next t ∧ t.err = false ∧ t.treev = false ∧ t.codev = false ∧ t.k = 0 ∧ t.snk = s.snk ∧
        t.srcPos = s.srcPos + (1 + 5 * (b.toNat + 1))

/-- R216: a file that `ENCODE` completes on into an empty sink, of a source of at most `2^32 - 1` bytes, `DECODE` turns back
into the source on a machine with the same `EQ_INTERNAL`; the file of the empty source is empty. With different values
of the parameter that fails for some sources. -/
def Obligations.EncodeThenDecodeIsIdentity : Prop :=
  (∀ s t s' : State, Accepts s → s.snk = [] → s.src.length ≤ Config.maxCount → exec .encode s = .next t → t.err = false →
    (s.src = [] → t.snk = []) ∧
    (Accepts s' → s'.src = t.snk → s'.srcPos = 0 → s'.snk = [] → s'.eqInternal = s.eqInternal →
      AnswersOk s' (t.snk.length + s.src.length + 1) →
      ∃ t', exec .decode s' = .next t' ∧ t'.err = false ∧ t'.snk = s.src)) ∧
  ∃ s t s' t' : State, Accepts s ∧ s.snk = [] ∧ exec .encode s = .next t ∧ t.err = false ∧
    Accepts s' ∧ s'.src = t.snk ∧ s'.srcPos = 0 ∧ s'.snk = [] ∧ s'.eqInternal ≠ s.eqInternal ∧
    exec .decode s' = .next t' ∧ t'.err = false ∧ t'.snk ≠ s.src

/-- R218: `n` repetitions of one byte encode to six bytes, `00`, the byte, and `n` most significant byte first, and
decode back, reading exactly those six. -/
def Obligations.RepeatedByteRoundTrip : Prop :=
  ∀ (s s' : State) (b : Byte) (n : Nat) (more : List Byte), Accepts s → Accepts s' → 1 ≤ n → n ≤ Config.maxCount →
    s.src = List.replicate n b → NeverFails s → NeverFails s' → s'.srcPos = 0 →
    s'.src = 0x00 :: b :: BitVec.ofNat 8 (n / 2 ^ 24) :: BitVec.ofNat 8 (n / 2 ^ 16) :: BitVec.ofNat 8 (n / 2 ^ 8) ::
      BitVec.ofNat 8 n :: more →
    (∃ t, exec .encode s = .next t ∧ t.err = false ∧
      t.snk = s.snk ++ [0x00, b, BitVec.ofNat 8 (n / 2 ^ 24), BitVec.ofNat 8 (n / 2 ^ 16), BitVec.ofNat 8 (n / 2 ^ 8),
        BitVec.ofNat 8 n]) ∧
    ∃ t', exec .decode s' = .next t' ∧ t'.err = false ∧ t'.snk = s'.snk ++ List.replicate n b ∧ t'.srcPos = 6

/-- R242: in the fault state every command word but `RESET`, defined or not, is refused: no state changes. No other step
clears the fault flag. (Taking the host's next move is the model's own, log entry 4.) -/
def Obligations.FaultStateRefusesCommands : Prop :=
  ∀ s : State, s.err = true →
    (∀ i : Instr, i ≠ .reset → exec i s = .next s) ∧
    (∀ (w : Byte) (rest : List HostMove), w ≠ 0x0F → s.script = .issue w :: rest →
      step s = .next { s with script := rest }) ∧
    ∀ t : State, step s = .next t → t.err = false → ∃ rest, s.script = .issue 0x0F :: rest

/-- R242, R243: no step but a `RESET` leaves the fault state or changes `ERRCODE` in it. -/
def Obligations.OnlyResetLeavesTheFaultState : Prop :=
  ∀ s t : State, s.err = true → step s = .next t →
    (t.status = s.status ∧ t.errcode = s.errcode) ∨ ∃ rest, s.script = .issue 0x0F :: rest

/-- R240, R241, R231: whatever command faults, `STATUS` is `0x02`, `ERRCODE` is a code of R231, and the sink holds what
it held with something appended. -/
def Obligations.EveryFaultEntry : Prop :=
  ∀ (i : Instr) (s t : State), Accepts s → exec i s = .next t → t.err = true →
    t.status = 0x02 ∧ 1 ≤ t.errcode.toNat ∧ t.errcode.toNat ≤ 8 ∧ ∃ p, t.snk = s.snk ++ p

/-- R21, R23, R25 to R27, R30 to R34, R36, R38, R39: what a command that completes leaves unchanged: each register but
under the commands the spec lists as its writers. -/
def Obligations.CompletedCommandFrames : Prop :=
  ∀ (i : Instr) (s t : State), Accepts s → exec i s = .next t → t.err = false →
    (i ∉ [Instr.fclr, .fcnt, .hdes, .encode, .decode, .reset] → t.ft = s.ft) ∧
    (i ∉ [Instr.build, .encode, .decode, .reset] → SameTree s t) ∧
    (i ∉ [Instr.genc, .encode, .reset] → t.code = s.code) ∧
    (i ∉ [Instr.pack, .encode, .reset] → SameWriter s t) ∧
    (i ∉ [Instr.unpack, .decode, .reset] → SameReader s t) ∧
    (i ∉ [Instr.fcnt, .hdes, .pack, .unpack, .rewind, .encode, .decode] → t.srcPos = s.srcPos) ∧
    (i ∉ [Instr.hser, .pack, .unpack, .encode, .decode] → t.snk = s.snk) ∧
    (i ≠ .reset → t.errcode = s.errcode)

/-- R38, R39, R60: no command changes `SRC`, `EQ_INTERNAL` or the host's moves, and the sink is only appended to, whether
the command completes, faults or is refused. -/
def Obligations.SurroundingsAreKept : Prop :=
  ∀ (i : Instr) (s t : State), exec i s = .next t → SameSurroundings s t ∧ s.snk <+: t.snk

/-- R77, R278: a command other than the composites that completes with `FT` changed leaves both flags 0, and `BUILD` leaves
`CODEV` 0. -/
def Obligations.TableWritesDropTheFlags : Prop :=
  ∀ (i : Instr) (s t : State), Accepts s → exec i s = .next t →
    (i ≠ .encode → i ≠ .decode → t.err = false → t.ft ≠ s.ft → t.treev = false ∧ t.codev = false) ∧
    (i = .build → t.codev = false)

/-- R152, R193: with the machine's own tree `ERR_WALK` is unreachable: no command raises it. -/
def Obligations.WalkFaultIsUnreachable : Prop :=
  ∀ (i : Instr) (s t : State), TreeInv s → Accepts s → exec i s = .next t → t.err = true → t.errcode ≠ 4

/-- R273: from a state that meets the invariant every command ends, unless the environment never answers: the model's
own loop bounds (log entry 13) are never used up. -/
def Obligations.EveryCommandEnds : Prop :=
  ∀ (i : Instr) (s : State), TreeInv s → IoAnswer.never ∉ s.answers → ∃ t, exec i s = .next t

/-- R232, R64: a command whose first access the environment fails faults with `ERR_IO_RD` or `ERR_IO_WR`. U9, R273: one
whose first access is never answered has no next state: it is stuck, with `STATUS.BUSY = 1`; the model's name for that is
the fault `noIoAnswer` (log entry 11). -/
def Obligations.FirstAccessFailedOrUnanswered : Prop :=
  ∀ s : State, Accepts s →
    (s.answer = .fail →
      (∀ i ∈ [Instr.rewind, .fcnt, .hdes, .encode, .decode], ∃ t, exec i s = .next t ∧ FaultsWith s t .ioRd []) ∧
      (1 ≤ s.k → ∃ t, exec .hser s = .next t ∧ FaultsWith s t .ioWr []) ∧
      (s.codev = true → ∃ t, exec .pack s = .next t ∧ FaultsWith s t .ioRd []) ∧
      (s.treev = true → s.total ≠ 0 → ∀ nd, s.nodeAt s.root = some nd → ∃ t, exec .unpack s = .next t ∧
        FaultsWith s t (if nd.kind = .leaf then .ioWr else .ioRd) [])) ∧
    (s.answer = .never →
      (∀ i ∈ [Instr.rewind, .fcnt, .hdes, .encode, .decode], exec i s = .fault .noIoAnswer) ∧
      (1 ≤ s.k → exec .hser s = .fault .noIoAnswer) ∧ (s.codev = true → exec .pack s = .fault .noIoAnswer) ∧
      (s.treev = true → s.total ≠ 0 → s.nodeAt s.root ≠ none → exec .unpack s = .fault .noIoAnswer))

/-! ### Invariants -/

/-- The register invariants hold after every step. -/
def Obligations.StepKeepsTheRegisters : Prop :=
  ∀ s t : State, RegistersOk s → step s = .next t → RegistersOk t

/-- Whenever `TREEV = 1`, the node store holds the tree of the present table: every step keeps that. -/
def Obligations.StepKeepsTheTree : Prop :=
  ∀ s t : State, TreeInv s → step s = .next t → TreeInv t

/-- The whole invariant, the code table's part among it: every step keeps it. -/
def Obligations.StepKeepsTheInvariant : Prop :=
  ∀ s t : State, Inv s → step s = .next t → Inv t

/-- The invariant holds at reset. (`SRC` and `SRCPOS` there are the model's choice, log entry 5.) -/
def Obligations.InvariantHoldsAtReset : Prop := Inv State.reset
end

