-- ==== Sys2Proof/Laws/State.lean ====
section
/-! SUPPORT. One lemma per field per update of the state, true by `rfl`: no later proof unfolds a record update. -/

namespace Sys2Proof.Machine

variable (s : State)

/-! ### `setBusy` -/

@[simp] theorem setBusy_ft (b : Bool) : (s.setBusy b).ft = s.ft := rfl
@[simp] theorem setBusy_node (b : Bool) : (s.setBusy b).node = s.node := rfl
@[simp] theorem setBusy_nnode (b : Bool) : (s.setBusy b).nnode = s.nnode := rfl
@[simp] theorem setBusy_root (b : Bool) : (s.setBusy b).root = s.root := rfl
@[simp] theorem setBusy_total (b : Bool) : (s.setBusy b).total = s.total := rfl
@[simp] theorem setBusy_code (b : Bool) : (s.setBusy b).code = s.code := rfl
@[simp] theorem setBusy_acc (b : Bool) : (s.setBusy b).acc = s.acc := rfl
@[simp] theorem setBusy_nbits (b : Bool) : (s.setBusy b).nbits = s.nbits := rfl
@[simp] theorem setBusy_cur (b : Bool) : (s.setBusy b).cur = s.cur := rfl
@[simp] theorem setBusy_outcnt (b : Bool) : (s.setBusy b).outcnt = s.outcnt := rfl
@[simp] theorem setBusy_status (b : Bool) : (s.setBusy b).status = setBit s.status 0 b := rfl
@[simp] theorem setBusy_errcode (b : Bool) : (s.setBusy b).errcode = s.errcode := rfl
@[simp] theorem setBusy_src (b : Bool) : (s.setBusy b).src = s.src := rfl
@[simp] theorem setBusy_srcPos (b : Bool) : (s.setBusy b).srcPos = s.srcPos := rfl
@[simp] theorem setBusy_snk (b : Bool) : (s.setBusy b).snk = s.snk := rfl
@[simp] theorem setBusy_eqInternal (b : Bool) : (s.setBusy b).eqInternal = s.eqInternal := rfl
@[simp] theorem setBusy_answers (b : Bool) : (s.setBusy b).answers = s.answers := rfl
@[simp] theorem setBusy_faultKeep (b : Bool) : (s.setBusy b).faultKeep = s.faultKeep := rfl
@[simp] theorem setBusy_script (b : Bool) : (s.setBusy b).script = s.script := rfl

/-! ### `setTreev` -/

@[simp] theorem setTreev_ft (b : Bool) : (s.setTreev b).ft = s.ft := rfl
@[simp] theorem setTreev_node (b : Bool) : (s.setTreev b).node = s.node := rfl
@[simp] theorem setTreev_nnode (b : Bool) : (s.setTreev b).nnode = s.nnode := rfl
@[simp] theorem setTreev_root (b : Bool) : (s.setTreev b).root = s.root := rfl
@[simp] theorem setTreev_total (b : Bool) : (s.setTreev b).total = s.total := rfl
@[simp] theorem setTreev_code (b : Bool) : (s.setTreev b).code = s.code := rfl
@[simp] theorem setTreev_acc (b : Bool) : (s.setTreev b).acc = s.acc := rfl
@[simp] theorem setTreev_nbits (b : Bool) : (s.setTreev b).nbits = s.nbits := rfl
@[simp] theorem setTreev_cur (b : Bool) : (s.setTreev b).cur = s.cur := rfl
@[simp] theorem setTreev_outcnt (b : Bool) : (s.setTreev b).outcnt = s.outcnt := rfl
@[simp] theorem setTreev_status (b : Bool) : (s.setTreev b).status = setBit s.status 2 b := rfl
@[simp] theorem setTreev_errcode (b : Bool) : (s.setTreev b).errcode = s.errcode := rfl
@[simp] theorem setTreev_src (b : Bool) : (s.setTreev b).src = s.src := rfl
@[simp] theorem setTreev_srcPos (b : Bool) : (s.setTreev b).srcPos = s.srcPos := rfl
@[simp] theorem setTreev_snk (b : Bool) : (s.setTreev b).snk = s.snk := rfl
@[simp] theorem setTreev_eqInternal (b : Bool) : (s.setTreev b).eqInternal = s.eqInternal := rfl
@[simp] theorem setTreev_answers (b : Bool) : (s.setTreev b).answers = s.answers := rfl
@[simp] theorem setTreev_faultKeep (b : Bool) : (s.setTreev b).faultKeep = s.faultKeep := rfl
@[simp] theorem setTreev_script (b : Bool) : (s.setTreev b).script = s.script := rfl

/-! ### `setCodev` -/

@[simp] theorem setCodev_ft (b : Bool) : (s.setCodev b).ft = s.ft := rfl
@[simp] theorem setCodev_node (b : Bool) : (s.setCodev b).node = s.node := rfl
@[simp] theorem setCodev_nnode (b : Bool) : (s.setCodev b).nnode = s.nnode := rfl
@[simp] theorem setCodev_root (b : Bool) : (s.setCodev b).root = s.root := rfl
@[simp] theorem setCodev_total (b : Bool) : (s.setCodev b).total = s.total := rfl
@[simp] theorem setCodev_code (b : Bool) : (s.setCodev b).code = s.code := rfl
@[simp] theorem setCodev_acc (b : Bool) : (s.setCodev b).acc = s.acc := rfl
@[simp] theorem setCodev_nbits (b : Bool) : (s.setCodev b).nbits = s.nbits := rfl
@[simp] theorem setCodev_cur (b : Bool) : (s.setCodev b).cur = s.cur := rfl
@[simp] theorem setCodev_outcnt (b : Bool) : (s.setCodev b).outcnt = s.outcnt := rfl
@[simp] theorem setCodev_status (b : Bool) : (s.setCodev b).status = setBit s.status 3 b := rfl
@[simp] theorem setCodev_errcode (b : Bool) : (s.setCodev b).errcode = s.errcode := rfl
@[simp] theorem setCodev_src (b : Bool) : (s.setCodev b).src = s.src := rfl
@[simp] theorem setCodev_srcPos (b : Bool) : (s.setCodev b).srcPos = s.srcPos := rfl
@[simp] theorem setCodev_snk (b : Bool) : (s.setCodev b).snk = s.snk := rfl
@[simp] theorem setCodev_eqInternal (b : Bool) : (s.setCodev b).eqInternal = s.eqInternal := rfl
@[simp] theorem setCodev_answers (b : Bool) : (s.setCodev b).answers = s.answers := rfl
@[simp] theorem setCodev_faultKeep (b : Bool) : (s.setCodev b).faultKeep = s.faultKeep := rfl
@[simp] theorem setCodev_script (b : Bool) : (s.setCodev b).script = s.script := rfl

/-! ### `dropDerived` -/

@[simp] theorem dropDerived_ft : (s.dropDerived).ft = s.ft := rfl
@[simp] theorem dropDerived_node : (s.dropDerived).node = s.node := rfl
@[simp] theorem dropDerived_nnode : (s.dropDerived).nnode = s.nnode := rfl
@[simp] theorem dropDerived_root : (s.dropDerived).root = s.root := rfl
@[simp] theorem dropDerived_total : (s.dropDerived).total = s.total := rfl
@[simp] theorem dropDerived_code : (s.dropDerived).code = s.code := rfl
@[simp] theorem dropDerived_acc : (s.dropDerived).acc = s.acc := rfl
@[simp] theorem dropDerived_nbits : (s.dropDerived).nbits = s.nbits := rfl
@[simp] theorem dropDerived_cur : (s.dropDerived).cur = s.cur := rfl
@[simp] theorem dropDerived_outcnt : (s.dropDerived).outcnt = s.outcnt := rfl
@[simp] theorem dropDerived_status : (s.dropDerived).status = setBit (setBit s.status 2 false) 3 false := rfl
@[simp] theorem dropDerived_errcode : (s.dropDerived).errcode = s.errcode := rfl
@[simp] theorem dropDerived_src : (s.dropDerived).src = s.src := rfl
@[simp] theorem dropDerived_srcPos : (s.dropDerived).srcPos = s.srcPos := rfl
@[simp] theorem dropDerived_snk : (s.dropDerived).snk = s.snk := rfl
@[simp] theorem dropDerived_eqInternal : (s.dropDerived).eqInternal = s.eqInternal := rfl
@[simp] theorem dropDerived_answers : (s.dropDerived).answers = s.answers := rfl
@[simp] theorem dropDerived_faultKeep : (s.dropDerived).faultKeep = s.faultKeep := rfl
@[simp] theorem dropDerived_script : (s.dropDerived).script = s.script := rfl

/-! ### `setFt` -/

@[simp] theorem setFt_ft (b : Byte) (c : Count) : (s.setFt b c).ft = s.ft.set b.toNat c b.isLt := rfl
@[simp] theorem setFt_node (b : Byte) (c : Count) : (s.setFt b c).node = s.node := rfl
@[simp] theorem setFt_nnode (b : Byte) (c : Count) : (s.setFt b c).nnode = s.nnode := rfl
@[simp] theorem setFt_root (b : Byte) (c : Count) : (s.setFt b c).root = s.root := rfl
@[simp] theorem setFt_total (b : Byte) (c : Count) : (s.setFt b c).total = s.total := rfl
@[simp] theorem setFt_code (b : Byte) (c : Count) : (s.setFt b c).code = s.code := rfl
@[simp] theorem setFt_acc (b : Byte) (c : Count) : (s.setFt b c).acc = s.acc := rfl
@[simp] theorem setFt_nbits (b : Byte) (c : Count) : (s.setFt b c).nbits = s.nbits := rfl
@[simp] theorem setFt_cur (b : Byte) (c : Count) : (s.setFt b c).cur = s.cur := rfl
@[simp] theorem setFt_outcnt (b : Byte) (c : Count) : (s.setFt b c).outcnt = s.outcnt := rfl
@[simp] theorem setFt_status (b : Byte) (c : Count) : (s.setFt b c).status = s.status := rfl
@[simp] theorem setFt_errcode (b : Byte) (c : Count) : (s.setFt b c).errcode = s.errcode := rfl
@[simp] theorem setFt_src (b : Byte) (c : Count) : (s.setFt b c).src = s.src := rfl
@[simp] theorem setFt_srcPos (b : Byte) (c : Count) : (s.setFt b c).srcPos = s.srcPos := rfl
@[simp] theorem setFt_snk (b : Byte) (c : Count) : (s.setFt b c).snk = s.snk := rfl
@[simp] theorem setFt_eqInternal (b : Byte) (c : Count) : (s.setFt b c).eqInternal = s.eqInternal := rfl
@[simp] theorem setFt_answers (b : Byte) (c : Count) : (s.setFt b c).answers = s.answers := rfl
@[simp] theorem setFt_faultKeep (b : Byte) (c : Count) : (s.setFt b c).faultKeep = s.faultKeep := rfl
@[simp] theorem setFt_script (b : Byte) (c : Count) : (s.setFt b c).script = s.script := rfl

@[simp] theorem setFt_busy (b : Byte) (c : Count) : (s.setFt b c).busy = s.busy := rfl
@[simp] theorem setFt_err (b : Byte) (c : Count) : (s.setFt b c).err = s.err := rfl
@[simp] theorem setFt_treev (b : Byte) (c : Count) : (s.setFt b c).treev = s.treev := rfl
@[simp] theorem setFt_codev (b : Byte) (c : Count) : (s.setFt b c).codev = s.codev := rfl

/-! ### `clearFt` -/

@[simp] theorem clearFt_ft : (s.clearFt).ft = Vector.replicate 256 0 := rfl
@[simp] theorem clearFt_node : (s.clearFt).node = s.node := rfl
@[simp] theorem clearFt_nnode : (s.clearFt).nnode = s.nnode := rfl
@[simp] theorem clearFt_root : (s.clearFt).root = s.root := rfl
@[simp] theorem clearFt_total : (s.clearFt).total = s.total := rfl
@[simp] theorem clearFt_code : (s.clearFt).code = s.code := rfl
@[simp] theorem clearFt_acc : (s.clearFt).acc = s.acc := rfl
@[simp] theorem clearFt_nbits : (s.clearFt).nbits = s.nbits := rfl
@[simp] theorem clearFt_cur : (s.clearFt).cur = s.cur := rfl
@[simp] theorem clearFt_outcnt : (s.clearFt).outcnt = s.outcnt := rfl
@[simp] theorem clearFt_status : (s.clearFt).status = s.status := rfl
@[simp] theorem clearFt_errcode : (s.clearFt).errcode = s.errcode := rfl
@[simp] theorem clearFt_src : (s.clearFt).src = s.src := rfl
@[simp] theorem clearFt_srcPos : (s.clearFt).srcPos = s.srcPos := rfl
@[simp] theorem clearFt_snk : (s.clearFt).snk = s.snk := rfl
@[simp] theorem clearFt_eqInternal : (s.clearFt).eqInternal = s.eqInternal := rfl
@[simp] theorem clearFt_answers : (s.clearFt).answers = s.answers := rfl
@[simp] theorem clearFt_faultKeep : (s.clearFt).faultKeep = s.faultKeep := rfl
@[simp] theorem clearFt_script : (s.clearFt).script = s.script := rfl

@[simp] theorem clearFt_busy : (s.clearFt).busy = s.busy := rfl
@[simp] theorem clearFt_err : (s.clearFt).err = s.err := rfl
@[simp] theorem clearFt_treev : (s.clearFt).treev = s.treev := rfl
@[simp] theorem clearFt_codev : (s.clearFt).codev = s.codev := rfl

/-! ### `setNode` -/

@[simp] theorem setNode_ft (i : NodeRef) (nd : Node) : (s.setNode i nd).ft = s.ft := rfl
@[simp] theorem setNode_node (i : NodeRef) (nd : Node) : (s.setNode i nd).node = s.node.setIfInBounds i.toNat nd := rfl
@[simp] theorem setNode_nnode (i : NodeRef) (nd : Node) : (s.setNode i nd).nnode = s.nnode := rfl
@[simp] theorem setNode_root (i : NodeRef) (nd : Node) : (s.setNode i nd).root = s.root := rfl
@[simp] theorem setNode_total (i : NodeRef) (nd : Node) : (s.setNode i nd).total = s.total := rfl
@[simp] theorem setNode_code (i : NodeRef) (nd : Node) : (s.setNode i nd).code = s.code := rfl
@[simp] theorem setNode_acc (i : NodeRef) (nd : Node) : (s.setNode i nd).acc = s.acc := rfl
@[simp] theorem setNode_nbits (i : NodeRef) (nd : Node) : (s.setNode i nd).nbits = s.nbits := rfl
@[simp] theorem setNode_cur (i : NodeRef) (nd : Node) : (s.setNode i nd).cur = s.cur := rfl
@[simp] theorem setNode_outcnt (i : NodeRef) (nd : Node) : (s.setNode i nd).outcnt = s.outcnt := rfl
@[simp] theorem setNode_status (i : NodeRef) (nd : Node) : (s.setNode i nd).status = s.status := rfl
@[simp] theorem setNode_errcode (i : NodeRef) (nd : Node) : (s.setNode i nd).errcode = s.errcode := rfl
@[simp] theorem setNode_src (i : NodeRef) (nd : Node) : (s.setNode i nd).src = s.src := rfl
@[simp] theorem setNode_srcPos (i : NodeRef) (nd : Node) : (s.setNode i nd).srcPos = s.srcPos := rfl
@[simp] theorem setNode_snk (i : NodeRef) (nd : Node) : (s.setNode i nd).snk = s.snk := rfl
@[simp] theorem setNode_eqInternal (i : NodeRef) (nd : Node) : (s.setNode i nd).eqInternal = s.eqInternal := rfl
@[simp] theorem setNode_answers (i : NodeRef) (nd : Node) : (s.setNode i nd).answers = s.answers := rfl
@[simp] theorem setNode_faultKeep (i : NodeRef) (nd : Node) : (s.setNode i nd).faultKeep = s.faultKeep := rfl
@[simp] theorem setNode_script (i : NodeRef) (nd : Node) : (s.setNode i nd).script = s.script := rfl

@[simp] theorem setNode_busy (i : NodeRef) (nd : Node) : (s.setNode i nd).busy = s.busy := rfl
@[simp] theorem setNode_err (i : NodeRef) (nd : Node) : (s.setNode i nd).err = s.err := rfl
@[simp] theorem setNode_treev (i : NodeRef) (nd : Node) : (s.setNode i nd).treev = s.treev := rfl
@[simp] theorem setNode_codev (i : NodeRef) (nd : Node) : (s.setNode i nd).codev = s.codev := rfl

/-! ### `allocNode` -/

@[simp] theorem allocNode_ft (nd : Node) : (s.allocNode nd).ft = s.ft := rfl
@[simp] theorem allocNode_node (nd : Node) : (s.allocNode nd).node = s.node.setIfInBounds (s.nnode.setWidth 9).toNat nd := rfl
@[simp] theorem allocNode_nnode (nd : Node) : (s.allocNode nd).nnode = s.nnode + 1 := rfl
@[simp] theorem allocNode_root (nd : Node) : (s.allocNode nd).root = s.root := rfl
@[simp] theorem allocNode_total (nd : Node) : (s.allocNode nd).total = s.total := rfl
@[simp] theorem allocNode_code (nd : Node) : (s.allocNode nd).code = s.code := rfl
@[simp] theorem allocNode_acc (nd : Node) : (s.allocNode nd).acc = s.acc := rfl
@[simp] theorem allocNode_nbits (nd : Node) : (s.allocNode nd).nbits = s.nbits := rfl
@[simp] theorem allocNode_cur (nd : Node) : (s.allocNode nd).cur = s.cur := rfl
@[simp] theorem allocNode_outcnt (nd : Node) : (s.allocNode nd).outcnt = s.outcnt := rfl
@[simp] theorem allocNode_status (nd : Node) : (s.allocNode nd).status = s.status := rfl
@[simp] theorem allocNode_errcode (nd : Node) : (s.allocNode nd).errcode = s.errcode := rfl
@[simp] theorem allocNode_src (nd : Node) : (s.allocNode nd).src = s.src := rfl
@[simp] theorem allocNode_srcPos (nd : Node) : (s.allocNode nd).srcPos = s.srcPos := rfl
@[simp] theorem allocNode_snk (nd : Node) : (s.allocNode nd).snk = s.snk := rfl
@[simp] theorem allocNode_eqInternal (nd : Node) : (s.allocNode nd).eqInternal = s.eqInternal := rfl
@[simp] theorem allocNode_answers (nd : Node) : (s.allocNode nd).answers = s.answers := rfl
@[simp] theorem allocNode_faultKeep (nd : Node) : (s.allocNode nd).faultKeep = s.faultKeep := rfl
@[simp] theorem allocNode_script (nd : Node) : (s.allocNode nd).script = s.script := rfl

@[simp] theorem allocNode_busy (nd : Node) : (s.allocNode nd).busy = s.busy := rfl
@[simp] theorem allocNode_err (nd : Node) : (s.allocNode nd).err = s.err := rfl
@[simp] theorem allocNode_treev (nd : Node) : (s.allocNode nd).treev = s.treev := rfl
@[simp] theorem allocNode_codev (nd : Node) : (s.allocNode nd).codev = s.codev := rfl

/-! ### `setCode` -/

@[simp] theorem setCode_ft (b : Byte) (c : Code) : (s.setCode b c).ft = s.ft := rfl
@[simp] theorem setCode_node (b : Byte) (c : Code) : (s.setCode b c).node = s.node := rfl
@[simp] theorem setCode_nnode (b : Byte) (c : Code) : (s.setCode b c).nnode = s.nnode := rfl
@[simp] theorem setCode_root (b : Byte) (c : Code) : (s.setCode b c).root = s.root := rfl
@[simp] theorem setCode_total (b : Byte) (c : Code) : (s.setCode b c).total = s.total := rfl
@[simp] theorem setCode_code (b : Byte) (c : Code) : (s.setCode b c).code = s.code.set b.toNat c b.isLt := rfl
@[simp] theorem setCode_acc (b : Byte) (c : Code) : (s.setCode b c).acc = s.acc := rfl
@[simp] theorem setCode_nbits (b : Byte) (c : Code) : (s.setCode b c).nbits = s.nbits := rfl
@[simp] theorem setCode_cur (b : Byte) (c : Code) : (s.setCode b c).cur = s.cur := rfl
@[simp] theorem setCode_outcnt (b : Byte) (c : Code) : (s.setCode b c).outcnt = s.outcnt := rfl
@[simp] theorem setCode_status (b : Byte) (c : Code) : (s.setCode b c).status = s.status := rfl
@[simp] theorem setCode_errcode (b : Byte) (c : Code) : (s.setCode b c).errcode = s.errcode := rfl
@[simp] theorem setCode_src (b : Byte) (c : Code) : (s.setCode b c).src = s.src := rfl
@[simp] theorem setCode_srcPos (b : Byte) (c : Code) : (s.setCode b c).srcPos = s.srcPos := rfl
@[simp] theorem setCode_snk (b : Byte) (c : Code) : (s.setCode b c).snk = s.snk := rfl
@[simp] theorem setCode_eqInternal (b : Byte) (c : Code) : (s.setCode b c).eqInternal = s.eqInternal := rfl
@[simp] theorem setCode_answers (b : Byte) (c : Code) : (s.setCode b c).answers = s.answers := rfl
@[simp] theorem setCode_faultKeep (b : Byte) (c : Code) : (s.setCode b c).faultKeep = s.faultKeep := rfl
@[simp] theorem setCode_script (b : Byte) (c : Code) : (s.setCode b c).script = s.script := rfl

@[simp] theorem setCode_busy (b : Byte) (c : Code) : (s.setCode b c).busy = s.busy := rfl
@[simp] theorem setCode_err (b : Byte) (c : Code) : (s.setCode b c).err = s.err := rfl
@[simp] theorem setCode_treev (b : Byte) (c : Code) : (s.setCode b c).treev = s.treev := rfl
@[simp] theorem setCode_codev (b : Byte) (c : Code) : (s.setCode b c).codev = s.codev := rfl

/-! ### `invalidateCodes` -/

@[simp] theorem invalidateCodes_ft : (s.invalidateCodes).ft = s.ft := rfl
@[simp] theorem invalidateCodes_node : (s.invalidateCodes).node = s.node := rfl
@[simp] theorem invalidateCodes_nnode : (s.invalidateCodes).nnode = s.nnode := rfl
@[simp] theorem invalidateCodes_root : (s.invalidateCodes).root = s.root := rfl
@[simp] theorem invalidateCodes_total : (s.invalidateCodes).total = s.total := rfl
@[simp] theorem invalidateCodes_code : (s.invalidateCodes).code = invalidated s.code := rfl
@[simp] theorem invalidateCodes_acc : (s.invalidateCodes).acc = s.acc := rfl
@[simp] theorem invalidateCodes_nbits : (s.invalidateCodes).nbits = s.nbits := rfl
@[simp] theorem invalidateCodes_cur : (s.invalidateCodes).cur = s.cur := rfl
@[simp] theorem invalidateCodes_outcnt : (s.invalidateCodes).outcnt = s.outcnt := rfl
@[simp] theorem invalidateCodes_status : (s.invalidateCodes).status = s.status := rfl
@[simp] theorem invalidateCodes_errcode : (s.invalidateCodes).errcode = s.errcode := rfl
@[simp] theorem invalidateCodes_src : (s.invalidateCodes).src = s.src := rfl
@[simp] theorem invalidateCodes_srcPos : (s.invalidateCodes).srcPos = s.srcPos := rfl
@[simp] theorem invalidateCodes_snk : (s.invalidateCodes).snk = s.snk := rfl
@[simp] theorem invalidateCodes_eqInternal : (s.invalidateCodes).eqInternal = s.eqInternal := rfl
@[simp] theorem invalidateCodes_answers : (s.invalidateCodes).answers = s.answers := rfl
@[simp] theorem invalidateCodes_faultKeep : (s.invalidateCodes).faultKeep = s.faultKeep := rfl
@[simp] theorem invalidateCodes_script : (s.invalidateCodes).script = s.script := rfl

@[simp] theorem invalidateCodes_busy : (s.invalidateCodes).busy = s.busy := rfl
@[simp] theorem invalidateCodes_err : (s.invalidateCodes).err = s.err := rfl
@[simp] theorem invalidateCodes_treev : (s.invalidateCodes).treev = s.treev := rfl
@[simp] theorem invalidateCodes_codev : (s.invalidateCodes).codev = s.codev := rfl

/-! ### `drawn` -/

@[simp] theorem drawn_ft : (s.drawn).ft = s.ft := rfl
@[simp] theorem drawn_node : (s.drawn).node = s.node := rfl
@[simp] theorem drawn_nnode : (s.drawn).nnode = s.nnode := rfl
@[simp] theorem drawn_root : (s.drawn).root = s.root := rfl
@[simp] theorem drawn_total : (s.drawn).total = s.total := rfl
@[simp] theorem drawn_code : (s.drawn).code = s.code := rfl
@[simp] theorem drawn_acc : (s.drawn).acc = s.acc := rfl
@[simp] theorem drawn_nbits : (s.drawn).nbits = s.nbits := rfl
@[simp] theorem drawn_cur : (s.drawn).cur = s.cur := rfl
@[simp] theorem drawn_outcnt : (s.drawn).outcnt = s.outcnt := rfl
@[simp] theorem drawn_status : (s.drawn).status = s.status := rfl
@[simp] theorem drawn_errcode : (s.drawn).errcode = s.errcode := rfl
@[simp] theorem drawn_src : (s.drawn).src = s.src := rfl
@[simp] theorem drawn_srcPos : (s.drawn).srcPos = s.srcPos := rfl
@[simp] theorem drawn_snk : (s.drawn).snk = s.snk := rfl
@[simp] theorem drawn_eqInternal : (s.drawn).eqInternal = s.eqInternal := rfl
@[simp] theorem drawn_answers : (s.drawn).answers = s.answers.tail := rfl
@[simp] theorem drawn_faultKeep : (s.drawn).faultKeep = s.faultKeep := rfl
@[simp] theorem drawn_script : (s.drawn).script = s.script := rfl

@[simp] theorem drawn_busy : (s.drawn).busy = s.busy := rfl
@[simp] theorem drawn_err : (s.drawn).err = s.err := rfl
@[simp] theorem drawn_treev : (s.drawn).treev = s.treev := rfl
@[simp] theorem drawn_codev : (s.drawn).codev = s.codev := rfl

/-! ### `advance` -/

@[simp] theorem advance_ft : (s.advance).ft = s.ft := rfl
@[simp] theorem advance_node : (s.advance).node = s.node := rfl
@[simp] theorem advance_nnode : (s.advance).nnode = s.nnode := rfl
@[simp] theorem advance_root : (s.advance).root = s.root := rfl
@[simp] theorem advance_total : (s.advance).total = s.total := rfl
@[simp] theorem advance_code : (s.advance).code = s.code := rfl
@[simp] theorem advance_acc : (s.advance).acc = s.acc := rfl
@[simp] theorem advance_nbits : (s.advance).nbits = s.nbits := rfl
@[simp] theorem advance_cur : (s.advance).cur = s.cur := rfl
@[simp] theorem advance_outcnt : (s.advance).outcnt = s.outcnt := rfl
@[simp] theorem advance_status : (s.advance).status = s.status := rfl
@[simp] theorem advance_errcode : (s.advance).errcode = s.errcode := rfl
@[simp] theorem advance_src : (s.advance).src = s.src := rfl
@[simp] theorem advance_srcPos : (s.advance).srcPos = s.srcPos + 1 := rfl
@[simp] theorem advance_snk : (s.advance).snk = s.snk := rfl
@[simp] theorem advance_eqInternal : (s.advance).eqInternal = s.eqInternal := rfl
@[simp] theorem advance_answers : (s.advance).answers = s.answers := rfl
@[simp] theorem advance_faultKeep : (s.advance).faultKeep = s.faultKeep := rfl
@[simp] theorem advance_script : (s.advance).script = s.script := rfl

@[simp] theorem advance_busy : (s.advance).busy = s.busy := rfl
@[simp] theorem advance_err : (s.advance).err = s.err := rfl
@[simp] theorem advance_treev : (s.advance).treev = s.treev := rfl
@[simp] theorem advance_codev : (s.advance).codev = s.codev := rfl

/-! ### `append` -/

@[simp] theorem append_ft (v : Byte) : (s.append v).ft = s.ft := rfl
@[simp] theorem append_node (v : Byte) : (s.append v).node = s.node := rfl
@[simp] theorem append_nnode (v : Byte) : (s.append v).nnode = s.nnode := rfl
@[simp] theorem append_root (v : Byte) : (s.append v).root = s.root := rfl
@[simp] theorem append_total (v : Byte) : (s.append v).total = s.total := rfl
@[simp] theorem append_code (v : Byte) : (s.append v).code = s.code := rfl
@[simp] theorem append_acc (v : Byte) : (s.append v).acc = s.acc := rfl
@[simp] theorem append_nbits (v : Byte) : (s.append v).nbits = s.nbits := rfl
@[simp] theorem append_cur (v : Byte) : (s.append v).cur = s.cur := rfl
@[simp] theorem append_outcnt (v : Byte) : (s.append v).outcnt = s.outcnt := rfl
@[simp] theorem append_status (v : Byte) : (s.append v).status = s.status := rfl
@[simp] theorem append_errcode (v : Byte) : (s.append v).errcode = s.errcode := rfl
@[simp] theorem append_src (v : Byte) : (s.append v).src = s.src := rfl
@[simp] theorem append_srcPos (v : Byte) : (s.append v).srcPos = s.srcPos := rfl
@[simp] theorem append_snk (v : Byte) : (s.append v).snk = s.snk ++ [v] := rfl
@[simp] theorem append_eqInternal (v : Byte) : (s.append v).eqInternal = s.eqInternal := rfl
@[simp] theorem append_answers (v : Byte) : (s.append v).answers = s.answers := rfl
@[simp] theorem append_faultKeep (v : Byte) : (s.append v).faultKeep = s.faultKeep := rfl
@[simp] theorem append_script (v : Byte) : (s.append v).script = s.script := rfl

@[simp] theorem append_busy (v : Byte) : (s.append v).busy = s.busy := rfl
@[simp] theorem append_err (v : Byte) : (s.append v).err = s.err := rfl
@[simp] theorem append_treev (v : Byte) : (s.append v).treev = s.treev := rfl
@[simp] theorem append_codev (v : Byte) : (s.append v).codev = s.codev := rfl

/-! ### `clearAcc` -/

@[simp] theorem clearAcc_ft : (s.clearAcc).ft = s.ft := rfl
@[simp] theorem clearAcc_node : (s.clearAcc).node = s.node := rfl
@[simp] theorem clearAcc_nnode : (s.clearAcc).nnode = s.nnode := rfl
@[simp] theorem clearAcc_root : (s.clearAcc).root = s.root := rfl
@[simp] theorem clearAcc_total : (s.clearAcc).total = s.total := rfl
@[simp] theorem clearAcc_code : (s.clearAcc).code = s.code := rfl
@[simp] theorem clearAcc_acc : (s.clearAcc).acc = 0 := rfl
@[simp] theorem clearAcc_nbits : (s.clearAcc).nbits = 0 := rfl
@[simp] theorem clearAcc_cur : (s.clearAcc).cur = s.cur := rfl
@[simp] theorem clearAcc_outcnt : (s.clearAcc).outcnt = s.outcnt := rfl
@[simp] theorem clearAcc_status : (s.clearAcc).status = s.status := rfl
@[simp] theorem clearAcc_errcode : (s.clearAcc).errcode = s.errcode := rfl
@[simp] theorem clearAcc_src : (s.clearAcc).src = s.src := rfl
@[simp] theorem clearAcc_srcPos : (s.clearAcc).srcPos = s.srcPos := rfl
@[simp] theorem clearAcc_snk : (s.clearAcc).snk = s.snk := rfl
@[simp] theorem clearAcc_eqInternal : (s.clearAcc).eqInternal = s.eqInternal := rfl
@[simp] theorem clearAcc_answers : (s.clearAcc).answers = s.answers := rfl
@[simp] theorem clearAcc_faultKeep : (s.clearAcc).faultKeep = s.faultKeep := rfl
@[simp] theorem clearAcc_script : (s.clearAcc).script = s.script := rfl

@[simp] theorem clearAcc_busy : (s.clearAcc).busy = s.busy := rfl
@[simp] theorem clearAcc_err : (s.clearAcc).err = s.err := rfl
@[simp] theorem clearAcc_treev : (s.clearAcc).treev = s.treev := rfl
@[simp] theorem clearAcc_codev : (s.clearAcc).codev = s.codev := rfl

/-! ### `shiftBit` -/

@[simp] theorem shiftBit_ft (b : Bool) : (s.shiftBit b).ft = s.ft := rfl
@[simp] theorem shiftBit_node (b : Bool) : (s.shiftBit b).node = s.node := rfl
@[simp] theorem shiftBit_nnode (b : Bool) : (s.shiftBit b).nnode = s.nnode := rfl
@[simp] theorem shiftBit_root (b : Bool) : (s.shiftBit b).root = s.root := rfl
@[simp] theorem shiftBit_total (b : Bool) : (s.shiftBit b).total = s.total := rfl
@[simp] theorem shiftBit_code (b : Bool) : (s.shiftBit b).code = s.code := rfl
@[simp] theorem shiftBit_acc (b : Bool) : (s.shiftBit b).acc = shiftIn s.acc b := rfl
@[simp] theorem shiftBit_nbits (b : Bool) : (s.shiftBit b).nbits = s.nbits + 1 := rfl
@[simp] theorem shiftBit_cur (b : Bool) : (s.shiftBit b).cur = s.cur := rfl
@[simp] theorem shiftBit_outcnt (b : Bool) : (s.shiftBit b).outcnt = s.outcnt := rfl
@[simp] theorem shiftBit_status (b : Bool) : (s.shiftBit b).status = s.status := rfl
@[simp] theorem shiftBit_errcode (b : Bool) : (s.shiftBit b).errcode = s.errcode := rfl
@[simp] theorem shiftBit_src (b : Bool) : (s.shiftBit b).src = s.src := rfl
@[simp] theorem shiftBit_srcPos (b : Bool) : (s.shiftBit b).srcPos = s.srcPos := rfl
@[simp] theorem shiftBit_snk (b : Bool) : (s.shiftBit b).snk = s.snk := rfl
@[simp] theorem shiftBit_eqInternal (b : Bool) : (s.shiftBit b).eqInternal = s.eqInternal := rfl
@[simp] theorem shiftBit_answers (b : Bool) : (s.shiftBit b).answers = s.answers := rfl
@[simp] theorem shiftBit_faultKeep (b : Bool) : (s.shiftBit b).faultKeep = s.faultKeep := rfl
@[simp] theorem shiftBit_script (b : Bool) : (s.shiftBit b).script = s.script := rfl

@[simp] theorem shiftBit_busy (b : Bool) : (s.shiftBit b).busy = s.busy := rfl
@[simp] theorem shiftBit_err (b : Bool) : (s.shiftBit b).err = s.err := rfl
@[simp] theorem shiftBit_treev (b : Bool) : (s.shiftBit b).treev = s.treev := rfl
@[simp] theorem shiftBit_codev (b : Bool) : (s.shiftBit b).codev = s.codev := rfl

/-! ### `faultEntry` -/

@[simp] theorem faultEntry_ft (a : State) (e : Err) : (faultEntry a e s).ft = s.ft := rfl
@[simp] theorem faultEntry_node (a : State) (e : Err) : (faultEntry a e s).node = s.node := rfl
@[simp] theorem faultEntry_nnode (a : State) (e : Err) : (faultEntry a e s).nnode = s.nnode := rfl
@[simp] theorem faultEntry_root (a : State) (e : Err) : (faultEntry a e s).root = s.root := rfl
@[simp] theorem faultEntry_total (a : State) (e : Err) : (faultEntry a e s).total = s.total := rfl
@[simp] theorem faultEntry_code (a : State) (e : Err) : (faultEntry a e s).code = s.code := rfl
@[simp] theorem faultEntry_acc (a : State) (e : Err) : (faultEntry a e s).acc = s.acc := rfl
@[simp] theorem faultEntry_nbits (a : State) (e : Err) : (faultEntry a e s).nbits = s.nbits := rfl
@[simp] theorem faultEntry_cur (a : State) (e : Err) : (faultEntry a e s).cur = s.cur := rfl
@[simp] theorem faultEntry_outcnt (a : State) (e : Err) : (faultEntry a e s).outcnt = s.outcnt := rfl
@[simp] theorem faultEntry_status (a : State) (e : Err) : (faultEntry a e s).status = faultStatus := rfl
@[simp] theorem faultEntry_errcode (a : State) (e : Err) : (faultEntry a e s).errcode = e.code := rfl
@[simp] theorem faultEntry_src (a : State) (e : Err) : (faultEntry a e s).src = s.src := rfl
@[simp] theorem faultEntry_srcPos (a : State) (e : Err) : (faultEntry a e s).srcPos = s.srcPos := rfl
@[simp] theorem faultEntry_snk (a : State) (e : Err) : (faultEntry a e s).snk = a.snk ++ s.delivered (s.snk.drop a.snk.length) := rfl
@[simp] theorem faultEntry_eqInternal (a : State) (e : Err) : (faultEntry a e s).eqInternal = s.eqInternal := rfl
@[simp] theorem faultEntry_answers (a : State) (e : Err) : (faultEntry a e s).answers = s.answers := rfl
@[simp] theorem faultEntry_faultKeep (a : State) (e : Err) : (faultEntry a e s).faultKeep = s.faultKeep.tail := rfl
@[simp] theorem faultEntry_script (a : State) (e : Err) : (faultEntry a e s).script = s.script := rfl

/-! ### `resetEngine` -/

@[simp] theorem resetEngine_ft : (resetEngine s).ft = State.reset.ft := rfl
@[simp] theorem resetEngine_node : (resetEngine s).node = State.reset.node := rfl
@[simp] theorem resetEngine_nnode : (resetEngine s).nnode = State.reset.nnode := rfl
@[simp] theorem resetEngine_root : (resetEngine s).root = State.reset.root := rfl
@[simp] theorem resetEngine_total : (resetEngine s).total = State.reset.total := rfl
@[simp] theorem resetEngine_code : (resetEngine s).code = State.reset.code := rfl
@[simp] theorem resetEngine_acc : (resetEngine s).acc = State.reset.acc := rfl
@[simp] theorem resetEngine_nbits : (resetEngine s).nbits = State.reset.nbits := rfl
@[simp] theorem resetEngine_cur : (resetEngine s).cur = State.reset.cur := rfl
@[simp] theorem resetEngine_outcnt : (resetEngine s).outcnt = State.reset.outcnt := rfl
@[simp] theorem resetEngine_status : (resetEngine s).status = State.reset.status := rfl
@[simp] theorem resetEngine_errcode : (resetEngine s).errcode = State.reset.errcode := rfl
@[simp] theorem resetEngine_src : (resetEngine s).src = s.src := rfl
@[simp] theorem resetEngine_srcPos : (resetEngine s).srcPos = s.srcPos := rfl
@[simp] theorem resetEngine_snk : (resetEngine s).snk = s.snk := rfl
@[simp] theorem resetEngine_eqInternal : (resetEngine s).eqInternal = s.eqInternal := rfl
@[simp] theorem resetEngine_answers : (resetEngine s).answers = s.answers := rfl
@[simp] theorem resetEngine_faultKeep : (resetEngine s).faultKeep = s.faultKeep := rfl
@[simp] theorem resetEngine_script : (resetEngine s).script = s.script := rfl

/-! ### The bits of `STATUS` -/

/-- Writing one bit of a byte leaves the others. -/
theorem getLsbD_setBit (w : Byte) (i j : Nat) (b : Bool) (hi : i < 8) (hj : j < 8) :
    (setBit w i b).getLsbD j = if j = i then b else w.getLsbD j := by
  have key : ∀ i < 8, ∀ j < 8, (1#8 <<< i).getLsbD j = decide (j = i) := by decide
  unfold setBit
  cases b
  · simp only [Bool.false_eq_true, if_false, BitVec.getLsbD_and, BitVec.getLsbD_not, key i hi j hj, hj, decide_true,
      Bool.true_and]
    by_cases h : j = i <;> simp only [h, decide_true, decide_false, Bool.not_true, Bool.not_false, Bool.and_false,
      Bool.and_true, if_true, if_false]
  · simp only [if_true, BitVec.getLsbD_or, key i hi j hj]
    by_cases h : j = i <;> simp only [h, decide_true, decide_false, Bool.or_true, Bool.or_false, if_true, if_false]

@[simp] theorem setBusy_busy (b : Bool) : (s.setBusy b).busy = b :=
  getLsbD_setBit s.status 0 0 b (by decide) (by decide)
@[simp] theorem setBusy_err (b : Bool) : (s.setBusy b).err = s.err :=
  getLsbD_setBit s.status 0 1 b (by decide) (by decide)
@[simp] theorem setBusy_treev (b : Bool) : (s.setBusy b).treev = s.treev :=
  getLsbD_setBit s.status 0 2 b (by decide) (by decide)
@[simp] theorem setBusy_codev (b : Bool) : (s.setBusy b).codev = s.codev :=
  getLsbD_setBit s.status 0 3 b (by decide) (by decide)
@[simp] theorem setTreev_busy (b : Bool) : (s.setTreev b).busy = s.busy :=
  getLsbD_setBit s.status 2 0 b (by decide) (by decide)
@[simp] theorem setTreev_err (b : Bool) : (s.setTreev b).err = s.err :=
  getLsbD_setBit s.status 2 1 b (by decide) (by decide)
@[simp] theorem setTreev_treev (b : Bool) : (s.setTreev b).treev = b :=
  getLsbD_setBit s.status 2 2 b (by decide) (by decide)
@[simp] theorem setTreev_codev (b : Bool) : (s.setTreev b).codev = s.codev :=
  getLsbD_setBit s.status 2 3 b (by decide) (by decide)
@[simp] theorem setCodev_busy (b : Bool) : (s.setCodev b).busy = s.busy :=
  getLsbD_setBit s.status 3 0 b (by decide) (by decide)
@[simp] theorem setCodev_err (b : Bool) : (s.setCodev b).err = s.err :=
  getLsbD_setBit s.status 3 1 b (by decide) (by decide)
@[simp] theorem setCodev_treev (b : Bool) : (s.setCodev b).treev = s.treev :=
  getLsbD_setBit s.status 3 2 b (by decide) (by decide)
@[simp] theorem setCodev_codev (b : Bool) : (s.setCodev b).codev = b :=
  getLsbD_setBit s.status 3 3 b (by decide) (by decide)
@[simp] theorem dropDerived_busy : s.dropDerived.busy = s.busy := by
  simp [State.dropDerived]
@[simp] theorem dropDerived_err : s.dropDerived.err = s.err := by
  simp [State.dropDerived]
@[simp] theorem dropDerived_treev : s.dropDerived.treev = false := by
  simp [State.dropDerived]
@[simp] theorem dropDerived_codev : s.dropDerived.codev = false := by
  simp [State.dropDerived]
@[simp] theorem faultEntry_busy (a : State) (e : Err) : (faultEntry a e s).busy = false := by
  show faultStatus.getLsbD 0 = _; decide
@[simp] theorem faultEntry_err (a : State) (e : Err) : (faultEntry a e s).err = true := by
  show faultStatus.getLsbD 1 = _; decide
@[simp] theorem faultEntry_treev (a : State) (e : Err) : (faultEntry a e s).treev = false := by
  show faultStatus.getLsbD 2 = _; decide
@[simp] theorem faultEntry_codev (a : State) (e : Err) : (faultEntry a e s).codev = false := by
  show faultStatus.getLsbD 3 = _; decide
@[simp] theorem resetEngine_busy : (resetEngine s).busy = false := by
  show State.reset.status.getLsbD 0 = _; decide
@[simp] theorem resetEngine_err : (resetEngine s).err = false := by
  show State.reset.status.getLsbD 1 = _; decide
@[simp] theorem resetEngine_treev : (resetEngine s).treev = false := by
  show State.reset.status.getLsbD 2 = _; decide
@[simp] theorem resetEngine_codev : (resetEngine s).codev = false := by
  show State.reset.status.getLsbD 3 = _; decide

/-- Setting `BUSY` on acceptance and clearing it on completion changes nothing (R235, R210). -/
theorem setBusy_setBusy (h : s.busy = false) : (s.setBusy true).setBusy false = s := by
  have : setBit (setBit s.status 0 true) 0 false = s.status := by
    apply BitVec.eq_of_getLsbD_eq
    intro j hj
    rw [getLsbD_setBit _ _ _ _ (by decide) hj, getLsbD_setBit _ _ _ _ (by decide) hj]
    split
    · next h0 => subst h0; exact h.symm
    · rfl
  cases s
  simp only [State.setBusy] at *
  simpa using this

/-- The nine fault codes are 1 to 9 (R231). -/
theorem errCode_range (e : Err) : 1 ≤ e.code.toNat ∧ e.code.toNat ≤ 9 := by cases e <;> decide

theorem errCode_injective (e e' : Err) (h : e.code = e'.code) : e = e' := by
  cases e <;> cases e' <;> first | rfl | (exact absurd h (by decide))

end Sys2Proof.Machine
end

