-- ==== Sys2Proof/Laws/Ops.lean ====
section
/-! SUPPORT. What each shared operation can do, said once: the environment's answers, the two stream primitives, the loop
over the source, `Flow`, and the common prologue and epilogue. -/

namespace Sys2Proof.Machine

/-! ### Flow -/

@[simp] theorem Flow.andThen_done (s : State) (k : State → Flow) : (Flow.done s).andThen k = k s := rfl
@[simp] theorem Flow.andThen_raised (e : Err) (s : State) (k : State → Flow) :
    (Flow.raised e s).andThen k = .raised e s := rfl
@[simp] theorem Flow.andThen_stuck (r : Fault) (k : State → Flow) : (Flow.stuck r).andThen k = .stuck r := rfl

theorem Flow.andThen_assoc (f : Flow) (k l : State → Flow) :
    (f.andThen k).andThen l = f.andThen fun s => (k s).andThen l := by cases f <;> rfl

theorem Flow.andThen_eq_done {f : Flow} {k : State → Flow} {u : State} :
    f.andThen k = .done u ↔ ∃ t, f = .done t ∧ k t = .done u := by
  cases f <;> simp [Flow.andThen]

/-- `P` holds of the state a flow ends in, whether it completes or raises. -/
def Flow.Sat (P : State → Prop) : Flow → Prop
  | .done s => P s
  | .raised _ s => P s
  | .stuck _ => True

@[simp] theorem Flow.sat_done (P : State → Prop) (s : State) : (Flow.done s).Sat P = P s := rfl
@[simp] theorem Flow.sat_raised (P : State → Prop) (e : Err) (s : State) : (Flow.raised e s).Sat P = P s := rfl
@[simp] theorem Flow.sat_stuck (P : State → Prop) (r : Fault) : (Flow.stuck r).Sat P = True := rfl

theorem Flow.Sat.mono {f : Flow} {P Q : State → Prop} (h : f.Sat P) (hPQ : ∀ s, P s → Q s) : f.Sat Q := by
  cases f <;> simp_all [Flow.Sat]

/-- One piece of pseudocode after another: the first keeps `Q` where it ends, and the second does from where it goes on. -/
theorem Flow.Sat.andThen {f : Flow} {k : State → Flow} {P Q : State → Prop} (h : f.Sat P) (hPQ : ∀ s, P s → Q s)
    (hk : ∀ s, P s → (k s).Sat Q) : (f.andThen k).Sat Q := by
  cases f <;> simp_all [Flow.Sat, Flow.andThen]

/-- The errors a flow may raise. -/
def Flow.Raises (E : Err → Prop) : Flow → Prop
  | .raised e _ => E e
  | _ => True

theorem Flow.Raises.andThen {f : Flow} {k : State → Flow} {E : Err → Prop} (h : f.Raises E)
    (hk : ∀ s, (k s).Raises E) : (f.andThen k).Raises E := by
  cases f <;> simp_all [Flow.Raises, Flow.andThen]

/-- A flow that is never stuck but where the environment gives no answer. -/
def Flow.Lives : Flow → Prop
  | .stuck r => r = .noIoAnswer
  | _ => True

@[simp] theorem Flow.lives_done (s : State) : (Flow.done s).Lives = True := rfl
@[simp] theorem Flow.lives_raised (e : Err) (s : State) : (Flow.raised e s).Lives = True := rfl

theorem Flow.Lives.andThen {f : Flow} {k : State → Flow} {P : State → Prop} (h : f.Lives) (hP : f.Sat P)
    (hk : ∀ s, P s → (k s).Lives) : (f.andThen k).Lives := by
  cases f <;> simp_all [Flow.Lives, Flow.andThen, Flow.Sat]

/-! ### The environment's answers -/

theorem AnswersOk.mono {s : State} {m n : Nat} (h : AnswersOk s n) (hm : m ≤ n) : AnswersOk s m := fun a ha =>
  h a ((List.take_subset_take_left _ hm) ha)

theorem AnswersOk.congr {s t : State} {n : Nat} (h : AnswersOk s n) (ht : t.answers = s.answers) : AnswersOk t n := by
  simpa [AnswersOk, ht] using h

theorem AnswersOk.answer {s : State} {n : Nat} (h : AnswersOk s n) (hn : 0 < n) : s.answer = .ok := by
  unfold State.answer
  cases hs : s.answers with
  | nil => rfl
  | cons a as =>
    obtain ⟨m, rfl⟩ := Nat.exists_eq_succ_of_ne_zero hn.ne'
    simpa using h a (by simp [hs])

theorem AnswersOk.of_drop {s t : State} {m n : Nat} (h : AnswersOk s (m + n)) (ht : t.answers = s.answers.drop m) :
    AnswersOk t n := by
  intro a ha
  rw [ht] at ha
  refine h a ?_
  rw [List.take_add]
  exact List.mem_append_right _ ha

theorem AnswersOk.drawn {s : State} {n : Nat} (h : AnswersOk s (n + 1)) : AnswersOk s.drawn n :=
  AnswersOk.of_drop (m := 1) (by simpa [Nat.add_comm] using h) (by simp)

theorem NeverFails.answersOk {s : State} (h : NeverFails s) (n : Nat) : AnswersOk s n := fun a ha =>
  h a (List.mem_of_mem_take ha)

/-! ### The stream primitives -/

@[simp] theorem unread_drawn (s : State) : s.drawn.unread = s.unread := rfl

theorem unread_advance {s : State} {b : Byte} {r : List Byte} (h : s.unread = b :: r) : s.advance.unread = r := by
  have : s.advance.unread = s.unread.tail := by simp [State.unread, State.advance]
  simp [this, h]

theorem srcPos_lt_of_unread {s : State} {b : Byte} {r : List Byte} (h : s.unread = b :: r) :
    s.srcPos < s.src.length := by
  by_contra hge
  simp [State.unread, List.drop_eq_nil_of_le (Nat.le_of_not_lt hge)] at h

theorem getElem?_srcPos (s : State) : s.src[s.srcPos]? = s.unread.head? := by
  simp [State.unread]

/-- Everything `SrcRead()` can do (R62). -/
theorem srcRead_cases (s : State) :
    (s.answer = .fail ∧ srcRead s = .ioFail s.drawn) ∨ (s.answer = .never ∧ srcRead s = .noAnswer) ∨
    (s.answer = .ok ∧ s.unread = [] ∧ srcRead s = .eof s.drawn) ∨
    ∃ b r, s.answer = .ok ∧ s.unread = b :: r ∧ srcRead s = .byte b s.drawn.advance := by
  unfold srcRead
  rw [getElem?_srcPos]
  cases s.answer <;> cases s.unread <;> simp

theorem readByte_eof {s : State} {onEof : State → Flow} {k : Byte → State → Flow} (ha : s.answer = .ok)
    (hu : s.unread = []) : readByte s onEof k = onEof s.drawn := by
  simp [readByte, srcRead, getElem?_srcPos, ha, hu]

theorem readByte_byte {s : State} {onEof : State → Flow} {k : Byte → State → Flow} {b : Byte} {r : List Byte}
    (ha : s.answer = .ok) (hu : s.unread = b :: r) : readByte s onEof k = k b s.drawn.advance := by
  simp [readByte, srcRead, getElem?_srcPos, ha, hu]

theorem readByte_fail {s : State} {onEof : State → Flow} {k : Byte → State → Flow} (ha : s.answer = .fail) :
    readByte s onEof k = .raised .ioRd s.drawn := by
  simp [readByte, srcRead, ha]

theorem readByte_never {s : State} {onEof : State → Flow} {k : Byte → State → Flow} (ha : s.answer = .never) :
    readByte s onEof k = .stuck .noIoAnswer := by
  simp [readByte, srcRead, ha]

/-- Everything a read can do to what its caller does with it. -/
theorem readByte_cases (s : State) (onEof : State → Flow) (k : Byte → State → Flow) :
    readByte s onEof k = .raised .ioRd s.drawn ∨ (s.answer = .never ∧ readByte s onEof k = .stuck .noIoAnswer) ∨
    (s.unread = [] ∧ readByte s onEof k = onEof s.drawn) ∨
    ∃ b r, s.unread = b :: r ∧ readByte s onEof k = k b s.drawn.advance := by
  rcases srcRead_cases s with ⟨ha, -⟩ | ⟨ha, -⟩ | ⟨ha, hu, -⟩ | ⟨b, r, ha, hu, -⟩
  · exact .inl (readByte_fail ha)
  · exact .inr (.inl ⟨ha, readByte_never ha⟩)
  · exact .inr (.inr (.inl ⟨hu, readByte_eof ha hu⟩))
  · exact .inr (.inr (.inr ⟨b, r, hu, readByte_byte ha hu⟩))

theorem snkWrite_ok {s : State} (v : Byte) (ha : s.answer = .ok) : snkWrite v s = .done (s.drawn.append v) := by
  simp [snkWrite, ha]

/-- Everything a write can do (R63). -/
theorem snkWrite_cases (v : Byte) (s : State) :
    (s.answer = .fail ∧ snkWrite v s = .raised .ioWr s.drawn) ∨
    (s.answer = .never ∧ snkWrite v s = .stuck .noIoAnswer) ∨
    (s.answer = .ok ∧ snkWrite v s = .done (s.drawn.append v)) := by
  unfold snkWrite
  cases s.answer <;> simp

/-- Writes the environment does not fail append the bytes, one answer each (R63). -/
theorem snkWrites_ok (vs : List Byte) (s : State) (h : AnswersOk s vs.length) :
    snkWrites vs s = .done { s with snk := s.snk ++ vs, answers := s.answers.drop vs.length } := by
  induction vs generalizing s with
  | nil => simp [snkWrites]
  | cons v vs ih =>
    have hok : AnswersOk (s.drawn.append v) vs.length := (h.drawn).congr rfl
    rw [snkWrites, snkWrite_ok v (h.answer (by simp)), Flow.andThen_done, ih _ hok]
    simp [State.drawn, State.append]

/-- A failed write ends a sequence of writes with the bytes before it (R63, R240). -/
theorem snkWrites_fail (vs : List Byte) (s : State) (m : Nat) (later : List IoAnswer) (hm : m < vs.length)
    (h : s.answers = List.replicate m .ok ++ .fail :: later) :
    snkWrites vs s = .raised .ioWr { s with snk := s.snk ++ vs.take m, answers := later } := by
  induction vs generalizing s m with
  | nil => simp at hm
  | cons v vs ih =>
    cases m with
    | zero => simp [snkWrites, snkWrite, State.answer, State.drawn, h]
    | succ m =>
      have ha : s.answer = .ok := by simp [State.answer, h, List.replicate_succ]
      rw [snkWrites, snkWrite_ok v ha, Flow.andThen_done,
        ih (s.drawn.append v) m (by simpa using hm) (by simp [h, List.replicate_succ])]
      simp [State.drawn, State.append]

/-! ### The loop over the source -/

theorem eachByte_eof {body : Byte → State → Flow} {n : Nat} {s : State} (ha : s.answer = .ok) (hu : s.unread = []) :
    eachByte body (n + 1) s = .done s.drawn := by
  rw [eachByte, readByte_eof ha hu]

theorem eachByte_byte {body : Byte → State → Flow} {n : Nat} {s : State} {b : Byte} {r : List Byte}
    (ha : s.answer = .ok) (hu : s.unread = b :: r) :
    eachByte body (n + 1) s = (body b s.drawn.advance).andThen (eachByte body n) := by
  rw [eachByte, readByte_byte ha hu]

/-- The bound on the loop is never used up, whatever the environment answers, when a pass leaves the cursor alone. -/
theorem eachByte_lives {body : Byte → State → Flow} (hbody : ∀ b s, (body b s).Lives)
    (hkeep : ∀ b s, (body b s).Sat fun t => t.src = s.src ∧ t.srcPos = s.srcPos) (n : Nat) (s : State)
    (hn : s.unread.length < n) : (eachByte body n s).Lives := by
  induction n generalizing s with
  | zero => omega
  | succ n ih =>
    rw [eachByte]
    rcases readByte_cases s .done (fun b s' => (body b s').andThen (eachByte body n)) with
      h | ⟨-, h⟩ | ⟨-, h⟩ | ⟨b, r, hu, h⟩ <;> rw [h]
    · trivial
    · rfl
    · trivial
    · refine Flow.Lives.andThen (hbody _ _) (hkeep _ _) fun t ht => ih t ?_
      have hu' : t.unread = r := by
        have := unread_advance (s := s.drawn) hu
        simpa [State.unread, ht.1, ht.2] using this
      rw [hu']
      simpa [hu] using hn

/-! ### Prologue and epilogue -/

theorem runCommand_not_accepted {body : State → Flow} {s : State} (h : s.busy = true ∨ s.err = true) :
    runCommand body s = .next s := by
  simp [runCommand, h]

theorem runCommand_done {body : State → Flow} {s t : State} (h : Accepts s) (hb : body (s.setBusy true) = .done t) :
    runCommand body s = .next (t.setBusy false) := by
  simp [runCommand, h.1, h.2, hb]

theorem runCommand_raised {body : State → Flow} {s t : State} {e : Err} (h : Accepts s)
    (hb : body (s.setBusy true) = .raised e t) : runCommand body s = .next (faultEntry s e t) := by
  simp [runCommand, h.1, h.2, hb]

theorem runCommand_stuck {body : State → Flow} {s : State} {r : Fault} (h : Accepts s)
    (hb : body (s.setBusy true) = .stuck r) : runCommand body s = .fault r := by
  simp [runCommand, h.1, h.2, hb]

/-- Everything an accepted command can do (R12, R235). -/
theorem runCommand_cases {body : State → Flow} {s : State} (h : Accepts s) :
    (∃ t, body (s.setBusy true) = .done t ∧ runCommand body s = .next (t.setBusy false)) ∨
    (∃ e t, body (s.setBusy true) = .raised e t ∧ runCommand body s = .next (faultEntry s e t)) ∨
    ∃ r, body (s.setBusy true) = .stuck r ∧ runCommand body s = .fault r := by
  cases hb : body (s.setBusy true) with
  | done t => exact .inl ⟨t, rfl, runCommand_done h hb⟩
  | raised e t => exact .inr (.inl ⟨e, t, rfl, runCommand_raised h hb⟩)
  | stuck r => exact .inr (.inr ⟨r, rfl, runCommand_stuck h hb⟩)

/-- What the host finds after a `raise` (R240, R241). -/
theorem faultsWith_faultEntry {s u : State} {e : Err} {w : List Byte} (h : u.snk = s.snk ++ w) :
    ∃ p, FaultsWith s (faultEntry s e u) e p ∧ p <+: w := by
  refine ⟨u.delivered w, ⟨rfl, rfl, by simp [h]⟩, ?_⟩
  unfold State.delivered
  cases u.faultKeep with
  | nil => exact List.prefix_rfl
  | cons n _ => exact List.take_prefix n w

theorem faultsWith_nothing {s u : State} {e : Err} (h : u.snk = s.snk) : FaultsWith s (faultEntry s e u) e [] := by
  obtain ⟨p, hp, hpre⟩ := faultsWith_faultEntry (s := s) (u := u) (e := e) (w := []) (by simpa using h)
  simpa [List.prefix_nil.mp hpre] using hp

end Sys2Proof.Machine
end

