-- ==== Sys2Proof/Laws/FreqTable.lean ====
section
/-! SUPPORT. The Frequency Table: reads after writes, the non-zero entries (R22, R94), and the counting loop (R121, R122). -/

namespace Sys2Proof.Machine

/-! ### Reads after writes -/

@[simp] theorem ftAt_clearFt (s : State) (b : Byte) : s.clearFt.ftAt b = 0 := by
  simp [State.ftAt, State.clearFt]

theorem ftAt_setFt (s : State) (a b : Byte) (c : Count) : (s.setFt a c).ftAt b = if b = a then c else s.ftAt b := by
  simp only [State.ftAt, State.setFt, Vector.getElem_set, BitVec.toNat_inj, eq_comm (a := a)]

@[simp] theorem ftAt_dropDerived (s : State) (b : Byte) : s.dropDerived.ftAt b = s.ftAt b := rfl

theorem ftAt_congr {s t : State} (h : t.ft = s.ft) (b : Byte) : t.ftAt b = s.ftAt b := by simp [State.ftAt, h]

/-- Two tables with the same counts are the same table. -/
theorem ft_ext {s t : State} (h : ∀ b, s.ftAt b = t.ftAt b) : s.ft = t.ft := by
  apply Vector.ext
  intro i hi
  have := h (BitVec.ofNat 8 i)
  simpa [State.ftAt, Nat.mod_eq_of_lt hi] using this

theorem k_congr {s t : State} (h : t.ft = s.ft) : t.k = s.k := by simp [State.k, h]

theorem totalFT_congr {s t : State} (h : t.ft = s.ft) : t.totalFT = s.totalFT := by simp [State.totalFT, h]

/-! ### The non-zero entries -/

theorem mem_entriesFrom {i : Nat} {cs : List Count} (hi : i + cs.length ≤ 256) {e : Byte × Count} :
    e ∈ entriesFrom i cs ↔ ∃ j, e.1.toNat = i + j ∧ cs[j]? = some e.2 ∧ e.2 ≠ 0 := by
  induction cs generalizing i with
  | nil => simp [entriesFrom]
  | cons c cs ih =>
    have hi' : i + 1 + cs.length ≤ 256 := by simp at hi; omega
    rw [List.length_cons] at hi
    have tail : (∃ j, e.1.toNat = i + 1 + j ∧ cs[j]? = some e.2 ∧ e.2 ≠ 0) ↔
        ∃ j, e.1.toNat = i + (j + 1) ∧ (c :: cs)[j + 1]? = some e.2 ∧ e.2 ≠ 0 := by
      simp [Nat.add_assoc, Nat.add_comm 1]
    have split_zero : (∃ j, e.1.toNat = i + j ∧ (c :: cs)[j]? = some e.2 ∧ e.2 ≠ 0) ↔
        (e.1.toNat = i ∧ c = e.2 ∧ e.2 ≠ 0) ∨ ∃ j, e.1.toNat = i + (j + 1) ∧ (c :: cs)[j + 1]? = some e.2 ∧ e.2 ≠ 0 := by
      constructor
      · rintro ⟨_ | j, h1, h2, h3⟩
        · exact .inl ⟨by simpa using h1, by simpa using h2, h3⟩
        · exact .inr ⟨j, h1, h2, h3⟩
      · rintro (⟨h1, h2, h3⟩ | ⟨j, h⟩)
        · exact ⟨0, by simpa using h1, by simp [h2], h3⟩
        · exact ⟨j + 1, h⟩
    rw [split_zero, ← tail, ← ih hi', entriesFrom]
    have here : (e.1.toNat = i ∧ c = e.2 ∧ e.2 ≠ 0) ↔ (c ≠ 0 ∧ e = (BitVec.ofNat 8 i, c)) := by
      constructor
      · rintro ⟨h1, h2, h3⟩
        refine ⟨h2 ▸ h3, Prod.ext ?_ h2.symm⟩
        apply BitVec.eq_of_toNat_eq
        simp [h1]; omega
      · rintro ⟨h1, rfl⟩
        exact ⟨by simp; omega, rfl, h1⟩
    rw [here]
    split
    · next h => simp [h]
    · next h => rw [List.mem_cons, and_iff_right h]

theorem entriesFrom_ascending {i : Nat} {cs : List Count} (hi : i + cs.length ≤ 256) :
    (entriesFrom i cs).Pairwise fun e e' => e.1.toNat < e'.1.toNat := by
  induction cs generalizing i with
  | nil => exact List.Pairwise.nil
  | cons c cs ih =>
    rw [List.length_cons] at hi
    have hi' : i + 1 + cs.length ≤ 256 := by omega
    rw [entriesFrom]
    split
    · exact ih hi'
    · refine List.Pairwise.cons (fun e he => ?_) (ih hi')
      obtain ⟨j, hj, -⟩ := (mem_entriesFrom hi').mp he
      simp only [BitVec.toNat_ofNat, hj]; omega

/-- The entries of a table are its symbols with a non-zero count (R22). -/
theorem mem_tableEntries {s : State} {e : Byte × Count} : e ∈ tableEntries s.ft ↔ s.ftAt e.1 = e.2 ∧ e.2 ≠ 0 := by
  rw [tableEntries, mem_entriesFrom (by simp)]
  have hlt := e.1.isLt
  constructor
  · rintro ⟨j, hj, h, h0⟩
    rw [Nat.zero_add] at hj
    subst hj
    refine ⟨?_, h0⟩
    have : (s.ft.toList)[e.1.toNat]? = some (s.ftAt e.1) := by
      simp [State.ftAt]
    rw [this] at h
    exact Option.some.inj h
  · rintro ⟨h, h0⟩
    refine ⟨e.1.toNat, by omega, ?_, h0⟩
    rw [← h]
    simp [State.ftAt]

/-- The entries stand in strictly ascending symbol order (R94). -/
theorem tableEntries_ascending (ft : Vector Count 256) :
    (tableEntries ft).Pairwise fun e e' => e.1.toNat < e'.1.toNat := entriesFrom_ascending (by simp)

/-- No symbol occurs in two entries. -/
theorem tableEntries_distinct (ft : Vector Count 256) : ((tableEntries ft).map Prod.fst).Nodup := by
  rw [List.nodup_iff_pairwise_ne, List.pairwise_map]
  exact (tableEntries_ascending ft).imp fun {a b} h heq => by rw [heq] at h; exact lt_irrefl _ h

theorem tableEntries_nonzero {ft : Vector Count 256} {e : Byte × Count} (h : e ∈ tableEntries ft) : e.2 ≠ 0 :=
  (mem_tableEntries (s := { State.reset with ft := ft }).mp h).2

theorem entriesFrom_length (i : Nat) (cs : List Count) : (entriesFrom i cs).length ≤ cs.length := by
  induction cs generalizing i with
  | nil => simp [entriesFrom]
  | cons c cs ih =>
    have := ih (i + 1)
    rw [entriesFrom]
    split <;> simp <;> omega

/-- `k(FT)` is at most 256 (R22). -/
theorem k_le (s : State) : s.k ≤ 256 := by
  simpa [State.k, tableEntries] using entriesFrom_length 0 s.ft.toList

theorem entriesFrom_sum (i : Nat) (cs : List Count) :
    ((entriesFrom i cs).map fun e => e.2.toNat).sum = (cs.map BitVec.toNat).sum := by
  induction cs generalizing i with
  | nil => rfl
  | cons c cs ih =>
    rw [entriesFrom]
    split
    · next h => simp [h, ih]
    · simp [ih]

/-- `total(FT)` is the sum over the non-zero entries (R22). -/
theorem sum_tableEntries (s : State) : ((tableEntries s.ft).map fun e => e.2.toNat).sum = s.totalFT :=
  entriesFrom_sum 0 s.ft.toList

/-- The table is empty when every count is 0 (R22). -/
theorem k_eq_zero {s : State} : s.k = 0 ↔ ∀ b, s.ftAt b = 0 := by
  rw [State.k, List.length_eq_zero_iff]
  constructor
  · intro h b
    by_contra hb
    have : (b, s.ftAt b) ∈ tableEntries s.ft := mem_tableEntries.mpr ⟨rfl, hb⟩
    simp [h] at this
  · intro h
    rw [List.eq_nil_iff_forall_not_mem]
    intro e he
    obtain ⟨h1, h2⟩ := mem_tableEntries.mp he
    exact h2 (h1 ▸ h e.1)

theorem entriesFrom_filter (i : Nat) (cs : List Count) :
    (entriesFrom i cs).length = (cs.filter fun c => decide (c ≠ 0)).length := by
  induction cs generalizing i with
  | nil => rfl
  | cons c cs ih =>
    rw [entriesFrom]
    split
    · next h => rw [ih, List.filter_cons_of_neg (by simpa using h)]
    · next h => rw [List.length_cons, ih, List.filter_cons_of_pos (by simpa using h), List.length_cons]

/-! ### Counting -/

/-- One pass of the counting loop (R122). -/
theorem countByte_cases (b : Byte) (s : State) :
    ((s.ftAt b).toNat = Config.maxCount ∧ countByte b s = .raised .ovf s) ∨
    ((s.ftAt b).toNat < Config.maxCount ∧ countByte b s = .done (s.setFt b (s.ftAt b + 1))) := by
  unfold countByte Config.maxCount
  have := (s.ftAt b).isLt
  split
  · next h => exact .inl ⟨by simp [h], rfl⟩
  · next h =>
    refine .inr ⟨?_, rfl⟩
    have : (s.ftAt b).toNat ≠ 0xFFFFFFFF := fun hh => h (BitVec.eq_of_toNat_eq (by simpa using hh))
    omega

theorem toNat_succ_count {c : Count} (h : c.toNat < Config.maxCount) : (c + 1).toNat = c.toNat + 1 := by
  unfold Config.maxCount at h
  rw [BitVec.toNat_add]
  simp; omega

/-- The counts after one pass that does not overflow. -/
theorem ftAt_count (s : State) (a b : Byte) (h : (s.ftAt a).toNat < Config.maxCount) :
    ((s.setFt a (s.ftAt a + 1)).ftAt b).toNat = (s.ftAt b).toNat + [a].count b := by
  rw [ftAt_setFt]
  by_cases hab : b = a
  · subst hab; rw [if_pos rfl, toNat_succ_count h, List.count_singleton_self]
  · simp [hab, Ne.symm hab]

/-- The counting loop on reads that succeed and counts that do not overflow (R121). -/
theorem eachByte_countByte (l : List Byte) (s : State) (n : Nat) (hu : s.unread = l) (hn : l.length < n)
    (ha : AnswersOk s (l.length + 1)) (hc : ∀ b, (s.ftAt b).toNat + l.count b ≤ Config.maxCount) :
    ∃ ft, eachByte countByte n s = .done
        { s with ft := ft, srcPos := s.srcPos + l.length, answers := s.answers.drop (l.length + 1) } ∧
      ∀ b : Byte, (ft[b.toNat]'b.isLt).toNat = (s.ftAt b).toNat + l.count b := by
  induction l generalizing s n with
  | nil =>
    obtain ⟨m, rfl⟩ := Nat.exists_eq_add_one_of_ne_zero (Nat.ne_of_gt hn)
    refine ⟨s.ft, ?_, by simp [State.ftAt]⟩
    rw [eachByte_eof (ha.answer (by simp)) hu]
    simp [State.drawn]
  | cons a l ih =>
    obtain ⟨m, rfl⟩ := Nat.exists_eq_add_one_of_ne_zero (Nat.ne_of_gt (Nat.zero_lt_of_lt hn))
    have hlt : (s.ftAt a).toNat < Config.maxCount := by have := hc a; simp at this; omega
    rw [eachByte_byte (ha.answer (by simp)) hu]
    rcases countByte_cases a s.drawn.advance with ⟨h, -⟩ | ⟨-, h⟩
    · exact absurd h (by show (s.ftAt a).toNat ≠ _; omega)
    · rw [h, Flow.andThen_done]
      have hu' : (s.drawn.advance.setFt a (s.drawn.advance.ftAt a + 1)).unread = l :=
        unread_advance (s := s.drawn) hu
      have hc' : ∀ b, ((s.drawn.advance.setFt a (s.drawn.advance.ftAt a + 1)).ftAt b).toNat =
          (s.ftAt b).toNat + [a].count b := fun b => ftAt_count s.drawn.advance a b hlt
      obtain ⟨ft, h1, h2⟩ := ih _ m hu' (by simpa using hn) ((ha.drawn).congr rfl) fun b => by
        rw [hc' b]; have := hc b; rw [List.count_cons] at this; rw [List.count_singleton]
        simp only [beq_iff_eq] at *; omega
      refine ⟨ft, ?_, fun b => ?_⟩
      · rw [h1]
        simp [State.setFt, State.advance, State.drawn]
        omega
      · rw [h2 b, hc' b, List.count_singleton, List.count_cons]; omega

/-- The counting loop faults where a count would pass the limit, if the reads before it succeed (R122). -/
theorem eachByte_countByte_overflow (l : List Byte) (s : State) (n : Nat) (hu : s.unread = l) (hn : l.length < n)
    (ha : AnswersOk s l.length) (hc : ∃ b, Config.maxCount < (s.ftAt b).toNat + l.count b) :
    ∃ t, eachByte countByte n s = .raised .ovf t ∧ t.snk = s.snk := by
  induction l generalizing s n with
  | nil =>
    obtain ⟨b, hb⟩ := hc
    have := (s.ftAt b).isLt
    simp [Config.maxCount] at hb; omega
  | cons a l ih =>
    obtain ⟨m, rfl⟩ := Nat.exists_eq_add_one_of_ne_zero (Nat.ne_of_gt (Nat.zero_lt_of_lt hn))
    rw [eachByte_byte (ha.answer (by simp)) hu]
    rcases countByte_cases a s.drawn.advance with ⟨-, h⟩ | ⟨hlt, h⟩
    · exact ⟨s.drawn.advance, by rw [h]; rfl, rfl⟩
    · rw [h, Flow.andThen_done]
      have hu' : (s.drawn.advance.setFt a (s.drawn.advance.ftAt a + 1)).unread = l :=
        unread_advance (s := s.drawn) hu
      obtain ⟨t, h1, h2⟩ := ih _ m hu' (by simpa using hn) ((ha.drawn).congr rfl) (by
        obtain ⟨b, hb⟩ := hc
        refine ⟨b, ?_⟩
        rw [ftAt_count s.drawn.advance a b hlt]
        change _ < (s.ftAt b).toNat + _ + _
        rw [List.count_cons] at hb; rw [List.count_singleton]; omega)
      exact ⟨t, h1, h2⟩

/-- The counting loop faults where the environment fails a read, if no count overflowed before it (R121, R232). -/
theorem eachByte_countByte_readFails (m : Nat) (l : List Byte) (s : State) (n : Nat) (later : List IoAnswer)
    (hu : s.unread = l) (hn : l.length < n) (hm : m ≤ l.length) (ha : s.answers = List.replicate m .ok ++ .fail :: later)
    (hc : ∀ b, (s.ftAt b).toNat + (l.take m).count b ≤ Config.maxCount) :
    ∃ t, eachByte countByte n s = .raised .ioRd t ∧ t.snk = s.snk := by
  induction m generalizing s n l with
  | zero =>
    obtain ⟨k, rfl⟩ := Nat.exists_eq_add_one_of_ne_zero (Nat.ne_of_gt (Nat.zero_lt_of_lt hn))
    exact ⟨s.drawn, by rw [eachByte, readByte_fail (by simp [State.answer, ha])], rfl⟩
  | succ m ih =>
    obtain ⟨k, rfl⟩ := Nat.exists_eq_add_one_of_ne_zero (Nat.ne_of_gt (Nat.zero_lt_of_lt hn))
    obtain ⟨a, l, rfl⟩ := List.exists_cons_of_ne_nil (l := l) (by rintro rfl; simp at hm)
    have hok : s.answer = .ok := by simp [State.answer, ha, List.replicate_succ]
    have hlt : (s.ftAt a).toNat < Config.maxCount := by have := hc a; simp at this; omega
    rw [eachByte_byte hok hu]
    rcases countByte_cases a s.drawn.advance with ⟨h, -⟩ | ⟨-, h⟩
    · exact absurd h (by show (s.ftAt a).toNat ≠ _; omega)
    · rw [h, Flow.andThen_done]
      have hu' : (s.drawn.advance.setFt a (s.drawn.advance.ftAt a + 1)).unread = l :=
        unread_advance (s := s.drawn) hu
      obtain ⟨t, h1, h2⟩ := ih l _ k hu' (by simpa using hn) (by simpa using hm)
        (by simp [ha, List.replicate_succ]) fun b => by
          rw [ftAt_count s.drawn.advance a b hlt]
          have := hc b
          rw [List.take_succ_cons, List.count_cons] at this
          change (s.ftAt b).toNat + _ + _ ≤ _
          rw [List.count_singleton]; omega
      exact ⟨t, h1, h2⟩

end Sys2Proof.Machine
end

