-- ==== Sys2Proof/Laws/Tree.lean ====
section
/-! SUPPORT. The tree as an inductive value (10_state.md R28) and its codes (42_code_table.md R151, R154, R155). -/

namespace Sys2Proof.Machine

/-! ### `Tree(i)` in the node store -/

theorem nodeAt_congr {s t : State} (h : t.node = s.node) (i : NodeRef) : t.nodeAt i = s.nodeAt i := by
  simp [State.nodeAt, h]

theorem TreeAt.congr {s t : State} (h : t.node = s.node) {i : NodeRef} {tr : Tree} (ht : TreeAt s i tr) :
    TreeAt t i tr := by
  induction ht with
  | leaf at_i kind => exact .leaf ((nodeAt_congr h _).trans at_i) kind
  | internal at_i kind _ _ ihl ihr => exact .internal ((nodeAt_congr h _).trans at_i) kind ihl ihr

/-- `Tree(i)` is one tree (R28). -/
theorem TreeAt.unique {s : State} {i : NodeRef} {tr tr' : Tree} (h : TreeAt s i tr) (h' : TreeAt s i tr') :
    tr = tr' := by
  induction h generalizing tr' with
  | leaf at_i kind =>
    cases h' with
    | leaf at_i' kind' => obtain rfl := Option.some.inj (at_i.symm.trans at_i'); rfl
    | internal at_i' kind' =>
      obtain rfl := Option.some.inj (at_i.symm.trans at_i')
      rw [kind] at kind'; cases kind'
  | internal at_i kind _ _ ihl ihr =>
    cases h' with
    | leaf at_i' kind' =>
      obtain rfl := Option.some.inj (at_i.symm.trans at_i')
      rw [kind] at kind'; cases kind'
    | internal at_i' kind' hl hr =>
      obtain rfl := Option.some.inj (at_i.symm.trans at_i')
      rw [ihl hl, ihr hr]

/-- The node at the root of a tree. -/
theorem TreeAt.node {s : State} {i : NodeRef} {tr : Tree} (h : TreeAt s i tr) :
    ∃ nd, s.nodeAt i = some nd ∧ tr.weight = nd.weight := by
  cases h with
  | leaf at_i _ => exact ⟨_, at_i, rfl⟩
  | internal at_i _ _ _ => exact ⟨_, at_i, rfl⟩

/-- `NIL` is no node (R24). -/
theorem nodeAt_nil (s : State) : s.nodeAt nil = none := by
  simp [State.nodeAt, nil]

theorem nodeAt_eq_none {s : State} {i : NodeRef} : s.nodeAt i = none ↔ i = nil := by
  have := i.isLt
  unfold State.nodeAt nil
  rw [Vector.getElem?_eq_none_iff]
  constructor
  · intro h; apply BitVec.eq_of_toNat_eq; simp; omega
  · rintro rfl; simp

theorem TreeAt.ne_nil {s : State} {i : NodeRef} {tr : Tree} (h : TreeAt s i tr) : i ≠ nil := by
  obtain ⟨nd, hnd, -⟩ := h.node
  rintro rfl
  simp [nodeAt_nil] at hnd

/-! ### Codes -/

theorem Tree.codes_ne_nil (t : Tree) : t.codes ≠ [] := by
  induction t with
  | leaf b w => simp [Tree.codes]
  | internal w l r ihl _ => simp [Tree.codes, ihl]

/-- The symbols with a Code are the Leaves' symbols, in the same order. -/
theorem Tree.codes_symbols (t : Tree) : t.codes.map Prod.fst = t.leaves.map Prod.fst := by
  induction t with
  | leaf b w => rfl
  | internal w l r ihl ihr =>
    simp only [Tree.codes, Tree.leaves, List.map_append, List.map_map, ← ihl, ← ihr]
    rfl

theorem Tree.mem_codes_internal {w : Count} {l r : Tree} {e : Byte × List Bool} :
    e ∈ (Tree.internal w l r).codes ↔
      ∃ b q, e.2 = b :: q ∧ (e.1, q) ∈ (if b then r else l).codes := by
  obtain ⟨d, p⟩ := e
  simp only [Tree.codes, List.mem_append, List.mem_map, Prod.mk.injEq]
  constructor
  · rintro (⟨⟨d', q⟩, h, rfl, rfl⟩ | ⟨⟨d', q⟩, h, rfl, rfl⟩)
    · exact ⟨false, q, rfl, h⟩
    · exact ⟨true, q, rfl, h⟩
  · rintro ⟨b, q, rfl, h⟩
    cases b
    · exact .inl ⟨(d, q), h, rfl, rfl⟩
    · exact .inr ⟨(d, q), h, rfl, rfl⟩

/-- No Leaf's path is a prefix of another Leaf's (R154). -/
theorem Tree.codes_not_prefix (t : Tree) {e e' : Byte × List Bool} (he : e ∈ t.codes) (he' : e' ∈ t.codes)
    (hp : e.2 <+: e'.2) : e.2 = e'.2 := by
  induction t generalizing e e' with
  | leaf b w =>
    simp only [Tree.codes, List.mem_singleton] at he he'
    rw [he, he']
  | internal w l r ihl ihr =>
    obtain ⟨b, q, hq, hm⟩ := Tree.mem_codes_internal.mp he
    obtain ⟨b', q', hq', hm'⟩ := Tree.mem_codes_internal.mp he'
    rw [hq, hq'] at hp ⊢
    obtain ⟨hb, hpq⟩ := List.cons_prefix_cons.mp hp
    subst hb
    cases b
    · exact congrArg (false :: ·) (ihl (e := (e.1, q)) (e' := (e'.1, q')) (by simpa using hm) (by simpa using hm') hpq)
    · exact congrArg (true :: ·) (ihr (e := (e.1, q)) (e' := (e'.1, q')) (by simpa using hm) (by simpa using hm') hpq)

/-- Two Leaves with the same path are the same Leaf (R154). -/
theorem Tree.codes_unique (t : Tree) {e e' : Byte × List Bool} (he : e ∈ t.codes) (he' : e' ∈ t.codes)
    (hp : e.2 = e'.2) : e = e' := by
  induction t generalizing e e' with
  | leaf b w =>
    simp only [Tree.codes, List.mem_singleton] at he he'
    rw [he, he']
  | internal w l r ihl ihr =>
    obtain ⟨b, q, hq, hm⟩ := Tree.mem_codes_internal.mp he
    obtain ⟨b', q', hq', hm'⟩ := Tree.mem_codes_internal.mp he'
    rw [hq, hq'] at hp
    obtain ⟨rfl, rfl⟩ := List.cons.inj hp
    have : (e.1, q) = (e'.1, q) := by
      cases b
      · exact ihl (by simpa using hm) (by simpa using hm') rfl
      · exact ihr (by simpa using hm) (by simpa using hm') rfl
    exact Prod.ext (Prod.mk.inj this).1 (hq.trans hq'.symm)

theorem Tree.leaves_length_pos (t : Tree) : 1 ≤ t.leaves.length := by
  induction t with
  | leaf b w => simp [Tree.leaves]
  | internal w l r ihl _ => simp [Tree.leaves]; omega

/-- A root path is shorter than the number of Leaves (R155). -/
theorem Tree.codes_length (t : Tree) {e : Byte × List Bool} (he : e ∈ t.codes) : e.2.length < t.leaves.length := by
  induction t generalizing e with
  | leaf b w => simp only [Tree.codes, List.mem_singleton] at he; rw [he]; simp [Tree.leaves]
  | internal w l r ihl ihr =>
    obtain ⟨b, q, hq, hm⟩ := Tree.mem_codes_internal.mp he
    have hl := l.leaves_length_pos
    have hr := r.leaves_length_pos
    rw [hq, Tree.leaves, List.length_append, List.length_cons]
    cases b
    · have := ihl (e := (e.1, q)) (by simpa using hm); simp only at this; omega
    · have := ihr (e := (e.1, q)) (by simpa using hm); simp only at this; omega

/-- Every bit sequence with no Code as a prefix goes on to some Code: a step to either child exists everywhere (R193). -/
theorem Tree.extend_to_code (t : Tree) (part : List Bool) (h : ∀ e ∈ t.codes, ¬ e.2 <+: part) :
    ∃ d x, x ≠ [] ∧ (d, part ++ x) ∈ t.codes := by
  induction t generalizing part with
  | leaf b w => exact absurd (List.nil_prefix) (h (b, []) (by simp [Tree.codes]))
  | internal w l r ihl ihr =>
    cases part with
    | nil =>
      obtain ⟨e, he⟩ := List.exists_mem_of_ne_nil _ l.codes_ne_nil
      exact ⟨e.1, false :: e.2, by simp, Tree.mem_codes_internal.mpr ⟨false, e.2, rfl, by simpa using he⟩⟩
    | cons b part =>
      have hsub : ∀ e ∈ (if b then r else l).codes, ¬ e.2 <+: part := fun e he hp =>
        h (e.1, b :: e.2) (Tree.mem_codes_internal.mpr ⟨b, e.2, rfl, he⟩) (List.cons_prefix_cons.mpr ⟨rfl, hp⟩)
      obtain ⟨d, x, hx, hm⟩ : ∃ d x, x ≠ [] ∧ (d, part ++ x) ∈ (if b then r else l).codes := by
        cases b
        · exact ihl part (by simpa using hsub)
        · exact ihr part (by simpa using hsub)
      exact ⟨d, x, hx, Tree.mem_codes_internal.mpr ⟨b, part ++ x, rfl, hm⟩⟩

/-- The weight of a tree whose sums hold is the sum of its Leaves' weights (R28 (a), R137). -/
theorem Tree.weight_eq_sum (t : Tree) (h : t.SumsHold) : t.weight.toNat = (t.leaves.map fun e => e.2.toNat).sum := by
  induction t with
  | leaf b w => simp [Tree.weight, Tree.leaves]
  | internal w l r ihl ihr =>
    obtain ⟨h1, h2, h3⟩ := h
    simp only [Tree.weight, Tree.leaves, List.map_append, List.sum_append, ← ihl h2, ← ihr h3]
    exact h1

end Sys2Proof.Machine
end

