-- ==== Sys2Proof/Laws/KeyOrder.lean ====
section
/-! SUPPORT. The order on nodes (41_tree_builder.md R132): strict, transitive, total on nodes;
and the sorted list `ORD` (R134, R135). -/

namespace Sys2Proof.Machine

/-! ### Keys -/

theorem Key.before_iff {a b : Key} : a.before b = true ↔
    a.weight < b.weight ∨ a.weight = b.weight ∧ (a.tb < b.tb ∨ a.tb = b.tb ∧ a.seq < b.seq) := by
  simp [Key.before]

theorem Key.before_irrefl (a : Key) : a.before a = false := by
  rw [Bool.eq_false_iff]
  intro h
  rcases Key.before_iff.mp h with h | ⟨-, h | ⟨-, h⟩⟩ <;> omega

theorem Key.before_trans {a b c : Key} (h : a.before b = true) (h' : b.before c = true) : a.before c = true := by
  rw [Key.before_iff] at *
  omega

theorem Key.before_total {a b : Key} (h : ¬ (a.weight = b.weight ∧ a.tb = b.tb ∧ a.seq = b.seq)) :
    a.before b = !b.before a := by
  cases hba : b.before a
  · rw [Bool.not_false, Key.before_iff]
    rw [Bool.eq_false_iff, Ne, Key.before_iff] at hba
    omega
  · rw [Bool.not_true, Bool.eq_false_iff, Ne, Key.before_iff]
    rw [Key.before_iff] at hba
    omega

theorem tieBreak_leaf {nd : Node} (h : nd.kind = .leaf) : tieBreak nd = nd.sym.toNat := by simp [tieBreak, h]

theorem tieBreak_internal {nd : Node} (h : nd.kind = .internal) : tieBreak nd = -1 := by simp [tieBreak, h]

theorem seqOf_inj {eq : EqInternal} {i j : NodeRef} (h : seqOf eq i = seqOf eq j) : i = j := by
  apply BitVec.eq_of_toNat_eq
  cases eq <;> simp [seqOf] at h <;> omega

/-! ### `before` -/

theorem before_eq {s : State} {i j : NodeRef} {a b : Node} (ha : s.nodeAt i = some a) (hb : s.nodeAt j = some b) :
    s.before i j = (keyOf s.eqInternal i a).before (keyOf s.eqInternal j b) := by
  simp [State.before, ha, hb]

theorem before_irrefl (s : State) (i : NodeRef) : s.before i i = false := by
  unfold State.before
  split
  · next a b ha hb =>
    rw [ha] at hb
    cases hb
    exact Key.before_irrefl _
  · rfl

theorem before_nodes {s : State} {i j : NodeRef} (h : s.before i j = true) :
    ∃ a b, s.nodeAt i = some a ∧ s.nodeAt j = some b := by
  unfold State.before at h
  split at h
  · next a b ha hb => exact ⟨a, b, ha, hb⟩
  · cases h

theorem before_trans {s : State} {i j l : NodeRef} (h : s.before i j = true) (h' : s.before j l = true) :
    s.before i l = true := by
  obtain ⟨a, b, ha, hb⟩ := before_nodes h
  obtain ⟨-, c, -, hc⟩ := before_nodes h'
  rw [before_eq ha hb] at h
  rw [before_eq hb hc] at h'
  rw [before_eq ha hc]
  exact Key.before_trans h h'

/-- Of two different nodes one comes before the other (R132). -/
theorem before_total {s : State} {i j : NodeRef} {a b : Node} (ha : s.nodeAt i = some a) (hb : s.nodeAt j = some b)
    (hne : i ≠ j) : s.before i j = !s.before j i := by
  rw [before_eq ha hb, before_eq hb ha]
  apply Key.before_total
  rintro ⟨-, htb, hseq⟩
  exact hne (seqOf_inj hseq)

/-- `before` looks at two nodes and the parameter only. -/
theorem before_congr {s t : State} {i j : NodeRef} (he : t.eqInternal = s.eqInternal) (hi : t.nodeAt i = s.nodeAt i)
    (hj : t.nodeAt j = s.nodeAt j) : t.before i j = s.before i j := by
  simp [State.before, he, hi, hj]

/-! ### The sorted list -/

theorem insertOrd_perm (s : State) (n : NodeRef) (js : List NodeRef) : (insertOrd s n js).Perm (n :: js) := by
  induction js with
  | nil => exact .refl _
  | cons j js ih =>
    rw [insertOrd]
    split
    · exact .refl _
    · exact (ih.cons j).trans (.swap _ _ _)

/-- Insertion keeps the list sorted (R135). -/
theorem insertOrd_sorted {s : State} {n : NodeRef} {js : List NodeRef}
    (hs : js.Pairwise fun i j => s.before i j = true) (ht : ∀ j ∈ js, s.before n j = !s.before j n) :
    (insertOrd s n js).Pairwise fun i j => s.before i j = true := by
  induction js with
  | nil => exact List.pairwise_singleton _ _
  | cons j js ih =>
    rw [List.pairwise_cons] at hs
    rw [insertOrd]
    split
    · next h =>
      refine List.Pairwise.cons ?_ (List.pairwise_cons.mpr hs)
      intro x hx
      rcases List.mem_cons.mp hx with rfl | hx
      · exact h
      · exact before_trans h (hs.1 x hx)
    · next h =>
      refine List.Pairwise.cons ?_ (ih hs.2 fun x hx => ht x (List.mem_cons_of_mem _ hx))
      intro x hx
      rcases List.mem_cons.mp ((insertOrd_perm s n js).mem_iff.mp hx) with rfl | hx
      · have := ht j (by simp)
        cases hb : s.before j x
        · rw [hb] at this; exact absurd this h
        · rfl
      · exact hs.1 x hx

theorem foldr_insertOrd_perm (s : State) (l : List NodeRef) : (l.foldr (insertOrd s) []).Perm l := by
  induction l with
  | nil => exact .refl _
  | cons n l ih => exact (insertOrd_perm s n _).trans (ih.cons n)

/-- Sorting distinct nodes (R134). -/
theorem foldr_insertOrd_sorted {s : State} {l : List NodeRef}
    (ht : l.Pairwise fun i j => s.before i j = !s.before j i) :
    (l.foldr (insertOrd s) []).Pairwise fun i j => s.before i j = true := by
  induction l with
  | nil => exact .nil
  | cons n l ih =>
    rw [List.pairwise_cons] at ht
    exact insertOrd_sorted (ih ht.2) fun j hj => ht.1 j ((foldr_insertOrd_perm s l).mem_iff.mp hj)

theorem insertOrd_congr {s t : State} {n : NodeRef} {js : List NodeRef} (he : t.eqInternal = s.eqInternal)
    (h : ∀ j ∈ n :: js, t.nodeAt j = s.nodeAt j) : insertOrd t n js = insertOrd s n js := by
  induction js with
  | nil => rfl
  | cons j js ih =>
    have hn := h n (by simp)
    have hj := h j (by simp)
    rw [insertOrd, insertOrd, before_congr he hn hj, ih fun x hx => h x (by
      rcases List.mem_cons.mp hx with rfl | hx
      · simp
      · simp [hx])]

theorem foldr_insertOrd_congr {s t : State} {l : List NodeRef} (he : t.eqInternal = s.eqInternal)
    (h : ∀ j ∈ l, t.nodeAt j = s.nodeAt j) : l.foldr (insertOrd t) [] = l.foldr (insertOrd s) [] := by
  induction l with
  | nil => rfl
  | cons n l ih =>
    rw [List.foldr_cons, List.foldr_cons, ih fun j hj => h j (by simp [hj])]
    refine insertOrd_congr he fun j hj => ?_
    rcases List.mem_cons.mp hj with rfl | hj
    · exact h j (by simp)
    · exact h j (List.mem_cons_of_mem _ ((foldr_insertOrd_perm s l).mem_iff.mp hj))

end Sys2Proof.Machine
end

