-- ==== Sys2Proof/Laws/TreeBuilder.lean ====
section
/-! SUPPORT. The Tree Builder (41_tree_builder.md): the allocation of nodes, the invariant of the merge loop, and what `BUILD`
leaves (R133 to R138). -/

namespace Sys2Proof.Machine

/-! ### Allocation -/

theorem toNat_setWidth_nnode {s : State} (h : s.nnode.toNat < 511) : (s.nnode.setWidth 9).toNat = s.nnode.toNat := by
  simp; omega

theorem toNat_nnode_succ {n : BitVec 10} (h : n.toNat < 511) : (n + 1).toNat = n.toNat + 1 := by
  rw [BitVec.toNat_add]; simp; omega

theorem nodeAt_allocNode {s : State} (nd : Node) (h : s.nnode.toNat < 511) (j : NodeRef) :
    (s.allocNode nd).nodeAt j = if j.toNat = s.nnode.toNat then some nd else s.nodeAt j := by
  have hw := toNat_setWidth_nnode h
  simp only [State.nodeAt, State.allocNode, State.setNode, hw]
  rw [Vector.getElem?_setIfInBounds]
  simp only [eq_comm (a := j.toNat)]
  split
  · rfl
  · rfl

theorem nodeAt_allocNode_old {s : State} (nd : Node) (h : s.nnode.toNat < 511) {j : NodeRef}
    (hj : j.toNat < s.nnode.toNat) : (s.allocNode nd).nodeAt j = s.nodeAt j := by
  rw [nodeAt_allocNode nd h, if_neg (by omega)]

theorem nodeAt_allocNode_new {s : State} (nd : Node) (h : s.nnode.toNat < 511) :
    (s.allocNode nd).nodeAt (s.nnode.setWidth 9) = some nd := by
  rw [nodeAt_allocNode nd h, if_pos (toNat_setWidth_nnode h)]

theorem mem_allocated {s : State} (h : s.nnode.toNat ≤ 511) {j : NodeRef} : j ∈ s.allocated ↔ j.toNat < s.nnode.toNat := by
  simp only [State.allocated, List.mem_map, List.mem_range]
  constructor
  · rintro ⟨n, hn, rfl⟩; simp; omega
  · intro hj
    exact ⟨j.toNat, hj, by simp⟩

theorem allocated_nodup {s : State} (h : s.nnode.toNat ≤ 511) : s.allocated.Nodup := by
  refine List.Nodup.map_on ?_ List.nodup_range
  intro a ha b hb hab
  simp only [List.mem_range] at ha hb
  have := congrArg BitVec.toNat hab
  simp at this; omega

theorem allocated_allocNode {s : State} (nd : Node) (h : s.nnode.toNat < 511) :
    (s.allocNode nd).allocated = s.allocated ++ [s.nnode.setWidth 9] := by
  have h1 : (s.allocNode nd).nnode.toNat = s.nnode.toNat + 1 := toNat_nnode_succ h
  simp only [State.allocated, h1, List.range_succ, List.map_append, List.map_cons, List.map_nil]
  congr 2

theorem childrenOf_congr {s t : State} {i : NodeRef} (h : t.nodeAt i = s.nodeAt i) : t.childrenOf i = s.childrenOf i := by
  simp [State.childrenOf, h]

/-! ### The Leaves (R133) -/

theorem materialize_fold (l : List (Byte × Count)) (s : State) (h : s.nnode.toNat + l.length ≤ 511) :
    ∃ node nnode, l.foldl (fun t e => t.allocNode (leafNode e)) s = { s with node := node, nnode := nnode } ∧
      nnode.toNat = s.nnode.toNat + l.length ∧
      ∀ j : NodeRef, node[j.toNat]? =
        if j.toNat < s.nnode.toNat then s.nodeAt j
        else match l[j.toNat - s.nnode.toNat]? with
          | some e => some (leafNode e)
          | none => s.nodeAt j := by
  induction l generalizing s with
  | nil => exact ⟨s.node, s.nnode, rfl, rfl, fun j => by simp [State.nodeAt]⟩
  | cons e l ih =>
    rw [List.length_cons] at h
    have hlt : s.nnode.toNat < 511 := by omega
    have h1 : (s.allocNode (leafNode e)).nnode.toNat = s.nnode.toNat + 1 := toNat_nnode_succ hlt
    obtain ⟨node, nnode, he, hn, hj⟩ := ih (s.allocNode (leafNode e)) (by omega)
    refine ⟨node, nnode, by rw [List.foldl_cons, he]; rfl, by rw [hn, h1, List.length_cons]; omega, fun j => ?_⟩
    rw [hj j, h1, nodeAt_allocNode _ hlt]
    by_cases hlo : j.toNat < s.nnode.toNat
    · rw [if_pos (by omega), if_neg (by omega), if_pos hlo]
    · rw [if_neg hlo]
      by_cases heq : j.toNat = s.nnode.toNat
      · rw [if_pos (by omega), if_pos heq, heq, Nat.sub_self]; rfl
      · rw [if_neg (by omega), if_neg heq,
          show j.toNat - s.nnode.toNat = (j.toNat - (s.nnode.toNat + 1)) + 1 by omega, List.getElem?_cons_succ]

/-- `MaterializeLeaves()` (R133): the entries stand as Leaves at indices `0 .. k - 1`, in ascending symbol order. -/
theorem materializeLeaves_spec (s : State) :
    ∃ node nnode, materializeLeaves s = { s with node := node, nnode := nnode } ∧ nnode.toNat = s.k ∧
      ∀ (j : NodeRef) (e : Byte × Count), (tableEntries s.ft)[j.toNat]? = some e →
        node[j.toNat]? = some (leafNode e) := by
  have hk := k_le s
  obtain ⟨node, nnode, he, hn, hj⟩ := materialize_fold (tableEntries s.ft) { s with nnode := 0 } (by
    change (0 : BitVec 10).toNat + s.k ≤ 511; simp; omega)
  refine ⟨node, nnode, by rw [materializeLeaves, he], by rw [hn]; simp [State.k], fun j e hje => ?_⟩
  rw [hj j]
  simp [hje]

/-! ### The merge loop's invariant -/

/-- The node store of a table under construction (R133, R135): Leaves first, then Internal nodes, each after its children. -/
structure Layout (s : State) : Prop where
  enough : s.k ≤ s.nnode.toNat
  bound : s.nnode.toNat ≤ 511
  leaf : ∀ (j : NodeRef) (e : Byte × Count), (tableEntries s.ft)[j.toNat]? = some e → s.nodeAt j = some (leafNode e)
  internal : ∀ j : NodeRef, s.k ≤ j.toNat → j.toNat < s.nnode.toNat →
    ∃ w a b, s.nodeAt j = some (internalNode w a b) ∧ a.toNat < j.toNat ∧ b.toNat < j.toNat

/-- A merge takes the two lowest-ordered nodes (R135). -/
def LowestMerged (s : State) : Prop :=
  ∀ (i : NodeRef) (nd : Node), i.toNat < s.nnode.toNat → s.nodeAt i = some nd → nd.kind = .internal →
    s.before nd.left nd.right = true ∧
    ∀ j : NodeRef, j.toNat < i.toNat → j ≠ nd.left → j ≠ nd.right →
      (∀ i' : NodeRef, i'.toNat < i.toNat → j ∉ s.childrenOf i') → s.before nd.right j = true

/-- What holds whenever control is at the head of the merge loop. -/
structure Merging (s : State) (ord : List NodeRef) : Prop where
  layout : Layout s
  count : s.nnode.toNat + ord.length = 2 * s.k
  nonempty : ord ≠ []
  sorted : ord.Pairwise fun i j => s.before i j = true
  owned : (ord ++ s.childRefs).Perm s.allocated
  forest : ∃ f, List.Forall₂ (TreeAt s) ord f ∧ (∀ tr ∈ f, tr.SumsHold) ∧
    (f.flatMap Tree.leaves).Perm (tableEntries s.ft)
  lowest : LowestMerged s

theorem Layout.leaf_of_lt {s : State} (h : Layout s) {j : NodeRef} (hj : j.toNat < s.k) :
    ∃ e, (tableEntries s.ft)[j.toNat]? = some e ∧ s.nodeAt j = some (leafNode e) := by
  have : j.toNat < (tableEntries s.ft).length := hj
  exact ⟨_, List.getElem?_eq_getElem this, h.leaf j _ (List.getElem?_eq_getElem this)⟩

theorem Layout.node {s : State} (h : Layout s) {j : NodeRef} (hj : j.toNat < s.nnode.toNat) :
    ∃ nd, s.nodeAt j = some nd := by
  by_cases hk : j.toNat < s.k
  · obtain ⟨e, -, he⟩ := h.leaf_of_lt hk
    exact ⟨_, he⟩
  · obtain ⟨w, a, b, hw, -⟩ := h.internal j (by omega) hj
    exact ⟨_, hw⟩

/-- The children of an allocated node are allocated before it. -/
theorem Layout.children {s : State} (h : Layout s) {j c : NodeRef} (hj : j.toNat < s.nnode.toNat)
    (hc : c ∈ s.childrenOf j) : c.toNat < j.toNat := by
  by_cases hk : j.toNat < s.k
  · obtain ⟨e, -, he⟩ := h.leaf_of_lt hk
    simp [State.childrenOf, he, leafNode] at hc
  · obtain ⟨w, a, b, hw, ha, hb⟩ := h.internal j (by omega) hj
    simp [State.childrenOf, hw, internalNode] at hc
    rcases hc with rfl | rfl <;> assumption

theorem Layout.internal_children {s : State} (h : Layout s) {j : NodeRef} {nd : Node} (hj : j.toNat < s.nnode.toNat)
    (hnd : s.nodeAt j = some nd) (hk : nd.kind = .internal) : nd.left.toNat < j.toNat ∧ nd.right.toNat < j.toNat := by
  have hc : s.childrenOf j = [nd.left, nd.right] := by simp [State.childrenOf, hnd, hk]
  exact ⟨h.children hj (by simp [hc]), h.children hj (by simp [hc])⟩

/-- A later allocation leaves a tree of allocated nodes as it was. -/
theorem Layout.treeAt {s t : State} (h : Layout s) (ht : ∀ j : NodeRef, j.toNat < s.nnode.toNat → t.nodeAt j = s.nodeAt j)
    {i : NodeRef} {tr : Tree} (hi : i.toNat < s.nnode.toNat) (hat : TreeAt s i tr) : TreeAt t i tr := by
  induction hat with
  | leaf at_i kind => exact .leaf ((ht _ hi).trans at_i) kind
  | internal at_i kind _ _ ihl ihr =>
    obtain ⟨hl, hr⟩ := h.internal_children hi at_i kind
    exact .internal ((ht _ hi).trans at_i) kind (ihl (by omega)) (ihr (by omega))

theorem Layout.total {s : State} (h : Layout s) {i j : NodeRef} (hi : i.toNat < s.nnode.toNat)
    (hj : j.toNat < s.nnode.toNat) (hne : i ≠ j) : s.before i j = !s.before j i := by
  obtain ⟨a, ha⟩ := h.node hi
  obtain ⟨b, hb⟩ := h.node hj
  exact before_total ha hb hne

theorem Merging.mem_ord {s : State} {ord : List NodeRef} (h : Merging s ord) {j : NodeRef} (hj : j ∈ ord) :
    j.toNat < s.nnode.toNat :=
  (mem_allocated h.layout.bound).mp (h.owned.mem_iff.mp (List.mem_append_left _ hj))

/-- The weight of the forest is that of the table (R137). -/
theorem forest_weight {s : State} {f : List Tree} (hs : ∀ tr ∈ f, tr.SumsHold)
    (hl : (f.flatMap Tree.leaves).Perm (tableEntries s.ft)) : (f.map fun tr => tr.weight.toNat).sum = s.totalFT := by
  rw [← sum_tableEntries, ← (hl.map _).sum_eq]
  clear hl
  induction f with
  | nil => rfl
  | cons tr f ih =>
    rw [List.map_cons, List.sum_cons, List.flatMap_cons, List.map_append, List.sum_append,
      ih fun x hx => hs x (List.mem_cons_of_mem _ hx), tr.weight_eq_sum (hs tr (by simp))]

/-! ### One merge (R135) -/

theorem Merging.step {s : State} {a b : NodeRef} {rest : List NodeRef} {na nb : Node} (h : Merging s (a :: b :: rest))
    (ha : s.nodeAt a = some na) (hb : s.nodeAt b = some nb)
    (hw : na.weight.toNat + nb.weight.toNat ≤ Config.maxCount) :
    Merging (s.allocNode (internalNode (na.weight.toNat + nb.weight.toNat) a b))
      (insertOrd (s.allocNode (internalNode (na.weight.toNat + nb.weight.toNat) a b)) (s.nnode.setWidth 9) rest) := by
  have hk := k_le s
  have hcount := h.count
  simp only [List.length_cons] at hcount
  have hlt : s.nnode.toNat < 511 := by omega
  have haL := h.mem_ord (j := a) (by simp)
  have hbL := h.mem_ord (j := b) (by simp)
  have hnew := toNat_setWidth_nnode hlt
  generalize hW : na.weight.toNat + nb.weight.toNat = W at *
  have hnl : (internalNode W a b).left = a := rfl
  have hnr : (internalNode W a b).right = b := rfl
  have hnk : (internalNode W a b).kind = .internal := rfl
  have hnw : (internalNode W a b).weight = BitVec.ofNat 32 W := rfl
  generalize hnd : internalNode W a b = nd at *
  have hold : ∀ j : NodeRef, j.toNat < s.nnode.toNat → (s.allocNode nd).nodeAt j = s.nodeAt j :=
    fun j hj => nodeAt_allocNode_old nd hlt hj
  have hnn : (s.allocNode nd).nnode.toNat = s.nnode.toNat + 1 := toNat_nnode_succ hlt
  have hkk : (s.allocNode nd).k = s.k := rfl
  have hbef : ∀ i j : NodeRef, i.toNat < s.nnode.toNat → j.toNat < s.nnode.toNat →
      (s.allocNode nd).before i j = s.before i j := fun i j hi hj => before_congr rfl (hold i hi) (hold j hj)
  have hch : ∀ j : NodeRef, j.toNat < s.nnode.toNat → (s.allocNode nd).childrenOf j = s.childrenOf j :=
    fun j hj => childrenOf_congr (hold j hj)
  have hchNew : (s.allocNode nd).childrenOf (s.nnode.setWidth 9) = [a, b] := by
    simp [State.childrenOf, nodeAt_allocNode_new nd hlt, hnl, hnr, hnk]
  have hrefs : (s.allocNode nd).childRefs = s.childRefs ++ [a, b] := by
    simp only [State.childRefs, allocated_allocNode nd hlt, List.flatMap_append, List.flatMap_cons, List.flatMap_nil,
      hchNew, List.append_nil]
    congr 1
    apply List.flatMap_congr
    intro j hj
    exact hch j ((mem_allocated h.layout.bound).mp hj)
  have hrest : ∀ j ∈ rest, j.toNat < s.nnode.toNat := fun j hj => h.mem_ord (by simp [hj])
  have hlay : Layout (s.allocNode nd) := by
    refine ⟨?_, by omega, ?_, ?_⟩
    · rw [hkk, hnn]; have := h.layout.enough; omega
    · intro j e hje
      have hjk : j.toNat < s.k := (List.getElem?_eq_some_iff.mp hje).1
      rw [hold j (by have := h.layout.enough; omega)]
      exact h.layout.leaf j e hje
    · intro j hj1 hj2
      rw [hnn] at hj2
      by_cases hlo : j.toNat < s.nnode.toNat
      · rw [hold j hlo]
        exact h.layout.internal j hj1 hlo
      · have : j = s.nnode.setWidth 9 := BitVec.eq_of_toNat_eq (by omega)
        subst this
        exact ⟨W, a, b, by rw [nodeAt_allocNode_new nd hlt, hnd], by omega, by omega⟩
  have hperm := insertOrd_perm (s.allocNode nd) (s.nnode.setWidth 9) rest
  have hs := h.sorted
  rw [List.pairwise_cons, List.pairwise_cons] at hs
  refine ⟨hlay, ?_, ?_, ?_, ?_, ?_, ?_⟩
  · rw [hnn, hperm.length_eq, List.length_cons, hkk]; omega
  · intro hnil
    have := hperm.length_eq
    rw [hnil] at this
    simp at this
  · apply insertOrd_sorted
    · refine hs.2.2.imp_of_mem fun {i j} hi hj hij => ?_
      rw [hbef i j (hrest i hi) (hrest j hj)]; exact hij
    · intro j hj
      have := hrest j hj
      exact hlay.total (by omega) (by omega) (by rintro rfl; omega)
  · rw [hrefs, allocated_allocNode nd hlt]
    refine List.Perm.trans ?_ (h.owned.append_right [s.nnode.setWidth 9])
    refine (hperm.append_right _).trans ?_
    simp only [List.cons_append, List.append_assoc]
    refine List.Perm.trans ?_ (List.perm_append_comm (l₁ := [s.nnode.setWidth 9])
      (l₂ := a :: b :: (rest ++ s.childRefs))).symm.symm |>.trans ?_
    · rw [List.singleton_append]
      refine List.Perm.cons _ ?_
      rw [← List.append_assoc]
      exact List.perm_append_comm
    · simp
  · obtain ⟨f, hf, hsum, hl⟩ := h.forest
    cases hf with
    | @cons _ ta _ f1 hta hf1 =>
    cases hf1 with
    | @cons _ tb _ f2 htb hf2 =>
    obtain ⟨na', hna', hwa⟩ := hta.node
    obtain ⟨nb', hnb', hwb⟩ := htb.node
    obtain rfl : na = na' := Option.some.inj (ha.symm.trans hna')
    obtain rfl : nb = nb' := Option.some.inj (hb.symm.trans hnb')
    have hkeep : ∀ {j : NodeRef} {tr : Tree}, j.toNat < s.nnode.toNat → TreeAt s j tr → TreeAt (s.allocNode nd) j tr :=
      fun hj hat => h.layout.treeAt hold hj hat
    have hTnew : TreeAt (s.allocNode nd) (s.nnode.setWidth 9) (.internal (BitVec.ofNat 32 W) ta tb) := by
      rw [← hnw]
      exact .internal (nodeAt_allocNode_new nd hlt) hnk (hnl ▸ hkeep haL hta) (hnr ▸ hkeep hbL htb)
    have hrestF : List.Forall₂ (TreeAt (s.allocNode nd)) rest f2 := by
      have : ∀ (l : List NodeRef) (g : List Tree), (∀ j ∈ l, j.toNat < s.nnode.toNat) → List.Forall₂ (TreeAt s) l g →
          List.Forall₂ (TreeAt (s.allocNode nd)) l g := by
        intro l g hl hfg
        induction hfg with
        | nil => exact .nil
        | cons hx _ ih => exact .cons (hkeep (hl _ (by simp)) hx) (ih fun j hj => hl j (by simp [hj]))
      exact this rest f2 hrest hf2
    obtain ⟨g, hg1, hg2⟩ : ∃ g, List.Forall₂ (TreeAt (s.allocNode nd))
        (insertOrd (s.allocNode nd) (s.nnode.setWidth 9) rest) g ∧
        g.Perm (.internal (BitVec.ofNat 32 W) ta tb :: f2) := by
      have := List.perm_comp_forall₂ hperm (List.Forall₂.cons hTnew hrestF)
      obtain ⟨g, hg1, hg2⟩ := this
      exact ⟨g, hg1, hg2⟩
    refine ⟨g, hg1, ?_, ?_⟩
    · intro tr htr
      rcases List.mem_cons.mp (hg2.mem_iff.mp htr) with rfl | htr
      · refine ⟨?_, hsum ta (by simp), hsum tb (by simp)⟩
        rw [BitVec.toNat_ofNat, hwa, hwb, hW]
        unfold Config.maxCount at hw
        omega
      · exact hsum tr (by simp [htr])
    · refine (hg2.flatMap_right _).trans ?_
      have : (Tree.internal (BitVec.ofNat 32 W) ta tb :: f2).flatMap Tree.leaves =
          (ta :: tb :: f2).flatMap Tree.leaves := by
        simp [Tree.leaves]
      rw [this]
      exact hl
  · intro i x hi hx hkx
    rw [hnn] at hi
    by_cases hlo : i.toNat < s.nnode.toNat
    · rw [hold i hlo] at hx
      obtain ⟨hl1, hl2⟩ := h.layout.internal_children hlo hx hkx
      obtain ⟨h1, h2⟩ := h.lowest i x hlo hx hkx
      refine ⟨by rw [hbef _ _ (by omega) (by omega)]; exact h1, fun j hj hjl hjr hno => ?_⟩
      rw [hbef _ _ (by omega) (by omega)]
      refine h2 j hj hjl hjr fun i' hi' hmem => hno i' hi' ?_
      rw [hch i' (by omega)]; exact hmem
    · have : i = s.nnode.setWidth 9 := BitVec.eq_of_toNat_eq (by omega)
      subst this
      rw [nodeAt_allocNode_new nd hlt] at hx
      obtain rfl := Option.some.inj hx
      rw [hnl, hnr]
      refine ⟨(hbef a b haL hbL).trans (hs.1 b (by simp)), fun j hj hjl hjr hno => ?_⟩
      have hjs : j.toNat < s.nnode.toNat := by omega
      refine (hbef b j hbL hjs).trans ?_
      have hjm : j ∈ a :: b :: rest ++ s.childRefs :=
        h.owned.mem_iff.mpr ((mem_allocated h.layout.bound).mpr hjs)
      rcases List.mem_append.mp hjm with hjo | hjc
      · simp only [List.mem_cons] at hjo
        rcases hjo with rfl | rfl | hjo
        · exact absurd rfl hjl
        · exact absurd rfl hjr
        · exact hs.2.1 j hjo
      · obtain ⟨i', hi', hmem⟩ := List.mem_flatMap.mp hjc
        have hi'' := (mem_allocated h.layout.bound).mp hi'
        refine absurd ?_ (hno i' (by omega))
        rw [hch i' hi'']
        exact hmem

/-! ### The whole of `BUILD` -/

/-- States that agree on the table and the tree registers. -/
structure SameTables (s t : State) : Prop where
  ft : t.ft = s.ft
  node : t.node = s.node
  nnode : t.nnode = s.nnode
  root : t.root = s.root
  total : t.total = s.total

theorem SameTables.nodeAt {s t : State} (h : SameTables s t) (i : NodeRef) : t.nodeAt i = s.nodeAt i :=
  nodeAt_congr h.node i

theorem SameTables.childRefs {s t : State} (h : SameTables s t) : t.childRefs = s.childRefs := by
  simp only [State.childRefs, State.allocated, h.nnode]
  exact List.flatMap_congr fun j _ => childrenOf_congr (h.nodeAt j)

theorem TreeOf.congr {s t : State} {tr : Tree} (h : SameTables s t) (ht : TreeOf s tr) : TreeOf t tr where
  at_root := by rw [h.root]; exact ht.at_root.congr h.node
  sums := ht.sums
  owned := by rw [h.root, h.childRefs, State.allocated, h.nnode]; exact ht.owned
  leaves := by rw [h.ft]; exact ht.leaves
  nonempty := by rw [k_congr h.ft]; exact ht.nonempty
  nnode := by rw [k_congr h.ft, h.nnode]; exact ht.nnode
  root := by rw [k_congr h.ft, h.root]; exact ht.root
  total := by rw [totalFT_congr h.ft, h.total]; exact ht.total

theorem Layout.congr {s t : State} (hft : t.ft = s.ft) (hnode : t.node = s.node) (hnn : t.nnode = s.nnode)
    (h : Layout s) : Layout t where
  enough := by rw [k_congr hft, hnn]; exact h.enough
  bound := by rw [hnn]; exact h.bound
  leaf := by intro j e hj; rw [nodeAt_congr hnode]; rw [hft] at hj; exact h.leaf j e hj
  internal := by
    intro j hj1 hj2
    rw [nodeAt_congr hnode]
    rw [k_congr hft] at hj1
    rw [hnn] at hj2
    exact h.internal j hj1 hj2

theorem LowestMerged.congr {s t : State} (hnode : t.node = s.node) (hnn : t.nnode = s.nnode)
    (he : t.eqInternal = s.eqInternal) (h : LowestMerged s) : LowestMerged t := by
  intro i nd hi hnd hk
  rw [hnn] at hi
  rw [nodeAt_congr hnode] at hnd
  obtain ⟨h1, h2⟩ := h i nd hi hnd hk
  have hb : ∀ i j, t.before i j = s.before i j := fun i j =>
    before_congr he (nodeAt_congr hnode i) (nodeAt_congr hnode j)
  refine ⟨(hb _ _).trans h1, fun j hj hjl hjr hno => (hb _ _).trans (h2 j hj hjl hjr fun i' hi' hm => hno i' hi' ?_)⟩
  rw [childrenOf_congr (nodeAt_congr hnode i')]
  exact hm

/-- What a `BUILD` that completes leaves in the node store (R133 to R137). -/
structure Built (t : State) : Prop where
  layout : Layout t
  lowest : LowestMerged t
  tree : ∃ tr, TreeOf t tr

theorem Built.congr {s t : State} (h : SameTables s t) (he : t.eqInternal = s.eqInternal) (hb : Built s) : Built t where
  layout := hb.layout.congr h.ft h.node h.nnode
  lowest := hb.lowest.congr h.node h.nnode he
  tree := hb.tree.elim fun tr htr => ⟨tr, htr.congr h⟩

/-- One node left: it is the last one allocated, and the tree is its (R26 to R28). -/
theorem Merging.root {s : State} {r : NodeRef} {nd : Node} (h : Merging s [r]) (hr : s.nodeAt r = some nd) :
    s.totalFT ≤ Config.maxCount ∧ Built { s with root := r, total := nd.weight } := by
  have hk := k_le s
  have hcount := h.count
  simp only [List.length_singleton] at hcount
  have hrL := h.mem_ord (j := r) (by simp)
  obtain ⟨f, hf, hsum, hl⟩ := h.forest
  cases hf with
  | @cons _ tr _ f' htr hf' =>
  cases hf'
  have hwt := forest_weight hsum hl
  simp only [List.map_cons, List.map_nil, List.sum_cons, List.sum_nil, Nat.add_zero] at hwt
  obtain ⟨nd', hnd', hw⟩ := htr.node
  obtain rfl := Option.some.inj (hr.symm.trans hnd')
  rw [hw] at hwt
  have hroot : r.toNat = s.nnode.toNat - 1 := by
    have hlast : (BitVec.ofNat 9 (s.nnode.toNat - 1)).toNat = s.nnode.toNat - 1 := by simp; omega
    have hmem : BitVec.ofNat 9 (s.nnode.toNat - 1) ∈ [r] ++ s.childRefs :=
      h.owned.mem_iff.mpr ((mem_allocated h.layout.bound).mpr (by omega))
    rcases List.mem_append.mp hmem with hm | hm
    · rw [← List.mem_singleton.mp hm, hlast]
    · obtain ⟨i', hi', hc⟩ := List.mem_flatMap.mp hm
      have hi'' := (mem_allocated h.layout.bound).mp hi'
      have := h.layout.children hi'' hc
      omega
  refine ⟨?_, .congr (s := s) rfl rfl rfl h.layout, .congr (s := s) rfl rfl rfl h.lowest, tr, ?_⟩
  · have := nd.weight.isLt
    unfold Config.maxCount
    omega
  · exact {
      at_root := TreeAt.congr (s := s) (t := { s with root := r, total := nd.weight }) rfl htr
      sums := hsum tr (by simp)
      owned := h.owned
      leaves := by simpa using hl
      nonempty := by change 1 ≤ s.k; omega
      nnode := by change s.nnode.toNat = 2 * s.k - 1; omega
      root := by change r.toNat = 2 * s.k - 2; omega
      total := hwt }

/-- Everything the merge loop can do from its invariant (R135, R137). -/
theorem mergeLoop_spec (n : Nat) (ord : List NodeRef) (s : State) (h : Merging s ord) (hn : ord.length ≤ n + 1) :
    (Config.maxCount < s.totalFT ∧ ∃ node nnode, mergeLoop n ord s = .raised .ovf { s with node := node, nnode := nnode }) ∨
    (s.totalFT ≤ Config.maxCount ∧ ∃ node nnode root total,
      mergeLoop n ord s =
        .done (State.setTreev { s with node := node, nnode := nnode, root := root, total := total } true) ∧
      Built { s with node := node, nnode := nnode, root := root, total := total }) := by
  induction n generalizing ord s with
  | zero =>
    match ord, h with
    | [], h => exact absurd rfl h.nonempty
    | [r], h =>
      obtain ⟨nd, hnd⟩ := h.layout.node (h.mem_ord (j := r) (by simp))
      obtain ⟨h1, h2⟩ := h.root hnd
      exact .inr ⟨h1, s.node, s.nnode, r, nd.weight, by simp [mergeLoop, takeRoot, hnd], h2⟩
    | _ :: _ :: _, h => simp at hn
  | succ n ih =>
    match ord, h with
    | [], h => exact absurd rfl h.nonempty
    | [r], h =>
      obtain ⟨nd, hnd⟩ := h.layout.node (h.mem_ord (j := r) (by simp))
      obtain ⟨h1, h2⟩ := h.root hnd
      exact .inr ⟨h1, s.node, s.nnode, r, nd.weight, by simp [mergeLoop, takeRoot, hnd], h2⟩
    | a :: b :: rest, h =>
      obtain ⟨na, hna⟩ := h.layout.node (h.mem_ord (j := a) (by simp))
      obtain ⟨nb, hnb⟩ := h.layout.node (h.mem_ord (j := b) (by simp))
      by_cases hw : na.weight.toNat + nb.weight.toNat > Config.maxCount
      · refine .inl ⟨?_, s.node, s.nnode, by simp [mergeLoop, hna, hnb, hw]⟩
        obtain ⟨f, hf, hsum, hl⟩ := h.forest
        cases hf with
        | @cons _ ta _ f1 hta hf1 =>
        cases hf1 with
        | @cons _ tb _ f2 htb hf2 =>
        have hwt := forest_weight hsum hl
        obtain ⟨na', hna', hwa⟩ := hta.node
        obtain ⟨nb', hnb', hwb⟩ := htb.node
        obtain rfl : na = na' := Option.some.inj (hna.symm.trans hna')
        obtain rfl : nb = nb' := Option.some.inj (hnb.symm.trans hnb')
        simp only [List.map_cons, List.sum_cons] at hwt
        rw [hwa, hwb] at hwt
        omega
      · have hstep := h.step hna hnb (Nat.not_lt.mp hw)
        have hlen : (insertOrd (s.allocNode (internalNode (na.weight.toNat + nb.weight.toNat) a b))
            (s.nnode.setWidth 9) rest).length ≤ n + 1 := by
          rw [(insertOrd_perm _ _ _).length_eq]; simpa using hn
        have hgo : mergeLoop (n + 1) (a :: b :: rest) s =
            mergeLoop n (insertOrd (s.allocNode (internalNode (na.weight.toNat + nb.weight.toNat) a b))
              (s.nnode.setWidth 9) rest) (s.allocNode (internalNode (na.weight.toNat + nb.weight.toNat) a b)) := by
          simp [mergeLoop, hna, hnb, hw]
        rw [hgo]
        rcases ih _ _ hstep hlen with ⟨h1, node, nnode, h2⟩ | ⟨h1, node, nnode, root, total, h2, h3⟩
        · exact .inl ⟨h1, node, nnode, h2⟩
        · exact .inr ⟨h1, node, nnode, root, total, h2, h3⟩

/-- The invariant holds at the head of the merge loop (R133, R134). -/
theorem merging_start {s : State} {node : Vector Node 511} {nnode : BitVec 10} (hk : s.k ≠ 0) (hn : nnode.toNat = s.k)
    (hj : ∀ (j : NodeRef) (e : Byte × Count), (tableEntries s.ft)[j.toNat]? = some e →
      node[j.toNat]? = some (leafNode e)) :
    Merging { s with node := node, nnode := nnode } (sortLeaves { s with node := node, nnode := nnode }) := by
  have hk256 := k_le s
  generalize ht : ({ s with node := node, nnode := nnode } : State) = t
  have hft : t.ft = s.ft := by rw [← ht]
  have htk : t.k = s.k := k_congr hft
  have htn : t.nnode.toNat = s.k := by rw [← ht]; exact hn
  have hlay : Layout t := by
    refine ⟨by omega, by omega, ?_, fun j h1 h2 => by omega⟩
    intro j e hje
    rw [hft] at hje
    rw [← ht]
    exact hj j e hje
  have hb := hlay.bound
  have hperm : (sortLeaves t).Perm t.allocated := foldr_insertOrd_perm t t.allocated
  have hlen : (sortLeaves t).length = s.k := by
    rw [hperm.length_eq]; simp [State.allocated, htn]
  have hleaf : ∀ j ∈ t.allocated, ∃ e, (tableEntries t.ft)[j.toNat]? = some e ∧ t.nodeAt j = some (leafNode e) :=
    fun j hj => hlay.leaf_of_lt (by have := (mem_allocated hb).mp hj; omega)
  have hchild : t.childRefs = [] := by
    rw [State.childRefs, List.flatMap_eq_nil_iff]
    intro j hj
    obtain ⟨e, -, he⟩ := hleaf j hj
    simp [State.childrenOf, he, leafNode]
  refine ⟨hlay, by rw [hlen]; omega, ?_, ?_, by rw [hchild, List.append_nil]; exact hperm, ?_, ?_⟩
  · intro h
    rw [h] at hlen
    simp at hlen; omega
  · apply foldr_insertOrd_sorted
    refine (allocated_nodup hb).imp_of_mem fun {i j} hi hj hne => ?_
    exact hlay.total ((mem_allocated hb).mp hi) ((mem_allocated hb).mp hj) hne
  · refine ⟨(sortLeaves t).map fun j => match t.nodeAt j with
      | some nd => .leaf nd.sym nd.weight
      | none => .leaf 0 0, ?_, ?_, ?_⟩
    · rw [List.forall₂_map_right_iff, List.forall₂_same]
      intro j hj
      obtain ⟨e, -, he⟩ := hleaf j (hperm.mem_iff.mp hj)
      simp only [he]
      exact .leaf he rfl
    · intro tr htr
      obtain ⟨j, -, rfl⟩ := List.mem_map.mp htr
      cases t.nodeAt j <;> trivial
    · refine ((hperm.map _).flatMap_right _).trans ?_
      have hent : (t.allocated.map fun j => match t.nodeAt j with
          | some nd => Tree.leaf nd.sym nd.weight
          | none => Tree.leaf 0 0) = (tableEntries t.ft).map fun e => Tree.leaf e.1 e.2 := by
        have hlenE : (tableEntries t.ft).length = s.k := htk
        apply List.ext_getElem
        · simp [State.allocated, htn, hlenE]
        · intro m h1 h2
          have hm : m < s.k := by simpa [State.allocated, htn] using h1
          have hm9 : (BitVec.ofNat 9 m).toNat = m := by simp; omega
          obtain ⟨e, he1, he2⟩ := hlay.leaf_of_lt (j := BitVec.ofNat 9 m) (by omega)
          rw [hm9, List.getElem?_eq_some_iff] at he1
          obtain ⟨hlt, he1⟩ := he1
          simp [State.allocated, he2, leafNode, he1]
      rw [hent]
      simp [List.flatMap_map, Tree.leaves]
  · intro i nd hi hnd hkind
    obtain ⟨e, -, he⟩ := hleaf i ((mem_allocated hb).mpr hi)
    rw [he] at hnd
    cases hnd
    cases hkind

/-- Everything `BUILD` can do on a table that is not empty (R130, R137). -/
theorem buildBody_spec {s : State} (hk : s.k ≠ 0) :
    (Config.maxCount < s.totalFT ∧ ∃ node nnode,
      buildBody s = .raised .ovf { s.dropDerived with node := node, nnode := nnode }) ∨
    (s.totalFT ≤ Config.maxCount ∧ ∃ node nnode root total,
      buildBody s = .done (State.setTreev
        { s.dropDerived with node := node, nnode := nnode, root := root, total := total } true) ∧
      Built { s with node := node, nnode := nnode, root := root, total := total }) := by
  obtain ⟨node, nnode, he, hn, hj⟩ := materializeLeaves_spec s.dropDerived
  have hm := merging_start (s := s.dropDerived) hk hn hj
  have hlen : (sortLeaves { s.dropDerived with node := node, nnode := nnode }).length ≤ s.k + 1 := by
    rw [sortLeaves, (foldr_insertOrd_perm _ _).length_eq]
    simp [State.allocated, hn, State.k]
  have hgo : buildBody s = mergeLoop s.k (sortLeaves { s.dropDerived with node := node, nnode := nnode })
      { s.dropDerived with node := node, nnode := nnode } := by
    rw [buildBody, if_neg hk]
    simp only [he]
  rw [hgo]
  rcases mergeLoop_spec s.k _ _ hm hlen with ⟨h1, node', nnode', h2⟩ | ⟨h1, node', nnode', root, total, h2, h3⟩
  · exact .inl ⟨h1, node', nnode', h2⟩
  · exact .inr ⟨h1, node', nnode', root, total, h2, .congr (s := { s.dropDerived with
      node := node', nnode := nnode', root := root, total := total }) ⟨rfl, rfl, rfl, rfl, rfl⟩ rfl h3⟩

theorem buildBody_empty {s : State} (hk : s.k = 0) : buildBody s = .raised .seq s.dropDerived := by
  rw [buildBody, if_pos hk]

/-! ### `BUILD` looks at the table and the parameter only (R138) -/

/-- States with the same parameter and the same allocated nodes. -/
structure SameAllocated (s t : State) : Prop where
  eq : t.eqInternal = s.eqInternal
  nnode : t.nnode = s.nnode
  nodes : ∀ j : NodeRef, j.toNat < s.nnode.toNat → t.nodeAt j = s.nodeAt j

/-- Two flows that end alike, with the same tree where they complete. -/
def SameBuild : Flow → Flow → Prop
  | .done u, .done v => SameAllocated u v ∧ v.root = u.root ∧ v.total = u.total
  | .raised e _, .raised e' _ => e' = e
  | .stuck r, .stuck r' => r' = r
  | _, _ => False

theorem SameAllocated.allocNode {s t : State} (h : SameAllocated s t) (nd : Node) (hlt : s.nnode.toNat < 511) :
    SameAllocated (s.allocNode nd) (t.allocNode nd) where
  eq := h.eq
  nnode := congrArg (· + 1) h.nnode
  nodes := by
    intro j hj
    have hnn : (s.allocNode nd).nnode.toNat = s.nnode.toNat + 1 := toNat_nnode_succ hlt
    rw [hnn] at hj
    rw [nodeAt_allocNode nd hlt, nodeAt_allocNode nd (by rw [h.nnode]; exact hlt), h.nnode]
    split
    · rfl
    · exact h.nodes j (by omega)

theorem takeRoot_congr {s t : State} (h : SameAllocated s t) {r : NodeRef} (hr : r.toNat < s.nnode.toNat) :
    SameBuild (takeRoot r s) (takeRoot r t) := by
  rw [takeRoot, takeRoot, h.nodes r hr]
  cases s.nodeAt r with
  | none => rfl
  | some nd => exact ⟨⟨h.eq, h.nnode, h.nodes⟩, rfl, rfl⟩

theorem mergeLoop_congr (n : Nat) (ord : List NodeRef) (s t : State) (h : SameAllocated s t)
    (hord : ∀ j ∈ ord, j.toNat < s.nnode.toNat) (hlt : s.nnode.toNat + ord.length ≤ 512) :
    SameBuild (mergeLoop n ord s) (mergeLoop n ord t) := by
  induction n generalizing ord s t with
  | zero =>
    match ord with
    | [] => rfl
    | [r] => exact takeRoot_congr h (hord r (by simp))
    | _ :: _ :: _ => rfl
  | succ n ih =>
    match ord with
    | [] => rfl
    | [r] => exact takeRoot_congr h (hord r (by simp))
    | a :: b :: rest =>
      rw [mergeLoop, mergeLoop, h.nodes a (hord a (by simp)), h.nodes b (hord b (by simp))]
      cases ha : s.nodeAt a with
      | none => rfl
      | some na =>
        cases hb : s.nodeAt b with
        | none => rfl
        | some nb =>
          simp only
          split
          · rfl
          · simp only [List.length_cons] at hlt
            have hs511 : s.nnode.toNat < 511 := by omega
            have hal := h.allocNode (internalNode (na.weight.toNat + nb.weight.toNat) a b) hs511
            have hnn : (s.allocNode (internalNode (na.weight.toNat + nb.weight.toNat) a b)).nnode.toNat =
              s.nnode.toNat + 1 := toNat_nnode_succ hs511
            have hnew := toNat_setWidth_nnode hs511
            have hmem : ∀ j ∈ s.nnode.setWidth 9 :: rest, j.toNat < s.nnode.toNat + 1 := by
              intro j hj
              rcases List.mem_cons.mp hj with rfl | hj
              · omega
              · have := hord j (by simp [hj]); omega
            rw [h.nnode, insertOrd_congr hal.eq fun j hj => hal.nodes j (by rw [hnn]; exact hmem j hj)]
            refine ih _ _ _ hal (fun j hj => ?_) ?_
            · rw [hnn]; exact hmem j ((insertOrd_perm _ _ _).mem_iff.mp hj)
            · rw [hnn, (insertOrd_perm _ _ _).length_eq, List.length_cons]; omega

theorem buildBody_congr {s t : State} (hft : t.ft = s.ft) (he : t.eqInternal = s.eqInternal) :
    SameBuild (buildBody s) (buildBody t) := by
  by_cases hk : s.k = 0
  · rw [buildBody_empty hk, buildBody_empty ((k_congr hft).trans hk)]; rfl
  · have hk256 := k_le s
    obtain ⟨node, nnode, hs, hn, hj⟩ := materializeLeaves_spec s.dropDerived
    obtain ⟨node', nnode', hs', hn', hj'⟩ := materializeLeaves_spec t.dropDerived
    have hkt : t.k = s.k := k_congr hft
    have hk0 : t.k ≠ 0 := by rw [hkt]; exact hk
    have hns : nnode.toNat = s.k := hn
    have hnt : nnode'.toNat = s.k := hn'.trans hkt
    have hnn : nnode' = nnode := BitVec.eq_of_toNat_eq (by omega)
    have hm := merging_start (s := s.dropDerived) hk hn hj
    have hal : SameAllocated { s.dropDerived with node := node, nnode := nnode }
        { t.dropDerived with node := node', nnode := nnode' } := by
      refine ⟨he, hnn, fun j hjlt => ?_⟩
      have hjk : j.toNat < (tableEntries s.ft).length := by
        change j.toNat < nnode.toNat at hjlt
        change j.toNat < s.k
        omega
      have h1 := hj j _ (List.getElem?_eq_getElem hjk)
      have h2 := hj' j _ (by simp only [dropDerived_ft, hft]; exact List.getElem?_eq_getElem hjk)
      exact h2.trans h1.symm
    have hsort : sortLeaves { t.dropDerived with node := node', nnode := nnode' } =
        sortLeaves { s.dropDerived with node := node, nnode := nnode } := by
      rw [sortLeaves, sortLeaves]
      have : State.allocated { t.dropDerived with node := node', nnode := nnode' } =
          State.allocated { s.dropDerived with node := node, nnode := nnode } := by
        simp only [State.allocated, hnn]
      rw [this]
      exact foldr_insertOrd_congr hal.eq fun j hj => hal.nodes j ((mem_allocated hm.layout.bound).mp hj)
    rw [buildBody, buildBody, if_neg hk, if_neg hk0, hkt]
    simp only [hs, hs', hsort]
    refine mergeLoop_congr _ _ _ _ hal (fun j hj => hm.mem_ord hj) ?_
    have := hm.count
    change nnode.toNat + _ = 2 * s.k at this
    change nnode.toNat + _ ≤ 512
    omega

end Sys2Proof.Machine
end

