-- ==== Sys2Proof/Laws/BitReader.lean ====
section
/-! SUPPORT. The Bit Reader: the walk over the tree follows the codes (45_bit_reader.md R190 to R196). -/

namespace Sys2Proof.Machine

/-- The state after the symbols `syms` were emitted and `reads` payload bytes read, with `CUR` at `j`. -/
def State.walked (s : State) (syms : List Byte) (j : NodeRef) (reads : Nat) : State :=
  { s with
    snk := s.snk ++ syms
    cur := j
    outcnt := BitVec.ofNat 32 syms.length
    answers := s.answers.drop (reads + syms.length)
    srcPos := s.srcPos + reads }

theorem answer_walked {s : State} {syms : List Byte} {j : NodeRef} {reads n : Nat} (ha : AnswersOk s n)
    (hn : reads + syms.length < n) : (s.walked syms j reads).answer = .ok := by
  have : AnswersOk (s.walked syms j reads) 1 := AnswersOk.of_drop (m := reads + syms.length) (ha.mono (by omega)) rfl
  exact this.answer (by omega)

theorem unread_walked (s : State) (syms : List Byte) (j : NodeRef) (reads : Nat) :
    (s.walked syms j reads).unread = s.unread.drop reads := by
  simp [State.unread, State.walked]

theorem walked_read (s : State) (syms : List Byte) (j : NodeRef) (reads : Nat) :
    (s.walked syms j reads).drawn.advance = s.walked syms j (reads + 1) := by
  have h1 : reads + syms.length + 1 = reads + 1 + syms.length := by omega
  simp only [State.walked, State.drawn, State.advance, List.tail_drop, h1, Nat.add_assoc]

/-- One more symbol (R192). -/
theorem emitSymbol_walked {s : State} {syms : List Byte} {j : NodeRef} {reads n : Nat} (d : Byte) (ha : AnswersOk s n)
    (hn : reads + syms.length < n) :
    emitSymbol d (s.walked syms j reads) = .done (s.walked (syms ++ [d]) s.root reads) := by
  have hc : BitVec.ofNat 32 syms.length + 1 = BitVec.ofNat 32 (syms.length + 1) := by
    apply BitVec.eq_of_toNat_eq; simp
  rw [emitSymbol, snkWrite_ok _ (answer_walked ha hn), Flow.andThen_done]
  simp only [State.walked, State.drawn, State.append, List.tail_drop, List.length_append, List.length_singleton,
    List.append_assoc, hc, Nat.add_assoc]

/-- What the walk still owes, standing at `j`: the symbol `d` down the path `q`, then the symbols of `rest`. -/
structure Owed (s : State) (tr : Tree) (j : NodeRef) (e : Byte × List Bool) (rest : List (Byte × List Bool)) : Prop where
  here : ∃ sub, TreeAt s j sub ∧ e ∈ sub.codes
  path : e.2 ≠ []
  later : ∀ e' ∈ rest, e' ∈ tr.codes

/-- The bits still owed. -/
def owedBits (e : Byte × List Bool) (rest : List (Byte × List Bool)) : List Bool := e.2 ++ rest.flatMap Prod.snd

theorem owed_start {s : State} {tr : Tree} (hat : TreeAt s s.root tr) (hne : ∀ e ∈ tr.codes, e.2 ≠ [])
    {e : Byte × List Bool} {rest : List (Byte × List Bool)} (h : ∀ e' ∈ e :: rest, e' ∈ tr.codes) :
    Owed s tr s.root e rest :=
  ⟨⟨tr, hat, h e (by simp)⟩, hne e (h e (by simp)), fun e' he' => h e' (by simp [he'])⟩

/-- One bit of the walk along an owed path (R192). -/
theorem walkBit_owed {s : State} {tr : Tree} {j : NodeRef} {d : Byte} {b : Bool} {q : List Bool}
    {rest : List (Byte × List Bool)} {syms : List Byte} {reads : Nat} (h : Owed s tr j (d, b :: q) rest) :
    (q = [] ∧ ∃ i, walkBit b (s.walked syms j reads) = emitSymbol d (s.walked syms i reads)) ∨
    (q ≠ [] ∧ ∃ i, walkBit b (s.walked syms j reads) = .done (s.walked syms i reads) ∧ Owed s tr i (d, q) rest) := by
  obtain ⟨sub, hsub, hm⟩ := h.here
  cases hsub with
  | leaf at_j kind => simp [Tree.codes] at hm
  | @internal _ nd l r at_j kind hl hr =>
    obtain ⟨b', q', hq, hm⟩ := Tree.mem_codes_internal.mp hm
    obtain ⟨rfl, rfl⟩ := List.cons.inj hq
    have hc : ∃ c, TreeAt s (if b then nd.right else nd.left) c ∧ (d, q) ∈ c.codes := by
      cases b
      · exact ⟨l, hl, by simpa using hm⟩
      · exact ⟨r, hr, by simpa using hm⟩
    obtain ⟨c, hc, hmc⟩ := hc
    have hj : (s.walked syms j reads).nodeAt (s.walked syms j reads).cur = some nd := at_j
    cases hc with
    | @leaf _ nd' at_c kind' =>
      simp only [Tree.codes, List.mem_singleton, Prod.mk.injEq] at hmc
      refine .inl ⟨hmc.2, if b then nd.right else nd.left, ?_⟩
      have hi : (s.walked syms j reads).nodeAt (if b then nd.right else nd.left) = some nd' := at_c
      simp only [walkBit, hj, hi, kind', hmc.1]
      rfl
    | @internal _ nd' l' r' at_c kind' hl' hr' =>
      obtain ⟨b2, q2, hq2, -⟩ := Tree.mem_codes_internal.mp hmc
      have hqne : q ≠ [] := by simp only at hq2; rw [hq2]; simp
      refine .inr ⟨hqne, if b then nd.right else nd.left, ?_, ⟨⟨_, .internal at_c kind' hl' hr', hmc⟩, hqne, h.later⟩⟩
      have hi : (s.walked syms j reads).nodeAt (if b then nd.right else nd.left) = some nd' := at_c
      simp only [walkBit, hj, hi, kind']
      rfl

theorem outcnt_walked_ne {s : State} {syms : List Byte} {j : NodeRef} {reads : Nat}
    (h : syms.length < s.total.toNat) : (s.walked syms j reads).outcnt ≠ (s.walked syms j reads).total := by
  intro hh
  have := congrArg BitVec.toNat hh
  have hlt := s.total.isLt
  simp [State.walked] at this
  omega

theorem outcnt_walked_eq {s : State} {syms : List Byte} {j : NodeRef} {reads : Nat}
    (h : syms.length = s.total.toNat) : (s.walked syms j reads).outcnt = (s.walked syms j reads).total := by
  apply BitVec.eq_of_toNat_eq
  have hlt := s.total.isLt
  simp [State.walked]
  omega

/-- Bits that do not reach the end of what is owed (R192). -/
theorem walkBits_inside (c : List Bool) {s : State} {tr : Tree} {j : NodeRef} {e : Byte × List Bool}
    {rest : List (Byte × List Bool)} {syms : List Byte} {reads n : Nat} {more : List Bool}
    (hat : TreeAt s s.root tr) (hne : ∀ e ∈ tr.codes, e.2 ≠ [])
    (h : Owed s tr j e rest) (hbits : owedBits e rest = c ++ more) (hmore : more ≠ [])
    (hlen : syms.length + 1 + rest.length ≤ s.total.toNat) (ha : AnswersOk s n)
    (hn : reads + syms.length + rest.length ≤ n) :
    ∃ j' e' rest' syms', walkBits c (s.walked syms j reads) = .done (s.walked syms' j' reads) ∧
      Owed s tr j' e' rest' ∧ owedBits e' rest' = more ∧
      syms' ++ e'.1 :: rest'.map Prod.fst = syms ++ e.1 :: rest.map Prod.fst := by
  induction c generalizing j e rest syms with
  | nil => exact ⟨j, e, rest, syms, rfl, h, hbits, rfl⟩
  | cons b c ih =>
    obtain ⟨d, q⟩ := e
    have hq := h.path
    obtain ⟨b', q, rfl⟩ := List.exists_cons_of_ne_nil (l := q) hq
    simp only [owedBits, List.cons_append, List.cons.injEq] at hbits
    obtain ⟨rfl, hbits⟩ := hbits
    rcases walkBit_owed (syms := syms) (reads := reads) h with ⟨rfl, i, hw⟩ | ⟨hqne, i, hw, ho⟩
    · rw [List.nil_append] at hbits
      obtain ⟨e', rest', rfl⟩ := List.exists_cons_of_ne_nil (l := rest) (by
        rintro rfl
        simp at hbits
        exact hmore hbits.2)
      simp only [List.length_cons] at hlen hn
      obtain ⟨j2, e2, rest2, syms2, h1, h2, h3, h4⟩ := ih (j := s.root) (e := e') (rest := rest') (syms := syms ++ [d])
        (owed_start hat hne h.later) (by simpa [owedBits] using hbits) (by simp; omega) (by simp; omega)
      refine ⟨j2, e2, rest2, syms2, ?_, h2, h3, by rw [h4]; simp⟩
      rw [walkBits, hw, emitSymbol_walked d ha (by omega), Flow.andThen_done,
        if_neg (outcnt_walked_ne (by simp; omega)), h1]
    · obtain ⟨j2, e2, rest2, syms2, h1, h2, h3, h4⟩ := ih ho hbits hlen hn
      refine ⟨j2, e2, rest2, syms2, ?_, h2, h3, h4⟩
      rw [walkBits, hw, Flow.andThen_done, if_neg (outcnt_walked_ne (by omega)), h1]

/-- Bits that reach the end of what is owed: the walk stops there (R192, R195). -/
theorem walkBits_end (c : List Bool) {s : State} {tr : Tree} {j : NodeRef} {e : Byte × List Bool}
    {rest : List (Byte × List Bool)} {syms : List Byte} {reads n : Nat} {pad : List Bool}
    (hat : TreeAt s s.root tr) (hne : ∀ e ∈ tr.codes, e.2 ≠ [])
    (h : Owed s tr j e rest) (hbits : c = owedBits e rest ++ pad)
    (hlen : syms.length + 1 + rest.length = s.total.toNat) (ha : AnswersOk s n)
    (hn : reads + syms.length + rest.length < n) :
    walkBits c (s.walked syms j reads) = .done (s.walked (syms ++ e.1 :: rest.map Prod.fst) s.root reads) := by
  induction c generalizing j e rest syms with
  | nil => simp [owedBits, h.path] at hbits
  | cons b c ih =>
    obtain ⟨d, q⟩ := e
    have hq := h.path
    obtain ⟨b', q, rfl⟩ := List.exists_cons_of_ne_nil (l := q) hq
    simp only [owedBits, List.cons_append, List.cons.injEq] at hbits
    obtain ⟨rfl, hbits⟩ := hbits
    rcases walkBit_owed (syms := syms) (reads := reads) h with ⟨rfl, i, hw⟩ | ⟨hqne, i, hw, ho⟩
    · rw [List.nil_append] at hbits
      rw [walkBits, hw, emitSymbol_walked d ha (by omega), Flow.andThen_done]
      cases rest with
      | nil => rw [if_pos (outcnt_walked_eq (by simp at *; omega))]; rfl
      | cons e' rest' =>
        simp only [List.length_cons] at hlen hn
        rw [if_neg (outcnt_walked_ne (by simp; omega)),
          ih (j := s.root) (e := e') (rest := rest') (syms := syms ++ [d]) (owed_start hat hne h.later)
            (by simpa [owedBits] using hbits) (by simp; omega) (by simp; omega)]
        simp
    · rw [walkBits, hw, Flow.andThen_done, if_neg (outcnt_walked_ne (by omega)), ih ho hbits hlen hn]

theorem bitsMsb_length (b : Byte) : (bitsMsb b).length = 8 := rfl

theorem bitsOf_cons (b : Byte) (l : List Byte) : bitsOf (b :: l) = bitsMsb b ++ bitsOf l := rfl

theorem bitsOf_length (l : List Byte) : (bitsOf l).length = 8 * l.length := by
  induction l with
  | nil => rfl
  | cons b l ih => rw [bitsOf_cons, List.length_append, ih, bitsMsb_length, List.length_cons]; omega

/-- The loop over payload bytes that hold all that is owed (R196). -/
theorem walkLoop_ok (l : List Byte) {s : State} {tr : Tree} {j : NodeRef} {e : Byte × List Bool}
    {rest : List (Byte × List Bool)} {syms : List Byte} {reads n m : Nat} {more : List Bool}
    (hat : TreeAt s s.root tr) (hne : ∀ e ∈ tr.codes, e.2 ≠ [])
    (h : Owed s tr j e rest) (hu : s.unread.drop reads = l) (hbits : bitsOf l = owedBits e rest ++ more)
    (hlen : syms.length + 1 + rest.length = s.total.toNat) (ha : AnswersOk s n)
    (hn : reads + ((owedBits e rest).length + 7) / 8 + s.total.toNat ≤ n) (hm : l.length < m) :
    walkLoop m (s.walked syms j reads) =
      .done (s.walked (syms ++ e.1 :: rest.map Prod.fst) s.root (reads + ((owedBits e rest).length + 7) / 8)) := by
  induction l generalizing j e rest syms reads m with
  | nil => simp [bitsOf, owedBits, h.path] at hbits
  | cons b l ih =>
    obtain ⟨m, rfl⟩ := Nat.exists_eq_add_one_of_ne_zero (Nat.ne_of_gt (Nat.zero_lt_of_lt hm))
    rw [List.length_cons] at hm
    have hpos : 1 ≤ (owedBits e rest).length := by
      have := List.length_pos_iff.mpr h.path
      simp [owedBits]; omega
    rw [walkLoop, if_neg (outcnt_walked_ne (by omega)),
      readByte_byte (answer_walked ha (by omega)) ((unread_walked s syms j reads).trans hu), walked_read]
    rw [bitsOf_cons] at hbits
    by_cases h8 : (owedBits e rest).length ≤ 8
    · have hpad : bitsMsb b = owedBits e rest ++ more.take (8 - (owedBits e rest).length) := by
        have := congrArg (List.take 8) hbits
        rw [List.take_left' (bitsMsb_length b), List.take_append, List.take_of_length_le h8] at this
        exact this
      rw [walkBits_end _ hat hne h hpad hlen ha (by omega), Flow.andThen_done]
      obtain ⟨m', rfl⟩ := Nat.exists_eq_add_one_of_ne_zero (Nat.ne_of_gt (Nat.zero_lt_of_lt (Nat.lt_of_succ_lt_succ hm)))
      rw [walkLoop, if_pos (outcnt_walked_eq (by simp; omega))]
      congr 2; omega
    · have hsplit : owedBits e rest = bitsMsb b ++ (owedBits e rest).drop 8 := by
        have := congrArg (List.take 8) hbits
        rw [List.take_left' (bitsMsb_length b), List.take_append, Nat.sub_eq_zero_of_le (by omega), List.take_zero,
          List.append_nil] at this
        rw [this, List.take_append_drop]
      have hd : (owedBits e rest).drop 8 ≠ [] := by
        intro hh
        have := congrArg List.length hh
        simp at this; omega
      obtain ⟨j', e', rest', syms', h1, h2, h3, h4⟩ := walkBits_inside (bitsMsb b) (syms := syms) (reads := reads + 1)
        hat hne h hsplit hd (by omega) ha (by omega)
      have h4l := congrArg List.length h4
      simp only [List.length_append, List.length_cons, List.length_map] at h4l
      have h3l := congrArg List.length h3
      rw [List.length_drop] at h3l
      rw [h1, Flow.andThen_done, ih (reads := reads + 1) h2 (by rw [← List.drop_drop, hu]; rfl) (by
          have := congrArg (List.drop 8) hbits
          rw [List.drop_left' (bitsMsb_length b), List.drop_append, Nat.sub_eq_zero_of_le (by omega), List.drop_zero]
            at this
          rw [h3]; exact this) (by omega) (by rw [h3l]; omega) (by omega), h4, h3l]
      congr 2; omega

/-- The loop over payload bytes that end before what is owed does (R194). -/
theorem walkLoop_truncated (l : List Byte) {s : State} {tr : Tree} {j : NodeRef} {e : Byte × List Bool}
    {rest : List (Byte × List Bool)} {syms : List Byte} {reads n m : Nat} {more : List Bool}
    (hat : TreeAt s s.root tr) (hne : ∀ e ∈ tr.codes, e.2 ≠ [])
    (h : Owed s tr j e rest) (hu : s.unread.drop reads = l) (hbits : owedBits e rest = bitsOf l ++ more)
    (hmore : more ≠ []) (hlen : syms.length + 1 + rest.length ≤ s.total.toNat) (ha : AnswersOk s n)
    (hn : reads + l.length + syms.length + rest.length < n) (hm : l.length < m) :
    ∃ t p, walkLoop m (s.walked syms j reads) = .raised .trunc t ∧ t.snk = s.snk ++ p ∧
      p <+: syms ++ (e.1 :: rest.map Prod.fst).dropLast := by
  induction l generalizing j e rest syms reads m with
  | nil =>
    obtain ⟨m, rfl⟩ := Nat.exists_eq_add_one_of_ne_zero (Nat.ne_of_gt (Nat.zero_lt_of_lt hm))
    refine ⟨(s.walked syms j reads).drawn, syms, ?_, rfl, List.prefix_append _ _⟩
    rw [walkLoop, if_neg (outcnt_walked_ne (by omega)),
      readByte_eof (answer_walked ha (by simp at hn; omega)) ((unread_walked s syms j reads).trans hu)]
  | cons b l ih =>
    obtain ⟨m, rfl⟩ := Nat.exists_eq_add_one_of_ne_zero (Nat.ne_of_gt (Nat.zero_lt_of_lt hm))
    rw [List.length_cons] at hm hn
    rw [bitsOf_cons, List.append_assoc] at hbits
    obtain ⟨j', e', rest', syms', h1, h2, h3, h4⟩ := walkBits_inside (bitsMsb b) (syms := syms) (reads := reads + 1)
        hat hne h hbits (by simp [hmore]) (by omega) ha (by omega)
    have h4l := congrArg List.length h4
    simp only [List.length_append, List.length_cons, List.length_map] at h4l
    obtain ⟨t, p, ht1, ht2, ht3⟩ := ih (syms := syms') (reads := reads + 1) (m := m) h2 (by rw [← List.drop_drop, hu]; rfl)
      h3 (by omega) (by omega) (by omega)
    refine ⟨t, p, ?_, ht2, ?_⟩
    · rw [walkLoop, if_neg (outcnt_walked_ne (by omega)),
        readByte_byte (answer_walked ha (by omega)) ((unread_walked s syms j reads).trans hu), walked_read,
        h1, Flow.andThen_done, ht1]
    · have hlast := congrArg List.dropLast h4
      rw [List.dropLast_append_of_ne_nil (by simp), List.dropLast_append_of_ne_nil (by simp)] at hlast
      rw [← hlast]
      exact ht3

/-! ### `UNPACK` -/

theorem Tree.codes_path_ne_nil {tr : Tree} (h : 2 ≤ tr.leaves.length) : ∀ e ∈ tr.codes, e.2 ≠ [] := by
  intro e he
  cases tr with
  | leaf b w => simp [Tree.leaves] at h
  | internal w l r =>
    obtain ⟨b, q, hq, -⟩ := Tree.mem_codes_internal.mp he
    simp [hq]

/-- The state `UNPACK` starts its loop in (R190). -/
def State.unpackStart (s : State) : State := { s with outcnt := 0, cur := s.root }

theorem unpackStart_eq_walked (s : State) : s.unpackStart = s.walked [] s.root 0 := by
  simp [State.unpackStart, State.walked]

theorem unpackBody_internal {s : State} {nd : Node} (hv : s.treev = true) (hr : s.nodeAt s.root = some nd)
    (hk : nd.kind = .internal) : unpackBody s = walkLoop (s.unread.length + 1) s.unpackStart := by
  have h1 : s.unpackStart.nodeAt s.unpackStart.root = some nd := hr
  rw [unpackBody, if_pos hv]
  change (match s.unpackStart.nodeAt s.unpackStart.root with
    | none => Flow.stuck .noSuchNode
    | some nd => match nd.kind with
      | .leaf => degenerateEmit nd.sym s.unpackStart.total.toNat s.unpackStart
      | .internal => walkLoop (s.unpackStart.unread.length + 1) s.unpackStart) = _
  simp only [h1, hk]
  rfl

theorem unpackBody_leaf {s : State} {nd : Node} (hv : s.treev = true) (hr : s.nodeAt s.root = some nd)
    (hk : nd.kind = .leaf) : unpackBody s = degenerateEmit nd.sym s.total.toNat s.unpackStart := by
  have h1 : s.unpackStart.nodeAt s.unpackStart.root = some nd := hr
  rw [unpackBody, if_pos hv]
  change (match s.unpackStart.nodeAt s.unpackStart.root with
    | none => Flow.stuck .noSuchNode
    | some nd => match nd.kind with
      | .leaf => degenerateEmit nd.sym s.unpackStart.total.toNat s.unpackStart
      | .internal => walkLoop (s.unpackStart.unread.length + 1) s.unpackStart) = _
  simp only [h1, hk]
  rfl

/-- The root of a tree of two or more Leaves is an Internal node. -/
theorem TreeAt.internal_of_two {s : State} {i : NodeRef} {tr : Tree} (h : TreeAt s i tr) (h2 : 2 ≤ tr.leaves.length) :
    ∃ nd, s.nodeAt i = some nd ∧ nd.kind = .internal := by
  cases h with
  | leaf _ _ => simp [Tree.leaves] at h2
  | internal at_i kind _ _ => exact ⟨_, at_i, kind⟩

/-- The root of a tree of one Leaf is that Leaf. -/
theorem TreeAt.leaf_of_one {s : State} {i : NodeRef} {tr : Tree} (h : TreeAt s i tr) (h1 : tr.leaves.length = 1) :
    ∃ nd, s.nodeAt i = some nd ∧ nd.kind = .leaf ∧ tr = .leaf nd.sym nd.weight := by
  cases h with
  | leaf at_i kind => exact ⟨_, at_i, kind, rfl⟩
  | @internal _ nd l r _ _ _ _ =>
    have := l.leaves_length_pos
    have := r.leaves_length_pos
    simp [Tree.leaves] at h1; omega

/-- The single-symbol loop (R191). -/
theorem degenerateEmit_ok (n : Nat) {s : State} {syms : List Byte} {sym : Byte} (hlen : syms.length + n = s.total.toNat)
    (ha : AnswersOk s s.total.toNat) :
    degenerateEmit sym n (s.walked syms s.root 0) = .done (s.walked (syms ++ List.replicate n sym) s.root 0) := by
  induction n generalizing syms with
  | zero => rw [degenerateEmit, if_pos (outcnt_walked_eq (by omega))]; simp
  | succ n ih =>
    rw [degenerateEmit, if_neg (outcnt_walked_ne (by omega)), emitSymbol_walked sym ha (by omega), Flow.andThen_done,
      ih (by simp; omega), List.append_assoc]
    rfl

/-- `UNPACK` on a single Leaf (R191). -/
theorem unpackBody_one {s : State} {nd : Node} (hv : s.treev = true) (hr : s.nodeAt s.root = some nd)
    (hk : nd.kind = .leaf) (ha : AnswersOk s s.total.toNat) :
    unpackBody s = .done (s.walked (List.replicate s.total.toNat nd.sym) s.root 0) := by
  rw [unpackBody_leaf hv hr hk, unpackStart_eq_walked, degenerateEmit_ok _ (by simp) ha, List.nil_append]

/-- `UNPACK` on a payload that begins with the Codes of `TOTAL` symbols (R196). -/
theorem unpackBody_ok {s : State} {tr : Tree} {coded : List (Byte × List Bool)} {more : List Bool}
    (hv : s.treev = true) (hat : TreeAt s s.root tr) (h2 : 2 ≤ tr.leaves.length) (hc : ∀ e ∈ coded, e ∈ tr.codes)
    (hlen : coded.length = s.total.toNat) (hbits : bitsOf s.unread = coded.flatMap Prod.snd ++ more)
    (ha : AnswersOk s (((coded.flatMap Prod.snd).length + 7) / 8 + s.total.toNat)) :
    unpackBody s = .done (s.walked (coded.map Prod.fst) s.root (((coded.flatMap Prod.snd).length + 7) / 8)) := by
  obtain ⟨nd, hr, hk⟩ := hat.internal_of_two h2
  rw [unpackBody_internal hv hr hk, unpackStart_eq_walked]
  cases coded with
  | nil =>
    rw [walkLoop, if_pos (outcnt_walked_eq (by simpa using hlen))]
    rfl
  | cons e rest =>
    have hne := Tree.codes_path_ne_nil h2
    have ho : owedBits e rest = (e :: rest).flatMap Prod.snd := rfl
    rw [walkLoop_ok s.unread hat hne (owed_start hat hne hc) (by rw [List.drop_zero]) (by rw [ho]; exact hbits)
      (by simp at hlen ⊢; omega) ha (by rw [ho]; omega) (by omega), ho, Nat.zero_add]
    rfl

/-- `UNPACK` on a payload that ends with symbols still owed (R194). -/
theorem unpackBody_truncated {s : State} {tr : Tree} {coded : List (Byte × List Bool)} {part : List Bool}
    (hv : s.treev = true) (hat : TreeAt s s.root tr) (h2 : 2 ≤ tr.leaves.length) (hc : ∀ e ∈ coded, e ∈ tr.codes)
    (hlen : coded.length < s.total.toNat) (hbits : bitsOf s.unread = coded.flatMap Prod.snd ++ part)
    (hpart : ∀ e ∈ tr.codes, ¬ e.2 <+: part) (ha : AnswersOk s (s.unread.length + 1 + coded.length)) :
    ∃ t p, unpackBody s = .raised .trunc t ∧ t.snk = s.snk ++ p ∧ p <+: coded.map Prod.fst := by
  obtain ⟨nd, hr, hk⟩ := hat.internal_of_two h2
  have hne := Tree.codes_path_ne_nil h2
  obtain ⟨d, x, hx, hmem⟩ := tr.extend_to_code part hpart
  rw [unpackBody_internal hv hr hk, unpackStart_eq_walked]
  obtain ⟨e, rest, her⟩ := List.exists_cons_of_ne_nil (l := coded ++ [(d, part ++ x)]) (by simp)
  have hall : ∀ e' ∈ e :: rest, e' ∈ tr.codes := by
    rw [← her]
    intro e' he'
    rcases List.mem_append.mp he' with h | h
    · exact hc e' h
    · rw [List.mem_singleton.mp h]; exact hmem
  have ho : owedBits e rest = bitsOf s.unread ++ x := by
    change (e :: rest).flatMap Prod.snd = _
    rw [← her, List.flatMap_append, hbits]
    simp
  have hl := congrArg List.length her
  simp only [List.length_append, List.length_cons, List.length_nil] at hl
  obtain ⟨t, p, h1, h3, h4⟩ := walkLoop_truncated s.unread (m := s.unread.length + 1) (syms := []) (reads := 0) hat hne
    (owed_start hat hne hall) (by rw [List.drop_zero]) ho hx (by simp; omega) ha (by simp; omega) (by omega)
  refine ⟨t, p, h1, h3, ?_⟩
  rw [← List.map_cons, ← her] at h4
  simpa using h4

/-! ### No wrong step in a proper tree (R193) -/

/-- `CUR` stands at an Internal node of a tree, as everywhere between two bits of the walk. -/
def Walking (s : State) : Prop :=
  ∃ tr sub nd, TreeAt s s.root tr ∧ 2 ≤ tr.leaves.length ∧ TreeAt s s.cur sub ∧ s.nodeAt s.cur = some nd ∧
    nd.kind = .internal

/-- A flow that raises no `ERR_WALK`, is stuck only for want of an answer, and goes on in a state with `P`. -/
def Flow.Sound (P : State → Prop) : Flow → Prop
  | .done s => P s
  | .raised e _ => e ≠ .walk
  | .stuck r => r = .noIoAnswer

theorem Flow.Sound.andThen {f : Flow} {k : State → Flow} {P Q : State → Prop} (h : f.Sound P)
    (hk : ∀ s, P s → (k s).Sound Q) : (f.andThen k).Sound Q := by
  cases f with
  | done s => exact hk s h
  | raised e s => exact h
  | stuck r => exact h

theorem Flow.Sound.mono {f : Flow} {P Q : State → Prop} (h : f.Sound P) (hPQ : ∀ s, P s → Q s) : f.Sound Q := by
  cases f with
  | done s => exact hPQ s h
  | raised e s => exact h
  | stuck r => exact h

theorem Walking.congr {s t : State} (hn : t.node = s.node) (hr : t.root = s.root) (hc : t.cur = s.cur)
    (h : Walking s) : Walking t := by
  obtain ⟨tr, sub, nd, h1, h2, h3, h4, h5⟩ := h
  exact ⟨tr, sub, nd, hr ▸ h1.congr hn, h2, hc ▸ h3.congr hn, by rw [hc, nodeAt_congr hn]; exact h4, h5⟩

theorem emitSymbol_sound {s : State} {tr : Tree} (d : Byte) (hat : TreeAt s s.root tr) (h2 : 2 ≤ tr.leaves.length) :
    (emitSymbol d s).Sound fun t => Walking t ∧ t.src = s.src ∧ t.srcPos = s.srcPos := by
  unfold emitSymbol
  rcases snkWrite_cases d s with ⟨-, h⟩ | ⟨-, h⟩ | ⟨-, h⟩ <;> rw [h]
  · intro hh; cases hh
  · rfl
  · obtain ⟨nd, hnd, hk⟩ := hat.internal_of_two h2
    exact ⟨⟨tr, tr, nd, hat.congr (by rfl), h2, hat.congr (by rfl), hnd, hk⟩, rfl, rfl⟩

theorem walkBit_sound {s : State} (b : Bool) (h : Walking s) :
    (walkBit b s).Sound fun t => Walking t ∧ t.src = s.src ∧ t.srcPos = s.srcPos := by
  obtain ⟨tr, sub, nd, hat, h2, hsub, hnd, hk⟩ := h
  cases hsub with
  | leaf at_j kind =>
    obtain rfl := Option.some.inj (hnd.symm.trans at_j)
    rw [hk] at kind; cases kind
  | @internal _ nd' l r at_j kind hl hr =>
    obtain rfl := Option.some.inj (hnd.symm.trans at_j)
    obtain ⟨c, hc⟩ : ∃ c, TreeAt s (if b then nd.right else nd.left) c := by
      cases b
      · exact ⟨l, hl⟩
      · exact ⟨r, hr⟩
    cases hc with
    | @leaf _ nc at_c kind' =>
      simp only [walkBit, hnd, at_c, kind']
      exact emitSymbol_sound (s := { s with cur := if b then nd.right else nd.left }) nc.sym (hat.congr (by rfl)) h2
    | @internal _ nc l' r' at_c kind' hl' hr' =>
      simp only [walkBit, hnd, at_c, kind']
      exact ⟨⟨tr, _, nc, hat.congr (by rfl), h2, (TreeAt.internal at_c kind' hl' hr').congr (by rfl), at_c, kind'⟩, rfl, rfl⟩

theorem walkBits_sound (c : List Bool) {s : State} (h : Walking s) :
    (walkBits c s).Sound fun t => Walking t ∧ t.src = s.src ∧ t.srcPos = s.srcPos := by
  induction c generalizing s with
  | nil => exact ⟨h, rfl, rfl⟩
  | cons b c ih =>
    rw [walkBits]
    refine (walkBit_sound b h).andThen fun t ht => ?_
    split
    · exact ht
    · exact (ih ht.1).mono fun u hu => ⟨hu.1, hu.2.1.trans ht.2.1, hu.2.2.trans ht.2.2⟩

theorem walkLoop_sound (n : Nat) {s : State} (h : Walking s) (hn : s.unread.length < n) :
    (walkLoop n s).Sound fun _ => True := by
  induction n generalizing s with
  | zero => omega
  | succ n ih =>
    rw [walkLoop]
    split
    · trivial
    · rcases readByte_cases s (Flow.raised .trunc) (fun b t => (walkBits (bitsMsb b) t).andThen (walkLoop n)) with
        h' | ⟨-, h'⟩ | ⟨-, h'⟩ | ⟨b, r, hu, h'⟩ <;> rw [h']
      · intro hh; cases hh
      · rfl
      · intro hh; cases hh
      · refine (walkBits_sound _ (Walking.congr (by rfl) (by rfl) (by rfl) h)).andThen fun t ht => ih ht.1 ?_
        have hu' : t.unread = r := by
          have := unread_advance (s := s.drawn) hu
          simpa [State.unread, ht.2.1, ht.2.2] using this
        rw [hu']
        simpa [hu] using hn

theorem degenerateEmit_sound (sym : Byte) (n : Nat) {s : State} (h : s.outcnt.toNat + n = s.total.toNat) :
    (degenerateEmit sym n s).Sound fun _ => True := by
  induction n generalizing s with
  | zero =>
    rw [degenerateEmit, if_pos (BitVec.eq_of_toNat_eq (by simpa using h))]
    trivial
  | succ n ih =>
    rw [degenerateEmit]
    split
    · trivial
    · refine Flow.Sound.andThen (P := fun t => t.outcnt.toNat + n = t.total.toNat) ?_ fun t ht => ih ht
      unfold emitSymbol
      have hlt := s.total.isLt
      rcases snkWrite_cases sym s with ⟨-, h'⟩ | ⟨-, h'⟩ | ⟨-, h'⟩ <;> rw [h']
      · intro hh; cases hh
      · rfl
      · have : (s.outcnt + 1).toNat = s.outcnt.toNat + 1 := by rw [BitVec.toNat_add]; simp; omega
        change (s.outcnt + 1).toNat + n = s.total.toNat
        omega

/-- `UNPACK` with the machine's own tree never steps to an absent child and never runs out of its bounds (R193, R273). -/
theorem unpackBody_sound {s : State} {tr : Tree} (hat : TreeAt s s.root tr) :
    (unpackBody s).Sound fun _ => True := by
  by_cases hv : s.treev = true
  · have hpos := tr.leaves_length_pos
    by_cases h2 : 2 ≤ tr.leaves.length
    · obtain ⟨nd, hr, hk⟩ := hat.internal_of_two h2
      rw [unpackBody_internal hv hr hk]
      exact walkLoop_sound _ ⟨tr, tr, nd, hat.congr (by rfl), h2, hat.congr (by rfl), hr, hk⟩ (Nat.lt_succ_self _)
    · obtain ⟨nd, hr, hk, -⟩ := hat.leaf_of_one (by omega)
      rw [unpackBody_leaf hv hr hk]
      exact degenerateEmit_sound _ _ (by simp [State.unpackStart])
  · rw [unpackBody, if_neg hv]
    intro hh; cases hh

end Sys2Proof.Machine
end

