-- ==== Sys2Proof/Laws/BitWriter.lean ====
section
/-! SUPPORT. The Bit Writer: the accumulator as a list of held bits, and what `PACK` appends (R175 to R181). -/

namespace Sys2Proof.Machine

/-! ### The accumulator -/

theorem getLsbD_shiftIn (acc : Byte) (b : Bool) (i : Nat) (hi : i < 8) :
    (shiftIn acc b).getLsbD i = if i = 0 then b else acc.getLsbD (i - 1) := by
  unfold shiftIn
  rw [BitVec.getLsbD_or, BitVec.getLsbD_shiftLeft]
  by_cases h0 : i = 0
  · subst h0; cases b <;> simp
  · have : ¬ i < 1 := by omega
    cases b <;> simp [hi, h0, this]

/-- The accumulator after the bits `l` were shifted into a cleared one (R176). -/
def accOf (l : List Bool) : Byte := l.foldl shiftIn 0

theorem accOf_append (l : List Bool) (b : Bool) : accOf (l ++ [b]) = shiftIn (accOf l) b := by
  simp [accOf]

/-- The last bit shifted in stands at bit 0, the one before it at bit 1, and so on. -/
theorem getLsbD_accOf (l : List Bool) (i : Nat) (hi : i < 8) : (accOf l).getLsbD i = l.reverse.getD i false := by
  induction l using List.reverseRecOn generalizing i with
  | nil => simp [accOf]
  | append_singleton l b ih =>
    rw [accOf_append, getLsbD_shiftIn _ _ _ hi, List.reverse_append]
    cases i with
    | zero => simp
    | succ i => simpa using ih i (by omega)

theorem getLsbD_packedByte (bits : List Bool) (m i : Nat) (hi : i < 8) :
    (packedByte bits m).getLsbD i = bits.getD (8 * m + (7 - i)) false := by
  simp [packedByte, hi]

/-- A whole byte's worth of held bits is that byte of the stream. -/
theorem accOf_eq_packedByte (bits : List Bool) (m : Nat) (h : bits.length = 8 * m + 8) :
    accOf (bits.drop (8 * m)) = packedByte bits m := by
  apply BitVec.eq_of_getLsbD_eq
  intro i hi
  rw [getLsbD_accOf _ _ hi, getLsbD_packedByte _ _ _ hi]
  have hl : (bits.drop (8 * m)).length = 8 := by simp [h]
  simp only [List.getD_eq_getElem?_getD]
  rw [List.getElem?_reverse (by omega), hl, List.getElem?_drop]

/-- The held bits padded to a byte are the last byte of the stream (R178). -/
theorem padOut_accOf (bits : List Bool) (m r : Nat) (h : bits.length = 8 * m + r) (h1 : 0 < r) (h8 : r < 8) :
    padOut (accOf (bits.drop (8 * m))) (BitVec.ofNat 4 r) = packedByte bits m := by
  apply BitVec.eq_of_getLsbD_eq
  intro i hi
  have hr : (BitVec.ofNat 4 r).toNat = r := by simp; omega
  have hl : (bits.drop (8 * m)).length = r := by simp [h]
  rw [padOut, hr, BitVec.getLsbD_shiftLeft, getLsbD_packedByte _ _ _ hi]
  simp only [List.getD_eq_getElem?_getD, hi, decide_true, Bool.true_and]
  by_cases hlow : i < 8 - r
  · simp only [hlow, decide_true, Bool.not_true, Bool.false_and]
    rw [List.getElem?_eq_none (by omega)]; rfl
  · simp only [hlow, decide_false, Bool.not_false, Bool.true_and]
    rw [getLsbD_accOf _ _ (by omega), List.getD_eq_getElem?_getD, List.getElem?_reverse (by omega), hl,
      List.getElem?_drop]
    congr 2; omega

/-- Bytes of a stream do not change when bits are put after them. -/
theorem packedByte_append (bits more : List Bool) (m : Nat) (h : 8 * m + 8 ≤ bits.length) :
    packedByte (bits ++ more) m = packedByte bits m := by
  apply BitVec.eq_of_getLsbD_eq
  intro i hi
  rw [getLsbD_packedByte _ _ _ hi, getLsbD_packedByte _ _ _ hi]
  simp only [List.getD_eq_getElem?_getD]
  rw [List.getElem?_append_left (by omega)]

/-! ### Packing -/

/-- The state after `reads` source bytes were read and the bits `bits` put, from a cleared accumulator. -/
def State.packed (s : State) (bits : List Bool) (reads : Nat) : State :=
  { s with
    acc := accOf (bits.drop (8 * (bits.length / 8)))
    nbits := BitVec.ofNat 4 (bits.length % 8)
    snk := s.snk ++ (List.range (bits.length / 8)).map (packedByte bits)
    answers := s.answers.drop (reads + bits.length / 8)
    srcPos := s.srcPos + reads }

theorem packed_nil (s : State) : s.clearAcc.packed [] 0 = s.clearAcc := by
  simp [State.packed, State.clearAcc, accOf]

theorem range_map_packedByte_append (bits more : List Bool) (q : Nat) (h : 8 * q ≤ bits.length) :
    (List.range q).map (packedByte (bits ++ more)) = (List.range q).map (packedByte bits) := by
  apply List.map_congr_left
  intro m hm
  exact packedByte_append _ _ _ (by have := List.mem_range.mp hm; omega)

theorem answer_packed {s : State} {bits : List Bool} {reads n : Nat} (ha : AnswersOk s n)
    (hn : reads + bits.length / 8 < n) : (s.packed bits reads).answer = .ok := by
  have : AnswersOk (s.packed bits reads) 1 :=
    AnswersOk.of_drop (m := reads + bits.length / 8) (ha.mono (by omega)) rfl
  exact this.answer (by omega)

/-- One more bit (R176). -/
theorem putBit_packed {s : State} {bits : List Bool} {reads n : Nat} (b : Bool) (ha : AnswersOk s n)
    (hn : reads + (bits.length + 1) / 8 ≤ n) :
    putBit b (s.packed bits reads) = .done (s.packed (bits ++ [b]) reads) := by
  have hlen : (bits ++ [b]).length = bits.length + 1 := by simp
  have hacc : accOf ((bits ++ [b]).drop (8 * (bits.length / 8))) =
      shiftIn (accOf (bits.drop (8 * (bits.length / 8)))) b := by
    rw [List.drop_append_of_le_length (by omega), accOf_append]
  have hsnk := range_map_packedByte_append bits [b] (bits.length / 8) (by omega)
  by_cases h7 : bits.length % 8 = 7
  · have hq : (bits.length + 1) / 8 = bits.length / 8 + 1 := by omega
    have hr : (bits.length + 1) % 8 = 0 := by omega
    have h8 : ((s.packed bits reads).shiftBit b).nbits = 8 := by simp [State.packed, State.shiftBit, h7]
    have ha' : ((s.packed bits reads).shiftBit b).answer = .ok := answer_packed (s := s) ha (by omega)
    rw [putBit, if_pos h8, emitAcc, snkWrite_ok _ ha', Flow.andThen_done]
    congr 1
    have hbyte := accOf_eq_packedByte (bits ++ [b]) (bits.length / 8) (by rw [hlen]; omega)
    rw [hacc] at hbyte
    have hdrop : (bits ++ [b]).drop (8 * (bits.length / 8 + 1)) = [] := List.drop_eq_nil_of_le (by omega)
    simp only [State.packed, State.shiftBit, State.drawn, State.append, State.clearAcc, hlen, hq, hr, hbyte,
      List.range_succ, List.map_append, hsnk, hdrop, List.map_cons, List.map_nil,
      List.append_assoc, List.tail_drop, Nat.add_assoc]
    rfl
  · have hq : (bits.length + 1) / 8 = bits.length / 8 := by omega
    have hr : (bits.length + 1) % 8 = bits.length % 8 + 1 := by omega
    have hlt : bits.length % 8 < 7 := by omega
    have hnb : BitVec.ofNat 4 (bits.length % 8) + 1 = BitVec.ofNat 4 (bits.length % 8 + 1) := by
      apply BitVec.eq_of_toNat_eq; simp
    have h8 : ((s.packed bits reads).shiftBit b).nbits ≠ 8 := by
      simp only [State.packed, State.shiftBit, hnb]
      intro hh
      have := congrArg BitVec.toNat hh
      simp at this; omega
    rw [putBit, if_neg h8]
    simp only [State.packed, State.shiftBit, hlen, hq, hr, hnb, hacc, hsnk]

/-- The bits of one Code (R175). -/
theorem putBits_packed (more : List Bool) {s : State} {bits : List Bool} {reads n : Nat} (ha : AnswersOk s n)
    (hn : reads + (bits.length + more.length) / 8 ≤ n) :
    putBits more (s.packed bits reads) = .done (s.packed (bits ++ more) reads) := by
  induction more generalizing bits with
  | nil => simp [putBits]
  | cons b more ih =>
    rw [List.length_cons] at hn
    rw [putBits, putBit_packed b ha (by omega), Flow.andThen_done, ih (by simp; omega), List.append_assoc]
    rfl

theorem codeAt_packed (s : State) (bits : List Bool) (reads : Nat) (b : Byte) :
    (s.packed bits reads).codeAt b = s.codeAt b := rfl

theorem unread_packed (s : State) (bits : List Bool) (reads : Nat) :
    (s.packed bits reads).unread = s.unread.drop reads := by
  simp [State.unread, State.packed]

theorem packed_read (s : State) (bits : List Bool) (reads : Nat) :
    (s.packed bits reads).drawn.advance = s.packed bits (reads + 1) := by
  have h1 : reads + bits.length / 8 + 1 = reads + 1 + bits.length / 8 := by omega
  simp only [State.packed, State.drawn, State.advance, List.tail_drop, h1, Nat.add_assoc]

/-- The bits of the Codes of a byte sequence. -/
def State.codeBits (s : State) (l : List Byte) : List Bool := l.flatMap fun b => (s.codeAt b).path

/-- The packing loop up to a point of the source (R175). -/
theorem eachByte_packByte (l : List Byte) {s : State} {bits : List Bool} {reads n m : Nat} {r : List Byte}
    (hu : s.unread.drop reads = l ++ r) (hv : ∀ b ∈ l, (s.codeAt b).valid = true)
    (ha : AnswersOk s n) (hn : reads + l.length + (bits.length + (s.codeBits l).length) / 8 ≤ n) :
    eachByte packByte (l.length + m) (s.packed bits reads) =
      eachByte packByte m (s.packed (bits ++ s.codeBits l) (reads + l.length)) := by
  induction l generalizing bits reads with
  | nil => simp [State.codeBits]
  | cons b l ih =>
    have hbits : s.codeBits (b :: l) = (s.codeAt b).path ++ s.codeBits l := rfl
    rw [hbits, List.length_append, List.length_cons] at hn
    have hu1 : (s.packed bits reads).unread = b :: (l ++ r) := by rw [unread_packed, hu]; rfl
    rw [List.length_cons, show l.length + 1 + m = (l.length + m) + 1 by omega,
      eachByte_byte (answer_packed ha (by omega)) hu1, packed_read, packByte, codeAt_packed,
      if_pos (hv b (by simp)), putBits_packed _ ha (by omega), Flow.andThen_done,
      ih (by rw [← List.drop_drop, hu]; rfl) (fun c hc => hv c (by simp [hc])) (by simp; omega), hbits,
      List.append_assoc]
    congr 2; omega

/-- The rest of `PACK` at the end of the source (R178): the held bits, padded, make the last byte. -/
theorem flushBits_packed {s : State} {bits : List Bool} {reads n : Nat} (ha : AnswersOk s n)
    (hn : reads + (bits.length + 7) / 8 ≤ n) :
    flushBits (s.packed bits reads) = .done
      { s with acc := 0, nbits := 0, snk := s.snk ++ packedBytes bits,
               answers := s.answers.drop (reads + (bits.length + 7) / 8), srcPos := s.srcPos + reads } := by
  by_cases h0 : bits.length % 8 = 0
  · have hq : (bits.length + 7) / 8 = bits.length / 8 := by omega
    have hz : (s.packed bits reads).nbits = 0 := by simp [State.packed, h0]
    have hdrop : 8 * (bits.length / 8) = bits.length := by omega
    rw [flushBits, if_pos hz]
    simp only [State.packed, packedBytes, hq, h0, hdrop, List.drop_length]
    rfl
  · have hq : (bits.length + 7) / 8 = bits.length / 8 + 1 := by omega
    have hz : (s.packed bits reads).nbits ≠ 0 := by
      intro hh
      have := congrArg BitVec.toNat hh
      simp [State.packed] at this; omega
    have hbyte := padOut_accOf bits (bits.length / 8) (bits.length % 8) (by omega) (by omega) (by omega)
    have ha' : State.answer { s.packed bits reads with
        acc := padOut (s.packed bits reads).acc (s.packed bits reads).nbits } = .ok := answer_packed ha (by omega)
    rw [flushBits, if_neg hz, emitAcc, snkWrite_ok _ ha', Flow.andThen_done]
    simp only [State.packed, State.drawn, State.append, State.clearAcc, packedBytes, hq, hbyte, List.range_succ,
      List.map_append, List.map_cons, List.map_nil, List.append_assoc, List.tail_drop, Nat.add_assoc]

/-- `PACK` on a source whose bytes all have Codes (R181). -/
theorem packBody_ok {s : State} (hcv : s.codev = true) (hv : ∀ b ∈ s.unread, (s.codeAt b).valid = true)
    (ha : AnswersOk s (s.unread.length + 1 + ((s.codeBits s.unread).length + 7) / 8)) :
    packBody s = .done
      { s with acc := 0, nbits := 0, snk := s.snk ++ packedBytes (s.codeBits s.unread),
               answers := s.answers.drop (s.unread.length + 1 + ((s.codeBits s.unread).length + 7) / 8),
               srcPos := s.srcPos + s.unread.length } := by
  have hl := eachByte_packByte (s := s.clearAcc) (bits := []) (reads := 0) (m := 1) (r := []) s.unread
    (by simp [State.unread]) hv (ha.congr rfl) (by simp [State.codeBits, State.codeAt]; omega)
  have hcb : s.clearAcc.codeBits s.unread = s.codeBits s.unread := rfl
  rw [packed_nil, hcb, List.nil_append, Nat.zero_add] at hl
  rw [packBody, if_pos hcv, overSource]
  change (eachByte packByte (s.unread.length + 1) s.clearAcc).andThen flushBits = _
  have hu : (s.clearAcc.packed (s.codeBits s.unread) s.unread.length).unread = [] := by
    rw [unread_packed]; exact List.drop_length
  rw [hl, eachByte_eof (answer_packed (s := s.clearAcc) (n := s.unread.length + 1 + ((s.codeBits s.unread).length + 7) / 8)
    (ha.congr rfl) (by omega)) hu, Flow.andThen_done]
  have hdr : (s.clearAcc.packed (s.codeBits s.unread) s.unread.length).drawn =
      State.packed { s.clearAcc with answers := s.answers.tail } (s.codeBits s.unread) s.unread.length := by
    simp only [State.packed, State.drawn, State.clearAcc, List.tail_drop, List.drop_tail]
  have ha' : AnswersOk { s.clearAcc with answers := s.answers.tail }
      (s.unread.length + ((s.codeBits s.unread).length + 7) / 8) :=
    AnswersOk.of_drop (m := 1) (s := s) (ha.mono (by omega)) (by simp)
  rw [hdr, flushBits_packed ha' (Nat.le_refl _)]
  have hd : s.answers.tail.drop (s.unread.length + ((s.codeBits s.unread).length + 7) / 8) =
      s.answers.drop (s.unread.length + 1 + ((s.codeBits s.unread).length + 7) / 8) := by
    rw [List.drop_tail]; congr 1; omega
  simp only [hd, State.clearAcc]

/-- `PACK` at the first source byte without a Code (R177). -/
theorem packBody_noCode {s : State} {before later : List Byte} {b : Byte} (hcv : s.codev = true)
    (hu : s.unread = before ++ b :: later) (hv : ∀ c ∈ before, (s.codeAt c).valid = true)
    (hb : (s.codeAt b).valid = false)
    (ha : AnswersOk s (before.length + 1 + (s.codeBits before).length / 8)) :
    ∃ t, packBody s = .raised .noCode t ∧
      t.snk = s.snk ++ (packedBytes (s.codeBits before)).take ((s.codeBits before).length / 8) := by
  have hl := eachByte_packByte (s := s.clearAcc) (bits := []) (reads := 0) (m := later.length + 2) (r := b :: later)
    before (by rw [List.drop_zero]; exact hu) hv (ha.congr rfl) (by simp [State.codeBits, State.codeAt])
  have hcb : s.clearAcc.codeBits before = s.codeBits before := rfl
  rw [packed_nil, hcb, List.nil_append, Nat.zero_add] at hl
  have hu1 : (s.clearAcc.packed (s.codeBits before) before.length).unread = b :: later := by
    rw [unread_packed]
    change s.unread.drop _ = _
    rw [hu, List.drop_left]
  refine ⟨s.clearAcc.packed (s.codeBits before) (before.length + 1), ?_, ?_⟩
  · rw [packBody, if_pos hcv, overSource]
    change (eachByte packByte (s.unread.length + 1) s.clearAcc).andThen flushBits = _
    rw [show s.unread.length + 1 = before.length + (later.length + 2) by rw [hu]; simp; omega, hl,
      eachByte_byte (answer_packed (s := s.clearAcc) (n := before.length + 1 + (s.codeBits before).length / 8) (ha.congr rfl)
        (by omega)) hu1, packed_read, packByte, codeAt_packed]
    have : (s.clearAcc.codeAt b).valid = false := hb
    rw [this]; rfl
  · change s.snk ++ _ = _
    rw [packedBytes, ← List.map_take, List.take_range, Nat.min_eq_left (by omega)]

/-! ### Whatever the environment answers -/

/-- Fewer than eight bits are held, and none of them is left over when the count is 0 (R31, R32). -/
def State.Holding (s : State) : Prop := s.nbits.toNat < 8 ∧ (s.nbits = 0 → s.acc = 0)

/-- A flow that goes on only in states with `P`. -/
def Flow.Ends (P : State → Prop) : Flow → Prop
  | .done t => P t
  | _ => True

theorem Flow.Ends.andThen {f : Flow} {k : State → Flow} {P Q : State → Prop} (h : f.Ends P)
    (hk : ∀ s, P s → (k s).Ends Q) : (f.andThen k).Ends Q := by
  cases f with
  | done s => exact hk s h
  | raised e s => trivial
  | stuck r => trivial

theorem Flow.Ends.mono {f : Flow} {P Q : State → Prop} (h : f.Ends P) (hPQ : ∀ s, P s → Q s) : f.Ends Q := by
  cases f with
  | done s => exact hPQ s h
  | raised e s => trivial
  | stuck r => trivial

theorem emitAcc_ends (s : State) : (emitAcc s).Ends fun t => t.acc = 0 ∧ t.nbits = 0 := by
  unfold emitAcc
  rcases snkWrite_cases s.acc s with ⟨-, h⟩ | ⟨-, h⟩ | ⟨-, h⟩ <;> rw [h]
  · trivial
  · trivial
  · exact ⟨rfl, rfl⟩

theorem putBit_holding {s : State} (b : Bool) (h : s.Holding) : (putBit b s).Ends State.Holding := by
  unfold putBit
  split
  · exact (emitAcc_ends _).mono fun t ht => ⟨by rw [ht.2]; decide, fun _ => ht.1⟩
  · next h8 =>
    have hn : (s.nbits + 1).toNat = s.nbits.toNat + 1 := by
      rw [BitVec.toNat_add]
      have := h.1
      simp; omega
    refine ⟨?_, fun h0 => ?_⟩
    · change (s.nbits + 1).toNat < 8
      have : (s.nbits + 1).toNat ≠ 8 := fun hh => h8 (BitVec.eq_of_toNat_eq hh)
      have := h.1
      omega
    · have := congrArg BitVec.toNat (show s.nbits + 1 = 0 from h0)
      rw [hn] at this
      simp at this

theorem putBits_holding (l : List Bool) {s : State} (h : s.Holding) : (putBits l s).Ends State.Holding := by
  induction l generalizing s with
  | nil => exact h
  | cons b l ih => exact (putBit_holding b h).andThen fun t ht => ih ht

theorem eachByte_packByte_holding (n : Nat) {s : State} (h : s.Holding) :
    (eachByte packByte n s).Ends State.Holding := by
  induction n generalizing s with
  | zero => trivial
  | succ n ih =>
    rw [eachByte]
    rcases readByte_cases s .done (fun b s' => (packByte b s').andThen (eachByte packByte n)) with
      h' | ⟨-, h'⟩ | ⟨-, h'⟩ | ⟨b, r, -, h'⟩ <;> rw [h']
    · trivial
    · trivial
    · exact h
    · refine Flow.Ends.andThen (P := State.Holding) ?_ fun t ht => ih ht
      unfold packByte
      split
      · exact putBits_holding _ h
      · trivial

/-- A `PACK` that completes leaves `ACC` and `NBITS` 0 (R31, R32). -/
theorem packBody_ends (s : State) : (packBody s).Ends fun t => t.acc = 0 ∧ t.nbits = 0 := by
  unfold packBody
  split
  · refine (eachByte_packByte_holding _ (s := s.clearAcc) ⟨(by decide : (0 : BitVec 4).toNat < 8), fun _ => rfl⟩).andThen fun t ht => ?_
    unfold flushBits
    split
    · next h0 => exact ⟨ht.2 h0, h0⟩
    · exact emitAcc_ends _
  · trivial

end Sys2Proof.Machine
end

