-- ==== Sys2Proof/Laws/CodeTable.lean ====
section
/-! SUPPORT. The Code Table Generator: the walk over a tree writes each Leaf's root path (42_code_table.md R150 to R155). -/

namespace Sys2Proof.Machine

/-- `CODE` after the entries of `l` were written in order. -/
def writeCodes (code : Vector Code 256) (l : List (Byte × List Bool)) : Vector Code 256 :=
  l.foldl (fun c e => c.set e.1.toNat (codeOf e.2) e.1.isLt) code

theorem writeCodes_append (code : Vector Code 256) (l l' : List (Byte × List Bool)) :
    writeCodes code (l ++ l') = writeCodes (writeCodes code l) l' := by simp [writeCodes]

/-- An entry nothing writes keeps its value. -/
theorem writeCodes_other (l : List (Byte × List Bool)) (code : Vector Code 256) (b : Byte)
    (h : b ∉ l.map Prod.fst) : (writeCodes code l)[b.toNat]'b.isLt = code[b.toNat]'b.isLt := by
  induction l generalizing code with
  | nil => rfl
  | cons e l ih =>
    simp only [List.map_cons, List.mem_cons, not_or] at h
    rw [writeCodes, List.foldl_cons]
    refine (ih _ h.2).trans ?_
    rw [Vector.getElem_set_ne]
    exact fun hh => h.1 (BitVec.eq_of_toNat_eq hh.symm)

/-- An entry written once holds what was written. -/
theorem writeCodes_mem (l : List (Byte × List Bool)) (code : Vector Code 256) (e : Byte × List Bool)
    (hd : (l.map Prod.fst).Nodup) (he : e ∈ l) : (writeCodes code l)[e.1.toNat]'e.1.isLt = codeOf e.2 := by
  induction l generalizing code with
  | nil => simp at he
  | cons a l ih =>
    rw [List.map_cons, List.nodup_cons] at hd
    rw [writeCodes, List.foldl_cons]
    rcases List.mem_cons.mp he with rfl | he
    · exact (writeCodes_other l _ e.1 hd.1).trans (by simp)
    · exact ih _ hd.2 he

/-- The walk over the tree at `i` (R150): with a bound above the tree's depth it completes, and writes each Leaf's path
after the path so far. -/
theorem walkCodes_tree {s : State} {i : NodeRef} {tr : Tree} (h : TreeAt s i tr) (n : Nat) (path : List Bool)
    (hn : tr.leaves.length ≤ n) :
    walkCodes n i path s = .done { s with code := writeCodes s.code (tr.codes.map fun e => (e.1, path ++ e.2)) } := by
  induction tr generalizing s i n path with
  | leaf b w =>
    obtain ⟨m, rfl⟩ := Nat.exists_eq_add_one_of_ne_zero (n := n) (by simp [Tree.leaves] at hn; omega)
    cases h with
    | leaf at_i kind => simp [walkCodes, at_i, kind, Tree.codes, writeCodes, State.setCode]
  | internal w l r ihl ihr =>
    have hl1 := l.leaves_length_pos
    have hr1 := r.leaves_length_pos
    rw [Tree.leaves, List.length_append] at hn
    obtain ⟨m, rfl⟩ := Nat.exists_eq_add_one_of_ne_zero (n := n) (by omega)
    cases h with
    | internal at_i kind hl hr =>
      have hne := hl.ne_nil
      have hne' := hr.ne_nil
      simp only [walkCodes, at_i, kind, hne, hne', or_self, if_false]
      rw [ihl hl m _ (by omega), Flow.andThen_done, ihr (TreeAt.congr (by rfl) hr) m _ (by omega)]
      simp only [Tree.codes, List.map_append, List.map_map, writeCodes_append, Function.comp_def, List.append_assoc,
        List.cons_append, List.nil_append]

theorem codeAt_invalidateCodes (s : State) (b : Byte) :
    s.invalidateCodes.codeAt b = { s.codeAt b with valid := false } := by
  simp only [State.codeAt, State.invalidateCodes, invalidated]
  rw [Vector.getElem_mk, List.getElem_toArray, List.getElem_map]
  simp

theorem nodup_codes {s : State} {tr : Tree} (h : tr.leaves.Perm (tableEntries s.ft)) :
    (tr.codes.map Prod.fst).Nodup := by
  rw [tr.codes_symbols]
  exact ((h.map Prod.fst).nodup_iff).mpr (tableEntries_distinct s.ft)

theorem mem_codes_symbols {s : State} {tr : Tree} (h : tr.leaves.Perm (tableEntries s.ft)) (b : Byte) :
    b ∈ tr.codes.map Prod.fst ↔ s.ftAt b ≠ 0 := by
  rw [tr.codes_symbols, (h.map Prod.fst).mem_iff, List.mem_map]
  constructor
  · rintro ⟨e, he, rfl⟩
    obtain ⟨h1, h2⟩ := mem_tableEntries.mp he
    exact h1 ▸ h2
  · intro hb
    exact ⟨(b, s.ftAt b), mem_tableEntries.mpr ⟨rfl, hb⟩, rfl⟩

theorem TreeOf.leaves_length {s : State} {tr : Tree} (h : TreeOf s tr) : tr.leaves.length = s.k := h.leaves.length_eq

/-- `GENC` with a valid tree (R150, R151). -/
theorem gencBody_ok {s : State} {tr : Tree} (h : TreeOf s tr) (hv : s.treev = true) :
    ∃ code, gencBody s = .done { s with code := code, status := setBit (setBit s.status 3 false) 3 true } ∧
      ∀ t : State, t.code = code → t.ft = s.ft → CodesOf t tr := by
  have hk := k_le s
  have hlen := h.leaves_length
  have hw := walkCodes_tree (s := (s.setCodev false).invalidateCodes) (TreeAt.congr (by rfl) h.at_root) 256 [] (by omega)
  refine ⟨writeCodes (invalidated s.code) tr.codes, ?_, ?_⟩
  · rw [gencBody, if_pos hv]
    rw [hw]
    simp [State.setCodev, State.invalidateCodes]
  · intro t ht hft
    have hnd := nodup_codes h.leaves
    have hold : ∀ b, b ∉ tr.codes.map Prod.fst → (t.codeAt b).valid = false := by
      intro b hb
      rw [State.codeAt]
      simp only [ht]
      rw [writeCodes_other _ _ _ hb]
      exact congrArg Code.valid (codeAt_invalidateCodes s b)
    have hnew : ∀ e ∈ tr.codes, t.codeAt e.1 = codeOf e.2 := by
      intro e he
      rw [State.codeAt]
      simp only [ht]
      exact writeCodes_mem _ _ _ hnd he
    refine ⟨fun b => ?_, fun e he => hnew e he⟩
    rw [ftAt_congr hft, ← mem_codes_symbols h.leaves b]
    constructor
    · intro hb
      by_contra hc
      rw [hold b hc] at hb
      cases hb
    · intro hb
      obtain ⟨e, he, rfl⟩ := List.mem_map.mp hb
      rw [hnew e he]; rfl

end Sys2Proof.Machine
end

