-- ==== Sys2Proof/Laws/HeaderCodec.lean ====
section
/-! SUPPORT. The Header Codec: the bytes of a count (R65), the header's length and layout (R91 to R94), reading records
(R163 to R166), and the header round trip (R162). -/

namespace Sys2Proof.Machine

/-! ### Counts as bytes -/

/-- Reading a count's four bytes gives the count (R65). -/
theorem countOf_countBytes (c : Count) :
    countOf (c.extractLsb' 24 8) (c.extractLsb' 16 8) (c.extractLsb' 8 8) (c.extractLsb' 0 8) = c := by
  apply BitVec.eq_of_getLsbD_eq
  intro i hi
  simp only [countOf, BitVec.getLsbD_append, BitVec.getLsbD_extractLsb']
  by_cases h0 : i < 8
  · simp [h0]
  · by_cases h1 : i < 16
    · have : i - 8 < 8 := by omega
      simp [h0, this, show 8 + (i - 8) = i by omega]
    · by_cases h2 : i < 24
      · have a : ¬ i - 8 < 8 := by omega
        have b : i - 8 - 8 < 8 := by omega
        simp [h0, a, b, show 16 + (i - 8 - 8) = i by omega]
      · have a : ¬ i - 8 < 8 := by omega
        have b : ¬ i - 8 - 8 < 8 := by omega
        have d : i - 8 - 8 - 8 < 8 := by omega
        simp [h0, a, b, d, show 24 + (i - 8 - 8 - 8) = i by omega]

@[simp] theorem countBytes_length (c : Count) : (countBytes c).length = 4 := rfl

@[simp] theorem recordBytes_length (e : Byte × Count) : (recordBytes e).length = 5 := rfl

/-- `zext_9(b) + 1` does not wrap (R92). -/
theorem recordCount_eq (b : Byte) : recordCount b = b.toNat + 1 := by
  have := b.isLt
  simp [recordCount, BitVec.toNat_add]
  omega

/-- `k - 1` as a byte gives back `k` (R92). -/
theorem recordCount_kMinus1 {k : Nat} (h1 : 1 ≤ k) (h2 : k ≤ 256) : recordCount (kMinus1 k) = k := by
  rw [recordCount_eq]
  simp [kMinus1]; omega

/-! ### The header -/

theorem flatMap_recordBytes_length (l : List (Byte × Count)) : (l.flatMap recordBytes).length = 5 * l.length := by
  induction l with
  | nil => rfl
  | cons e l ih => rw [List.flatMap_cons, List.length_append, ih, recordBytes_length, List.length_cons]; omega

/-- The header of a table with `k` non-zero entries is exactly `1 + 5k` bytes (R91). -/
theorem headerBytes_length (s : State) : (headerBytes s.ft).length = 1 + 5 * s.k := by
  rw [headerBytes, List.length_cons, flatMap_recordBytes_length, State.k]; omega

/-- The records of a header read as the entries they were written from. -/
theorem recordsIn_flatMap (l : List (Byte × Count)) : recordsIn (l.flatMap recordBytes) = l := by
  induction l with
  | nil => rfl
  | cons e l ih =>
    rw [List.flatMap_cons]
    change recordsIn (e.1 :: e.2.extractLsb' 24 8 :: e.2.extractLsb' 16 8 :: e.2.extractLsb' 8 8 ::
      e.2.extractLsb' 0 8 :: l.flatMap recordBytes) = e :: l
    rw [recordsIn, ih]
    exact congrArg (· :: l) (Prod.ext rfl (countOf_countBytes e.2))

/-! ### Reading records -/

/-- The table after the records were assigned in order (R166). -/
def assigned (ft : Vector Count 256) (records : List (Byte × Count)) : Vector Count 256 :=
  records.foldl (fun ft e => ft.set e.1.toNat e.2 e.1.isLt) ft

/-- The last record of a symbol wins (R166). -/
theorem getElem_assigned (ft : Vector Count 256) (records : List (Byte × Count)) (b : Byte) :
    (assigned ft records)[b.toNat]'b.isLt =
      ((records.reverse.find? fun e => e.1 == b).map Prod.snd).getD (ft[b.toNat]'b.isLt) := by
  induction records generalizing ft with
  | nil => rfl
  | cons e records ih =>
    rw [assigned, List.foldl_cons]
    change (assigned _ records)[b.toNat]'b.isLt = _
    rw [ih, List.reverse_cons, List.find?_append]
    cases hf : records.reverse.find? fun e => e.1 == b with
    | some e' => simp
    | none =>
      by_cases h : e.1 = b
      · subst h; simp
      · have : e.1.toNat ≠ b.toNat := fun hh => h (BitVec.eq_of_toNat_eq hh)
        simp [h, this]

/-- The count of a symbol in a cleared table after the records (R166). -/
theorem getElem_assigned_zero (records : List (Byte × Count)) (b : Byte) :
    (assigned (Vector.replicate 256 0) records)[b.toNat]'b.isLt = lastCount b records := by
  rw [getElem_assigned]
  simp [lastCount]

theorem hdrByte_byte {s : State} {k : Byte → State → Flow} {b : Byte} {r : List Byte} (ha : s.answer = .ok)
    (hu : s.unread = b :: r) : hdrByte s k = k b s.drawn.advance := readByte_byte ha hu

theorem hdrByte_eof {s : State} {k : Byte → State → Flow} (ha : s.answer = .ok) (hu : s.unread = []) :
    hdrByte s k = .raised .hdr s.drawn := readByte_eof ha hu

/-- Five more bytes of the source, each read with success. -/
def State.skip (s : State) (n : Nat) : State := { s with srcPos := s.srcPos + n, answers := s.answers.drop n }

theorem skip_succ (s : State) (n : Nat) : s.drawn.advance.skip n = s.skip (n + 1) := by
  simp [State.skip, State.advance, State.drawn, Nat.add_comm, Nat.add_left_comm]

@[simp] theorem skip_zero (s : State) : s.skip 0 = s := by simp [State.skip]

theorem unread_skip (s : State) (n : Nat) : (s.skip n).unread = s.unread.drop n := by
  simp [State.unread, State.skip]

/-- One record (R163). -/
theorem readRecord_ok {s : State} {sym c3 c2 c1 c0 : Byte} {r : List Byte}
    (hu : s.unread = sym :: c3 :: c2 :: c1 :: c0 :: r) (ha : AnswersOk s 5) :
    readRecord s = .done ((s.skip 5).setFt sym (countOf c3 c2 c1 c0)) := by
  have hu1 := unread_advance (s := s.drawn) hu
  have ha1 : AnswersOk s.drawn.advance 4 := (ha.drawn).congr rfl
  have hu2 := unread_advance (s := s.drawn.advance.drawn) hu1
  have ha2 : AnswersOk s.drawn.advance.drawn.advance 3 := (ha1.drawn).congr rfl
  have hu3 := unread_advance (s := s.drawn.advance.drawn.advance.drawn) hu2
  have ha3 : AnswersOk s.drawn.advance.drawn.advance.drawn.advance 2 := (ha2.drawn).congr rfl
  have hu4 := unread_advance (s := s.drawn.advance.drawn.advance.drawn.advance.drawn) hu3
  have ha4 : AnswersOk s.drawn.advance.drawn.advance.drawn.advance.drawn.advance 1 := (ha3.drawn).congr rfl
  rw [readRecord, hdrByte_byte (ha.answer (by omega)) hu, hdrByte_byte (ha1.answer (by omega)) hu1,
    hdrByte_byte (ha2.answer (by omega)) hu2, hdrByte_byte (ha3.answer (by omega)) hu3,
    hdrByte_byte (ha4.answer (by omega)) hu4]
  rw [← skip_zero s.drawn.advance.drawn.advance.drawn.advance.drawn.advance.drawn.advance]
  simp only [skip_succ]

theorem recordsIn_append (sym c3 c2 c1 c0 : Byte) (l : List Byte) :
    recordsIn (sym :: c3 :: c2 :: c1 :: c0 :: l) = (sym, countOf c3 c2 c1 c0) :: recordsIn l := rfl

theorem five_of_length {l : List Byte} {n : Nat} (h : l.length = 5 * (n + 1)) :
    ∃ sym c3 c2 c1 c0 r, l = sym :: c3 :: c2 :: c1 :: c0 :: r ∧ r.length = 5 * n := by
  match l, h with
  | sym :: c3 :: c2 :: c1 :: c0 :: r, h => exact ⟨sym, c3, c2, c1, c0, r, rfl, by simp at h; omega⟩
  | [], h | [_], h | [_, _], h | [_, _, _], h | [_, _, _, _], h => simp only [List.length_cons, List.length_nil] at h; omega

/-- The `k` records of a header, assigned in file order (R163, R166). -/
theorem readRecords_ok (n : Nat) (s : State) (l r : List Byte) (hl : l.length = 5 * n) (hu : s.unread = l ++ r)
    (ha : AnswersOk s (5 * n)) :
    readRecords n s = .done { s.skip (5 * n) with ft := assigned s.ft (recordsIn l) } := by
  induction n generalizing s l with
  | zero =>
    obtain rfl : l = [] := by simpa using hl
    simp [readRecords, recordsIn, assigned]
  | succ n ih =>
    obtain ⟨sym, c3, c2, c1, c0, l', rfl, hl'⟩ := five_of_length hl
    have ha5 : AnswersOk s 5 := ha.mono (by omega)
    rw [readRecords, readRecord_ok (r := l' ++ r) (by simpa using hu) ha5, Flow.andThen_done,
      ih ((s.skip 5).setFt sym (countOf c3 c2 c1 c0)) l' hl'
        (by change (s.skip 5).unread = _; rw [unread_skip, hu]; rfl)
        (AnswersOk.of_drop (m := 5) (s := s) (ha.mono (by omega)) (by simp [State.skip]))]
    rw [recordsIn_append]
    have hpos : s.srcPos + 5 + 5 * n = s.srcPos + 5 * (n + 1) := by omega
    have hdrop : (s.answers.drop 5).drop (5 * n) = s.answers.drop (5 * (n + 1)) := by
      rw [List.drop_drop]; congr 1; omega
    simp only [State.skip, State.setFt, hpos, hdrop]
    rfl

/-- `f` raises `ERR_HDR` on a source with fewer than `m` bytes left, if the reads succeed. -/
def NeedsBytes (m : Nat) (f : State → Flow) : Prop :=
  ∀ s : State, s.unread.length < m → AnswersOk s (s.unread.length + 1) → ∃ t, f s = .raised .hdr t ∧ t.snk = s.snk

theorem NeedsBytes.zero (f : State → Flow) : NeedsBytes 0 f := fun _ h => absurd h (Nat.not_lt_zero _)

theorem NeedsBytes.hdrByte {m : Nat} {k : Byte → State → Flow} (hk : ∀ b, NeedsBytes m (k b)) :
    NeedsBytes (m + 1) fun s => hdrByte s k := by
  intro s hs ha
  cases hu : s.unread with
  | nil => exact ⟨s.drawn, hdrByte_eof (ha.answer (by omega)) hu, rfl⟩
  | cons b r =>
    have hu1 : s.drawn.advance.unread = r := unread_advance (s := s.drawn) hu
    rw [hu, List.length_cons] at hs ha
    obtain ⟨t, h1, h2⟩ := hk b s.drawn.advance (by rw [hu1]; omega) (by rw [hu1]; exact (ha.drawn).congr rfl)
    exact ⟨t, (hdrByte_byte (ha.answer (by omega)) hu).trans h1, h2⟩

/-- A source that ends inside a record raises `ERR_HDR` (R165). -/
theorem readRecord_short : NeedsBytes 5 readRecord :=
  .hdrByte fun _ => .hdrByte fun _ => .hdrByte fun _ => .hdrByte fun _ => .hdrByte fun _ => .zero _

/-- A source shorter than the records its header declares raises `ERR_HDR` (R165). -/
theorem readRecords_short (n : Nat) (s : State) (hu : s.unread.length < 5 * n)
    (ha : AnswersOk s (s.unread.length + 1)) : ∃ t, readRecords n s = .raised .hdr t ∧ t.snk = s.snk := by
  induction n generalizing s with
  | zero => omega
  | succ n ih =>
    by_cases h5 : s.unread.length < 5
    · obtain ⟨t, h1, h2⟩ := readRecord_short s h5 ha
      exact ⟨t, by rw [readRecords, h1]; rfl, h2⟩
    · obtain ⟨sym, c3, c2, c1, c0, r, hs, -⟩ : ∃ sym c3 c2 c1 c0 r, s.unread = sym :: c3 :: c2 :: c1 :: c0 :: r ∧ True := by
        match h : s.unread, h5 with
        | sym :: c3 :: c2 :: c1 :: c0 :: r, _ => exact ⟨sym, c3, c2, c1, c0, r, rfl, trivial⟩
        | [], h5 | [_], h5 | [_, _], h5 | [_, _, _], h5 | [_, _, _, _], h5 => simp at h5
      have hlen : s.unread.length = r.length + 5 := by rw [hs]; rfl
      have hu' : ((s.skip 5).setFt sym (countOf c3 c2 c1 c0)).unread = r := by
        change (s.skip 5).unread = r
        rw [unread_skip, hs]; rfl
      obtain ⟨t, h1, h2⟩ := ih ((s.skip 5).setFt sym (countOf c3 c2 c1 c0)) (by rw [hu']; omega)
        (AnswersOk.of_drop (m := 5) (s := s) (by rw [hu']; exact ha.mono (by omega)) (by simp [State.skip]))
      exact ⟨t, by rw [readRecords, readRecord_ok hs (ha.mono (by omega)), Flow.andThen_done, h1], h2⟩

/-- `HDES` on a source that holds a whole header (R163). -/
theorem hdesBody_ok {s : State} {b : Byte} {l r : List Byte} (hu : s.unread = b :: (l ++ r))
    (hl : l.length = 5 * (b.toNat + 1)) (ha : AnswersOk s (1 + l.length)) :
    hdesBody s = .done { s.dropDerived.skip (1 + l.length) with
      ft := assigned (Vector.replicate 256 0) (recordsIn l) } := by
  have hu0 : s.dropDerived.clearFt.unread = b :: (l ++ r) := hu
  have ha0 : AnswersOk s.dropDerived.clearFt (l.length + 1) := (ha.congr rfl).mono (by omega)
  rw [hdesBody, readByte_byte (ha0.answer (by omega)) hu0, recordCount_eq,
    readRecords_ok _ _ l r hl (unread_advance (s := s.dropDerived.clearFt.drawn) hu0)
      (hl ▸ (ha0.drawn).congr rfl), ← hl, skip_succ, Nat.add_comm 1]
  rfl

/-- `HDES` on an empty source (R164). -/
theorem hdesBody_empty {s : State} (hu : s.unread = []) (ha : AnswersOk s 1) :
    hdesBody s = .done s.dropDerived.clearFt.drawn := by
  have ha0 : s.dropDerived.clearFt.answer = .ok := ha.answer (by omega)
  have hu0 : s.dropDerived.clearFt.unread = [] := hu
  rw [hdesBody, readByte_eof ha0 hu0]

/-- `HDES` on a source shorter than its header declares (R165). -/
theorem hdesBody_short {s : State} {b : Byte} {r : List Byte} (hu : s.unread = b :: r)
    (hr : r.length < 5 * (b.toNat + 1)) (ha : AnswersOk s (r.length + 2)) :
    ∃ t, hdesBody s = .raised .hdr t ∧ t.snk = s.snk := by
  have hu0 : s.dropDerived.clearFt.unread = b :: r := hu
  have ha0 : AnswersOk s.dropDerived.clearFt (r.length + 1 + 1) := ha.congr rfl
  have hu1 : s.dropDerived.clearFt.drawn.advance.unread = r := unread_advance (s := s.dropDerived.clearFt.drawn) hu0
  obtain ⟨t, h1, h2⟩ := readRecords_short (b.toNat + 1) s.dropDerived.clearFt.drawn.advance (by rw [hu1]; exact hr)
    (by rw [hu1]; exact (ha0.drawn).congr rfl)
  exact ⟨t, by rw [hdesBody, readByte_byte (ha0.answer (by omega)) hu0, recordCount_eq, h1], h2⟩

/-- `HSER` on a non-empty table (R160). -/
theorem hserBody_ok {s : State} (hk : 1 ≤ s.k) (ha : AnswersOk s (1 + 5 * s.k)) :
    hserBody s = .done { s with snk := s.snk ++ headerBytes s.ft, answers := s.answers.drop (1 + 5 * s.k) } := by
  rw [hserBody, if_neg (by omega), snkWrites_ok _ _ (by rwa [headerBytes_length]), headerBytes_length]

/-- Deserializing the records a table was serialized to gives the table (R162). -/
theorem assigned_tableEntries (s : State) : assigned (Vector.replicate 256 0) (tableEntries s.ft) = s.ft := by
  apply Vector.ext
  intro i hi
  obtain ⟨b, rfl⟩ : ∃ b : Byte, b.toNat = i := ⟨BitVec.ofNat 8 i, by simp; omega⟩
  rw [getElem_assigned_zero, lastCount]
  cases hf : (tableEntries s.ft).reverse.find? fun e => e.1 == b with
  | some e =>
    have hm := List.mem_of_find?_eq_some hf
    have hb : e.1 = b := by simpa using List.find?_some hf
    obtain ⟨h1, -⟩ := mem_tableEntries.mp (List.mem_reverse.mp hm)
    subst hb
    exact h1.symm
  | none =>
    rw [List.find?_eq_none] at hf
    by_contra hne
    have hmem : (b, s.ftAt b) ∈ tableEntries s.ft := mem_tableEntries.mpr ⟨rfl, fun h0 => hne (by
      simp [State.ftAt] at h0; simp [h0])⟩
    exact hf _ (List.mem_reverse.mpr hmem) (by simp)

end Sys2Proof.Machine
end

