-- ==== Sys2Proof/Laws/Frames.lean ====
section
/-! SUPPORT. What each command's pseudocode leaves alone, said once per command whether it completes or raises, and that with
the machine's own tree none steps to an absent child or runs out of its bounds. -/

namespace Sys2Proof.Machine

/-! ### The parts of the state -/

/-- The parts of the state that commands write. -/
inductive Part where
  | ft
  | tree
  | code
  | writer
  | reader
  | cursor
  | sink
  | flags
  deriving DecidableEq

/-- The part is unchanged from `s` to `t`. -/
def Part.Same (s t : State) : Part → Prop
  | .ft => t.ft = s.ft
  | .tree => SameTree s t
  | .code => t.code = s.code
  | .writer => SameWriter s t
  | .reader => SameReader s t
  | .cursor => t.srcPos = s.srcPos
  | .sink => t.snk = s.snk
  | .flags => t.status = s.status

theorem Part.Same.refl (s : State) (p : Part) : Part.Same s s p := by
  cases p <;> first | rfl | exact ⟨rfl, rfl, rfl, rfl⟩ | exact ⟨rfl, rfl⟩

theorem Part.Same.trans {s t u : State} {p : Part} (h : Part.Same s t p) (h' : Part.Same t u p) : Part.Same s u p := by
  cases p with
  | ft => exact Eq.trans h' h
  | tree => exact ⟨h'.1.trans h.1, h'.2.1.trans h.2.1, h'.2.2.1.trans h.2.2.1, h'.2.2.2.trans h.2.2.2⟩
  | code => exact Eq.trans h' h
  | writer => exact ⟨h'.1.trans h.1, h'.2.trans h.2⟩
  | reader => exact ⟨h'.1.trans h.1, h'.2.trans h.2⟩
  | cursor => exact Eq.trans h' h
  | sink => exact Eq.trans h' h
  | flags => exact Eq.trans h' h

/-- Only the parts `ps` and the environment's answers may differ; and those only as every command keeps to: the cursor stays
in the source, the sink is appended to, of `STATUS` only the two flags change. -/
structure Outside (ps : List Part) (s t : State) : Prop where
  same : ∀ p ∉ ps, Part.Same s t p
  src : t.src = s.src
  eqInternal : t.eqInternal = s.eqInternal
  script : t.script = s.script
  faultKeep : t.faultKeep = s.faultKeep
  errcode : t.errcode = s.errcode
  bits : ∀ i, i ≠ 2 → i ≠ 3 → t.status.getLsbD i = s.status.getLsbD i
  cursor : s.srcPos ≤ s.src.length → t.srcPos ≤ s.src.length
  sink : s.snk <+: t.snk

theorem Outside.refl (ps : List Part) (s : State) : Outside ps s s where
  same p _ := Part.Same.refl s p
  src := rfl
  eqInternal := rfl
  script := rfl
  faultKeep := rfl
  errcode := rfl
  bits _ _ _ := rfl
  cursor h := h
  sink := List.prefix_rfl

theorem Outside.trans {ps : List Part} {s t u : State} (h : Outside ps s t) (h' : Outside ps t u) : Outside ps s u where
  same p hp := (h.same p hp).trans (h'.same p hp)
  src := h'.src.trans h.src
  eqInternal := h'.eqInternal.trans h.eqInternal
  script := h'.script.trans h.script
  faultKeep := h'.faultKeep.trans h.faultKeep
  errcode := h'.errcode.trans h.errcode
  bits i h2 h3 := (h'.bits i h2 h3).trans (h.bits i h2 h3)
  cursor hc := by
    have := h'.cursor (by rw [h.src]; exact h.cursor hc)
    rwa [h.src] at this
  sink := h.sink.trans h'.sink

theorem Outside.mono {ps qs : List Part} {s t : State} (h : Outside ps s t) (hs : ps ⊆ qs) : Outside qs s t :=
  { h with same := fun p hp => h.same p fun hm => hp (hs hm) }

/-- An update of listed parts that are neither the cursor, the sink nor `STATUS`. -/
theorem Outside.of_same {ps : List Part} {s t : State} (h : ∀ p ∉ ps, Part.Same s t p) (hsrc : t.src = s.src)
    (heq : t.eqInternal = s.eqInternal) (hscript : t.script = s.script) (hkeep : t.faultKeep = s.faultKeep)
    (herr : t.errcode = s.errcode) (hst : t.status = s.status) (hpos : t.srcPos = s.srcPos) (hsnk : t.snk = s.snk) :
    Outside ps s t where
  same := h
  src := hsrc
  eqInternal := heq
  script := hscript
  faultKeep := hkeep
  errcode := herr
  bits _ _ _ := by rw [hst]
  cursor := by rw [hpos]; exact id
  sink := by rw [hsnk]

theorem Outside.andThen {ps : List Part} {s : State} {f : Flow} {k : State → Flow} (h : f.Sat (Outside ps s))
    (hk : ∀ t, (k t).Sat (Outside ps t)) : (f.andThen k).Sat (Outside ps s) :=
  h.andThen (fun _ h => h) fun t ht => (hk t).mono fun _ hu => ht.trans hu

/-- From a state reached by an allowed update on. -/
theorem Outside.after {ps : List Part} {s t : State} {f : Flow} (h : Outside ps s t) (hf : f.Sat (Outside ps t)) :
    f.Sat (Outside ps s) := hf.mono fun _ hu => h.trans hu

theorem Outside.drawn (ps : List Part) (s : State) : Outside ps s s.drawn :=
  .of_same (fun p _ => by cases p <;> first | rfl | exact ⟨rfl, rfl, rfl, rfl⟩ | exact ⟨rfl, rfl⟩)
    rfl rfl rfl rfl rfl rfl rfl rfl

theorem Outside.append {ps : List Part} (h : Part.sink ∈ ps) (s : State) (v : Byte) :
    Outside ps s (s.drawn.append v) :=
  { Outside.drawn ps s with
    same := fun p hp => by
      cases p <;> first | rfl | exact ⟨rfl, rfl, rfl, rfl⟩ | exact ⟨rfl, rfl⟩ | exact absurd h hp
    sink := List.prefix_append _ _ }

theorem Outside.read {ps : List Part} (h : Part.cursor ∈ ps) {s : State} {b : Byte} {r : List Byte}
    (hu : s.unread = b :: r) : Outside ps s s.drawn.advance :=
  { Outside.drawn ps s with
    same := fun p hp => by
      cases p <;> first | rfl | exact ⟨rfl, rfl, rfl, rfl⟩ | exact ⟨rfl, rfl⟩ | exact absurd h hp
    cursor := fun _ => srcPos_lt_of_unread hu }

theorem Outside.flags {ps : List Part} (h : Part.flags ∈ ps) (s : State) (w : Byte)
    (hw : ∀ i, i ≠ 2 → i ≠ 3 → w.getLsbD i = s.status.getLsbD i) : Outside ps s { s with status := w } :=
  { Outside.refl ps s with
    same := fun p hp => by
      cases p <;> first | rfl | exact ⟨rfl, rfl, rfl, rfl⟩ | exact ⟨rfl, rfl⟩ | exact absurd h hp
    bits := hw }

theorem getLsbD_setBit_of_ne (w : Byte) (i j : Nat) (b : Bool) (hi : i < 8) (h : j ≠ i) :
    (setBit w i b).getLsbD j = w.getLsbD j := by
  by_cases hj : j < 8
  · rw [getLsbD_setBit w i j b hi hj, if_neg h]
  · rw [BitVec.getLsbD_of_ge _ _ (by omega), BitVec.getLsbD_of_ge _ _ (by omega)]

theorem Outside.setTreev {ps : List Part} (h : Part.flags ∈ ps) (s : State) (b : Bool) : Outside ps s (s.setTreev b) :=
  .flags h s _ fun i h2 _ => getLsbD_setBit_of_ne _ _ _ _ (by decide) h2

theorem Outside.setCodev {ps : List Part} (h : Part.flags ∈ ps) (s : State) (b : Bool) : Outside ps s (s.setCodev b) :=
  .flags h s _ fun i _ h3 => getLsbD_setBit_of_ne _ _ _ _ (by decide) h3

theorem Outside.dropDerived {ps : List Part} (h : Part.flags ∈ ps) (s : State) : Outside ps s s.dropDerived :=
  (Outside.setTreev h s false).trans (Outside.setCodev h _ false)

/-! ### The shared pieces -/

theorem readByte_outside {ps : List Part} (h : Part.cursor ∈ ps) (s : State) {onEof : State → Flow}
    {k : Byte → State → Flow} (he : ∀ t, (onEof t).Sat (Outside ps t)) (hk : ∀ b t, (k b t).Sat (Outside ps t)) :
    (readByte s onEof k).Sat (Outside ps s) := by
  rcases readByte_cases s onEof k with h' | ⟨-, h'⟩ | ⟨-, h'⟩ | ⟨b, r, hu, h'⟩ <;> rw [h']
  · exact .drawn ps s
  · trivial
  · exact (Outside.drawn ps s).after (he _)
  · exact (Outside.read h hu).after (hk _ _)

theorem snkWrite_outside {ps : List Part} (h : Part.sink ∈ ps) (v : Byte) (s : State) :
    (snkWrite v s).Sat (Outside ps s) := by
  rcases snkWrite_cases v s with ⟨-, h'⟩ | ⟨-, h'⟩ | ⟨-, h'⟩ <;> rw [h']
  · exact .drawn ps s
  · trivial
  · exact .append h s v

theorem snkWrites_outside {ps : List Part} (h : Part.sink ∈ ps) (vs : List Byte) (s : State) :
    (snkWrites vs s).Sat (Outside ps s) := by
  induction vs generalizing s with
  | nil => exact .refl ps s
  | cons v vs ih => exact Outside.andThen (snkWrite_outside h v s) fun t => ih t

theorem eachByte_outside {ps : List Part} (h : Part.cursor ∈ ps) {body : Byte → State → Flow}
    (hb : ∀ b t, (body b t).Sat (Outside ps t)) (n : Nat) (s : State) : (eachByte body n s).Sat (Outside ps s) := by
  induction n generalizing s with
  | zero => trivial
  | succ n ih =>
    rw [eachByte]
    exact readByte_outside h s (fun t => .refl ps t) fun b t => Outside.andThen (hb b t) fun u => ih u

/-! ### The commands -/

theorem Outside.setFt {ps : List Part} (h : Part.ft ∈ ps) (s : State) (b : Byte) (c : Count) :
    Outside ps s (s.setFt b c) :=
  .of_same (fun p hp => by
      cases p <;> first | rfl | exact ⟨rfl, rfl, rfl, rfl⟩ | exact ⟨rfl, rfl⟩ | exact absurd h hp)
    rfl rfl rfl rfl rfl rfl rfl rfl

theorem Outside.clearFt {ps : List Part} (h : Part.ft ∈ ps) (s : State) : Outside ps s s.clearFt :=
  .of_same (fun p hp => by
      cases p <;> first | rfl | exact ⟨rfl, rfl, rfl, rfl⟩ | exact ⟨rfl, rfl⟩ | exact absurd h hp)
    rfl rfl rfl rfl rfl rfl rfl rfl

/-- `FCLR` writes `FT` and the flags (R120). -/
theorem fclrBody_outside (s : State) : (fclrBody s).Sat (Outside [.ft, .flags] s) :=
  (Outside.clearFt (by simp) s).trans (Outside.dropDerived (by simp) _)

theorem countByte_outside {ps : List Part} (h : Part.ft ∈ ps) (b : Byte) (s : State) :
    (countByte b s).Sat (Outside ps s) := by
  unfold countByte
  split
  · exact .refl ps s
  · exact .setFt h s _ _

theorem overSource_countByte_outside (s : State) : (overSource countByte s).Sat (Outside [.ft, .cursor] s) :=
  eachByte_outside (by simp) (fun b t => countByte_outside (by simp) b t) _ s

/-- `FCNT` writes `FT`, the flags and `SRCPOS` (R121). -/
theorem fcntBody_outside (s : State) : (fcntBody s).Sat (Outside [.ft, .flags, .cursor] s) :=
  (Outside.dropDerived (by simp) s).after ((overSource_countByte_outside _).mono fun _ h => h.mono (by simp))

theorem hdrByte_outside {ps : List Part} (h : Part.cursor ∈ ps) (s : State) {k : Byte → State → Flow}
    (hk : ∀ b t, (k b t).Sat (Outside ps t)) : (hdrByte s k).Sat (Outside ps s) :=
  readByte_outside h s (fun t => .refl ps t) hk

theorem readRecord_outside (s : State) : (readRecord s).Sat (Outside [.ft, .cursor] s) :=
  hdrByte_outside (by simp) _ fun _ _ => hdrByte_outside (by simp) _ fun _ _ => hdrByte_outside (by simp) _ fun _ _ =>
    hdrByte_outside (by simp) _ fun _ _ => hdrByte_outside (by simp) _ fun _ _ => Outside.setFt (by simp) _ _ _

theorem readRecords_outside (n : Nat) (s : State) : (readRecords n s).Sat (Outside [.ft, .cursor] s) := by
  induction n generalizing s with
  | zero => exact .refl _ s
  | succ n ih => exact Outside.andThen (readRecord_outside s) fun t => ih t

theorem hdesReads_outside (s : State) :
    (readByte s.dropDerived.clearFt .done fun b t => readRecords (recordCount b) t).Sat
      (Outside [.ft, .cursor] s.dropDerived) :=
  (Outside.clearFt (by simp) _).after
    (readByte_outside (by simp) _ (fun t => .refl _ t) fun _ t => readRecords_outside _ t)

/-- `HDES` writes `FT`, the flags and `SRCPOS` (R163). -/
theorem hdesBody_outside (s : State) : (hdesBody s).Sat (Outside [.ft, .flags, .cursor] s) :=
  (Outside.dropDerived (by simp) s).after ((hdesReads_outside s).mono fun _ h => h.mono (by simp))

/-- `HSER` writes the sink (R160). -/
theorem hserBody_outside (s : State) : (hserBody s).Sat (Outside [.sink] s) := by
  unfold hserBody
  split
  · exact .refl _ s
  · exact snkWrites_outside (by simp) _ s

theorem Outside.allocNode {ps : List Part} (h : Part.tree ∈ ps) (s : State) (nd : Node) :
    Outside ps s (s.allocNode nd) :=
  .of_same (fun p hp => by
      cases p <;> first | rfl | exact ⟨rfl, rfl⟩ | exact absurd h hp)
    rfl rfl rfl rfl rfl rfl rfl rfl

theorem takeRoot_outside (r : NodeRef) (s : State) : (takeRoot r s).Sat (Outside [.tree, .flags] s) := by
  unfold takeRoot
  split
  · trivial
  · next nd _ =>
    refine Outside.trans (t := { s with root := r, total := nd.weight }) ?_ (Outside.setTreev (by simp) _ _)
    exact .of_same (fun p hp => by
        cases p <;> first | rfl | exact ⟨rfl, rfl⟩ | exact absurd (by simp) hp) rfl rfl rfl rfl rfl rfl rfl rfl

theorem mergeLoop_outside (n : Nat) (ord : List NodeRef) (s : State) :
    (mergeLoop n ord s).Sat (Outside [.tree, .flags] s) := by
  induction n generalizing ord s with
  | zero =>
    match ord with
    | [] => trivial
    | [r] => exact takeRoot_outside r s
    | _ :: _ :: _ => trivial
  | succ n ih =>
    match ord with
    | [] => trivial
    | [r] => exact takeRoot_outside r s
    | a :: b :: rest =>
      rw [mergeLoop]
      split
      · simp only
        split
        · exact .refl _ s
        · exact (Outside.allocNode (by simp) s _).after (ih _ _)
      · trivial

/-- `BUILD` writes the tree registers and the flags (R130). -/
theorem buildBody_outside (s : State) : (buildBody s).Sat (Outside [.tree, .flags] s) := by
  unfold buildBody
  split
  · exact .dropDerived (by simp) s
  · obtain ⟨node, nnode, he, -, -⟩ := materializeLeaves_spec s.dropDerived
    rw [he]
    refine (Outside.dropDerived (by simp) s).after (Outside.after ?_ (mergeLoop_outside _ _ _))
    exact .of_same (fun p hp => by
        cases p <;> first | rfl | exact ⟨rfl, rfl⟩ | exact absurd (by simp) hp) rfl rfl rfl rfl rfl rfl rfl rfl

theorem walkCodes_outside (n : Nat) (i : NodeRef) (path : List Bool) (s : State) :
    (walkCodes n i path s).Sat (Outside [.code] s) := by
  induction n generalizing i path s with
  | zero => trivial
  | succ n ih =>
    rw [walkCodes]
    split
    · trivial
    · split
      · exact .of_same (fun p hp => by
          cases p <;> first | rfl | exact ⟨rfl, rfl, rfl, rfl⟩ | exact ⟨rfl, rfl⟩ | exact absurd (by simp) hp)
          rfl rfl rfl rfl rfl rfl rfl rfl
      · split
        · exact .refl _ s
        · exact Outside.andThen (ih _ _ _) fun t => ih _ _ t

/-- `GENC` writes `CODE` and `CODEV` (R150). -/
theorem gencBody_outside (s : State) : (gencBody s).Sat (Outside [.code, .flags] s) := by
  unfold gencBody
  split
  · refine (Outside.setCodev (by simp) s false).after (Outside.after ?_ (Outside.andThen
      ((walkCodes_outside _ _ _ _).mono fun _ h => h.mono (by simp)) fun t => Outside.setCodev (by simp) t true))
    exact .of_same (fun p hp => by
        cases p <;> first | rfl | exact ⟨rfl, rfl, rfl, rfl⟩ | exact ⟨rfl, rfl⟩ | exact absurd (by simp) hp)
        rfl rfl rfl rfl rfl rfl rfl rfl
  · exact .setCodev (by simp) s false

theorem Outside.writer {ps : List Part} (h : Part.writer ∈ ps) (s : State) (acc : Byte) (nbits : BitVec 4) :
    Outside ps s { s with acc := acc, nbits := nbits } :=
  .of_same (fun p hp => by
      cases p <;> first | rfl | exact ⟨rfl, rfl, rfl, rfl⟩ | exact ⟨rfl, rfl⟩ | exact absurd h hp)
    rfl rfl rfl rfl rfl rfl rfl rfl

theorem emitAcc_outside {ps : List Part} (hw : Part.writer ∈ ps) (hs : Part.sink ∈ ps) (s : State) :
    (emitAcc s).Sat (Outside ps s) :=
  Outside.andThen (snkWrite_outside hs _ s) fun t => Outside.writer hw t 0 0

theorem putBits_outside {ps : List Part} (hw : Part.writer ∈ ps) (hs : Part.sink ∈ ps) (l : List Bool) (s : State) :
    (putBits l s).Sat (Outside ps s) := by
  induction l generalizing s with
  | nil => exact .refl ps s
  | cons b l ih =>
    refine Outside.andThen ?_ fun t => ih t
    unfold putBit
    have hsh : Outside ps s (s.shiftBit b) := Outside.writer hw s _ _
    split
    · exact hsh.after (emitAcc_outside hw hs _)
    · exact hsh

/-- `PACK` writes `ACC`, `NBITS`, the sink and `SRCPOS` (R175). -/
theorem packBody_outside (s : State) : (packBody s).Sat (Outside [.writer, .sink, .cursor] s) := by
  unfold packBody
  split
  · refine Outside.after (Outside.writer (by simp) s 0 0) (Outside.andThen (eachByte_outside (by simp) ?_ _ _) ?_)
    · intro b t
      unfold packByte
      split
      · exact putBits_outside (by simp) (by simp) _ t
      · exact .refl _ t
    · intro t
      unfold flushBits
      split
      · exact .refl _ t
      · exact Outside.after (Outside.writer (by simp) t _ _) (emitAcc_outside (by simp) (by simp) _)
  · exact .refl _ s

theorem Outside.reader {ps : List Part} (h : Part.reader ∈ ps) (s : State) (cur : NodeRef) (outcnt : Count) :
    Outside ps s { s with cur := cur, outcnt := outcnt } :=
  .of_same (fun p hp => by
      cases p <;> first | rfl | exact ⟨rfl, rfl, rfl, rfl⟩ | exact ⟨rfl, rfl⟩ | exact absurd h hp)
    rfl rfl rfl rfl rfl rfl rfl rfl

theorem emitSymbol_outside {ps : List Part} (hr : Part.reader ∈ ps) (hs : Part.sink ∈ ps) (d : Byte) (s : State) :
    (emitSymbol d s).Sat (Outside ps s) :=
  Outside.andThen (snkWrite_outside hs _ s) fun t => Outside.reader hr t _ _

theorem degenerateEmit_outside {ps : List Part} (hr : Part.reader ∈ ps) (hs : Part.sink ∈ ps) (d : Byte) (n : Nat)
    (s : State) : (degenerateEmit d n s).Sat (Outside ps s) := by
  induction n generalizing s with
  | zero => rw [degenerateEmit]; split <;> first | exact Outside.refl ps s | trivial
  | succ n ih =>
    rw [degenerateEmit]
    split
    · exact .refl ps s
    · exact Outside.andThen (emitSymbol_outside hr hs d s) fun t => ih t

theorem walkBit_outside {ps : List Part} (hr : Part.reader ∈ ps) (hs : Part.sink ∈ ps) (b : Bool) (s : State) :
    (walkBit b s).Sat (Outside ps s) := by
  unfold walkBit
  split
  · trivial
  · simp only
    split
    · exact .refl ps s
    · split
      · exact Outside.after (Outside.reader hr s _ _) (emitSymbol_outside hr hs _ _)
      · exact Outside.reader hr s _ _

theorem walkBits_outside {ps : List Part} (hr : Part.reader ∈ ps) (hs : Part.sink ∈ ps) (l : List Bool) (s : State) :
    (walkBits l s).Sat (Outside ps s) := by
  induction l generalizing s with
  | nil => exact .refl ps s
  | cons b l ih =>
    rw [walkBits]
    refine Outside.andThen (walkBit_outside hr hs b s) fun t => ?_
    split
    · exact .refl ps t
    · exact ih t

theorem walkLoop_outside {ps : List Part} (hr : Part.reader ∈ ps) (hs : Part.sink ∈ ps) (hc : Part.cursor ∈ ps)
    (n : Nat) (s : State) : (walkLoop n s).Sat (Outside ps s) := by
  induction n generalizing s with
  | zero => trivial
  | succ n ih =>
    rw [walkLoop]
    split
    · exact .refl ps s
    · exact readByte_outside hc s (fun t => .refl ps t) fun b t =>
        Outside.andThen (walkBits_outside hr hs _ t) fun u => ih u

/-- `UNPACK` writes `CUR`, `OUTCNT`, the sink and `SRCPOS` (R190). -/
theorem unpackBody_outside (s : State) : (unpackBody s).Sat (Outside [.reader, .sink, .cursor] s) := by
  unfold unpackBody
  split
  · simp only
    split
    · trivial
    · split
      · exact Outside.after (Outside.reader (by simp) s _ _) (degenerateEmit_outside (by simp) (by simp) _ _ _)
      · exact Outside.after (Outside.reader (by simp) s _ _) (walkLoop_outside (by simp) (by simp) (by simp) _ _)
  · exact .refl _ s

/-- `REWIND` writes `SRCPOS` (R211). -/
theorem rewindBody_outside (s : State) : (rewindBody s).Sat (Outside [.cursor] s) := by
  unfold rewindBody
  split
  · exact .drawn _ s
  · trivial
  · exact { Outside.drawn [.cursor] s with
      same := fun p hp => by
        cases p <;> first | rfl | exact ⟨rfl, rfl, rfl, rfl⟩ | exact ⟨rfl, rfl⟩ | exact absurd (by simp) hp
      cursor := fun _ => Nat.zero_le _ }

end Sys2Proof.Machine
end

