-- ==== Sys2Proof/Laws/Composite.lean ====
section
/-! SUPPORT. The composite commands (46_composite_system.md R213 to R220): what `ENCODE` and `DECODE` do when no access fails,
and that `DECODE` undoes `ENCODE` (R216). -/

namespace Sys2Proof.Machine

/-! ### Counting a source from an empty table -/

theorem sum_indicator (x n : Nat) :
    ((List.range n).map fun i => if i = x then 1 else 0).sum = if x < n then 1 else 0 := by
  induction n with
  | zero => simp
  | succ n ih =>
    rw [List.range_succ, List.map_append, List.sum_append, ih]
    simp only [List.map_cons, List.map_nil, List.sum_cons, List.sum_nil, Nat.add_zero]
    split <;> split <;> split <;> omega

theorem sum_counts (N : Nat) (hN : N = 256) (l : List Byte) :
    ((List.range N).map fun i => l.count (BitVec.ofNat 8 i)).sum = l.length := by
  induction l with
  | nil => simp
  | cons a l ih =>
    have hfun : ∀ i ∈ List.range N, (a :: l).count (BitVec.ofNat 8 i) =
        l.count (BitVec.ofNat 8 i) + if i = a.toNat then 1 else 0 := by
      intro i hi
      rw [List.count_cons]
      congr 1
      have hi' := List.mem_range.mp hi
      by_cases h : i = a.toNat
      · subst h; simp
      · have : ¬ a = BitVec.ofNat 8 i := by
          rintro rfl
          simp at h; omega
        simp [h, this]
    rw [List.map_congr_left hfun, List.sum_map_add, ih, sum_indicator, if_pos (by have := a.isLt; omega),
      List.length_cons]

theorem totalFT_eq_sum (s : State) :
    s.totalFT = ((List.range 256).map fun i => (s.ftAt (BitVec.ofNat 8 i)).toNat).sum := by
  rw [State.totalFT]
  congr 1
  apply List.ext_getElem
  · simp
  · intro i h1 h2
    have hi : i < 256 := by simpa using h2
    simp [State.ftAt, Nat.mod_eq_of_lt hi]

/-- The counts of a byte sequence sum to its length (R22). -/
theorem totalFT_of_counts {s : State} {l : List Byte} (h : ∀ b, (s.ftAt b).toNat = l.count b) : s.totalFT = l.length := by
  rw [totalFT_eq_sum, ← sum_counts 256 rfl l]
  congr 1
  exact List.map_congr_left fun i _ => h _

theorem k_pos_of_counts {s : State} {l : List Byte} (h : ∀ b, (s.ftAt b).toNat = l.count b) (hl : l ≠ []) : s.k ≠ 0 := by
  intro hk
  obtain ⟨b, hb⟩ := List.exists_mem_of_ne_nil l hl
  have h1 := h b
  rw [k_eq_zero.mp hk b] at h1
  change 0 = _ at h1
  have := List.count_pos_iff.mpr hb
  omega

theorem NeverFails.of_drop {s t : State} {n : Nat} (h : NeverFails s) (ht : t.answers = s.answers.drop n) :
    NeverFails t := by
  intro a ha
  rw [ht] at ha
  exact h a (List.mem_of_mem_drop ha)

/-- `FCNT` when no read fails and no count overflows (R121). -/
theorem fcntBody_ok {s : State} (ha : AnswersOk s (s.unread.length + 1))
    (hc : ∀ b, (s.ftAt b).toNat + s.unread.count b ≤ Config.maxCount) :
    ∃ ft, fcntBody s = .done { s.dropDerived with
        ft := ft, srcPos := s.srcPos + s.unread.length, answers := s.answers.drop (s.unread.length + 1) } ∧
      ∀ b : Byte, (ft[b.toNat]'b.isLt).toNat = (s.ftAt b).toNat + s.unread.count b :=
  eachByte_countByte s.unread s.dropDerived _ rfl (Nat.lt_succ_self _) (ha.congr rfl) hc

/-! ### Bits of the packed stream -/

theorem bitsMsb_packedByte (bits : List Bool) :
    bitsMsb (packedByte bits 0) = (bits ++ List.replicate 8 false).take 8 := by
  apply List.ext_getElem
  · simp [bitsMsb_length]
  · intro i h1 h2
    have hi : i < 8 := h1
    have key : ∀ b : Byte, ∀ i < 8, (bitsMsb b)[i]? = some (b.getLsbD (7 - i)) := by
      intro b i hi
      have : i = 0 ∨ i = 1 ∨ i = 2 ∨ i = 3 ∨ i = 4 ∨ i = 5 ∨ i = 6 ∨ i = 7 := by omega
      rcases this with rfl | rfl | rfl | rfl | rfl | rfl | rfl | rfl <;> rfl
    have hl : (bitsMsb (packedByte bits 0))[i] = (packedByte bits 0).getLsbD (7 - i) := by
      have := key (packedByte bits 0) i hi
      rw [List.getElem?_eq_getElem h1] at this
      exact Option.some.inj this
    refine hl.trans ?_
    rw [getLsbD_packedByte _ _ _ (by omega), List.getElem_take, List.getD_eq_getElem?_getD]
    rw [show 8 * 0 + (7 - (7 - i)) = i by omega]
    by_cases hb : i < bits.length
    · rw [List.getElem_append_left hb, List.getElem?_eq_getElem hb]; rfl
    · rw [List.getElem_append_right (by omega), List.getElem?_eq_none (by omega), List.getElem_replicate]
      rfl

theorem packedByte_drop (bits : List Bool) (m : Nat) : packedByte (bits.drop 8) m = packedByte bits (m + 1) := by
  apply BitVec.eq_of_getLsbD_eq
  intro i hi
  rw [getLsbD_packedByte _ _ _ hi, getLsbD_packedByte _ _ _ hi]
  simp only [List.getD_eq_getElem?_getD, List.getElem?_drop]
  congr 2; omega

theorem packedBytes_cons {bits : List Bool} (h : bits ≠ []) :
    packedBytes bits = packedByte bits 0 :: packedBytes (bits.drop 8) := by
  have hl := List.length_pos_iff.mpr h
  have hq : (bits.length + 7) / 8 = ((bits.drop 8).length + 7) / 8 + 1 := by rw [List.length_drop]; omega
  rw [packedBytes, packedBytes, hq, List.range_succ_eq_map, List.map_cons, List.map_map]
  congr 1
  exact List.map_congr_left fun m _ => (packedByte_drop bits m).symm

/-- Unpacked again, the packed stream begins with the bits that were packed (R66, R181). -/
theorem bitsOf_packedBytes (n : Nat) (bits : List Bool) (hn : bits.length ≤ n) :
    ∃ pad, bitsOf (packedBytes bits) = bits ++ pad := by
  induction n generalizing bits with
  | zero => exact ⟨[], by rw [List.eq_nil_of_length_eq_zero (Nat.le_zero.mp hn)]; rfl⟩
  | succ n ih =>
    by_cases h : bits = []
    · exact ⟨[], by rw [h]; rfl⟩
    · have hl := List.length_pos_iff.mpr h
      rw [packedBytes_cons h, bitsOf_cons, bitsMsb_packedByte]
      by_cases h8 : bits.length < 8
      · refine ⟨(List.replicate 8 false).take (8 - bits.length), ?_⟩
        have : bits.drop 8 = [] := List.drop_eq_nil_of_le (by omega)
        rw [this, List.take_append, List.take_of_length_le (by omega)]
        simp [packedBytes, bitsOf]
      · obtain ⟨pad, hp⟩ := ih (bits.drop 8) (by rw [List.length_drop]; omega)
        refine ⟨pad, ?_⟩
        rw [hp, List.take_append_of_le_length (by omega), ← List.append_assoc, List.take_append_drop]

theorem packedBytes_length (bits : List Bool) : (packedBytes bits).length = (bits.length + 7) / 8 := by
  simp [packedBytes]

/-! ### Codes of a source -/

/-- A byte that occurs has a Code, and it is its Leaf's root path (R150, R151). -/
theorem CodesOf.code {s : State} {tr : Tree} (h : TreeOf s tr) (hc : CodesOf s tr) {b : Byte} (hb : s.ftAt b ≠ 0) :
    (s.codeAt b).valid = true ∧ (b, (s.codeAt b).path) ∈ tr.codes := by
  refine ⟨(hc.valid b).mpr hb, ?_⟩
  obtain ⟨e, he, rfl⟩ := List.mem_map.mp ((mem_codes_symbols h.leaves b).mpr hb)
  have hlen := tr.codes_length he
  have hk := k_le s
  rw [h.leaves_length] at hlen
  have hp : (s.codeAt e.1).path = e.2 := by
    rw [hc.paths e he, Code.path]
    apply List.take_of_length_le
    simp; omega
  rw [hp]
  exact he

theorem ftAt_ne_zero_of_count {s : State} {l : List Byte} (h : ∀ b, (s.ftAt b).toNat = l.count b) {b : Byte}
    (hb : b ∈ l) : s.ftAt b ≠ 0 := by
  intro h0
  have := List.count_pos_iff.mpr hb
  rw [← h b, h0] at this
  simp at this

/-! ### `BUILD` again -/

/-- The tree registers are as a `BUILD` of the present table leaves them. -/
def BuiltBy (u : State) : Prop :=
  ∃ s v, s.ft = u.ft ∧ s.eqInternal = u.eqInternal ∧ buildBody s = .done v ∧ SameTree v u

theorem buildBody_built {s v : State} (h : buildBody s = .done v) :
    Built v ∧ v.ft = s.ft ∧ v.eqInternal = s.eqInternal := by
  by_cases hk : s.k = 0
  · rw [buildBody_empty hk] at h; cases h
  · rcases buildBody_spec hk with ⟨-, node, nnode, he⟩ | ⟨-, node, nnode, root, total, he, hb⟩
    · rw [he] at h; cases h
    · rw [he] at h
      cases h
      exact ⟨.congr (s := { s with node := node, nnode := nnode, root := root, total := total })
        ⟨rfl, rfl, rfl, rfl, rfl⟩ rfl hb, rfl, rfl⟩

/-- Two machines that `BUILD` the same table under the same parameter have the same tree (R138). -/
theorem BuiltBy.tree {u w x : State} {tr : Tree} (h : BuiltBy u) (htr : TreeOf u tr) (hft : w.ft = u.ft)
    (he : w.eqInternal = u.eqInternal) (hx : buildBody w = .done x) : TreeOf x tr := by
  obtain ⟨s, v, hsft, hse, hv, hsame⟩ := h
  have hrel := buildBody_congr (s := s) (t := w) (hft.trans hsft.symm) (he.trans hse.symm)
  rw [hv, hx] at hrel
  obtain ⟨hal, hroot, -⟩ := hrel
  obtain ⟨hbv, -, -⟩ := buildBody_built hv
  obtain ⟨hbx, -, -⟩ := buildBody_built hx
  obtain ⟨tr', htr'⟩ := hbx.tree
  have hrv : v.root.toNat < v.nnode.toNat := by
    obtain ⟨tv, htv⟩ := hbv.tree
    have h1 := htv.root
    have h2 := htv.nnode
    have h3 := htv.nonempty
    omega
  have hat : TreeAt v v.root tr := by
    rw [← hsame.2.2.1]
    exact htr.at_root.congr hsame.1.symm
  have hatx : TreeAt x x.root tr := by
    rw [hroot]
    exact hbv.layout.treeAt hal.nodes hrv hat
  obtain rfl := htr'.at_root.unique hatx
  exact htr'

/-! ### `ENCODE` -/

/-- What `ENCODE` leaves when no access fails (R213): the table, tree and codes of the source, and the file. -/
structure Encoded (s u : State) (tr : Tree) : Prop where
  counts : ∀ b, (u.ftAt b).toNat = s.src.count b
  tree : TreeOf u tr
  built : BuiltBy u
  codes : CodesOf u tr
  srcPos : u.srcPos = s.src.length
  acc : u.acc = 0
  nbits : u.nbits = 0
  reader : SameReader s u
  around : SameSurroundings s u
  errcode : u.errcode = s.errcode
  treev : u.treev = true
  codev : u.codev = true
  bits : ∀ i, i ≠ 2 → i ≠ 3 → u.status.getLsbD i = s.status.getLsbD i
  snk : u.snk = s.snk ++ headerBytes u.ft ++ packedBytes (s.src.flatMap fun b => (u.codeAt b).path)

theorem encodeBody_ok {s : State} (hne : s.src ≠ []) (hlen : s.src.length ≤ Config.maxCount) (ha : NeverFails s) :
    ∃ u tr, encodeBody s = .done u ∧ Encoded s u tr := by
  have ha0 : s.answer = .ok := (ha.answersOk 1).answer (by omega)
  -- REWIND, FCLR
  obtain ⟨s1, hs1⟩ : ∃ s1 : State, s1 = { s.drawn with srcPos := 0 } := ⟨_, rfl⟩
  have h1 : rewindBody s = .done s1 := by rw [rewindBody, ha0, hs1]
  obtain ⟨s2, hs2⟩ : ∃ s2 : State, s2 = s1.clearFt.dropDerived := ⟨_, rfl⟩
  have h2 : fclrBody s1 = .done s2 := by rw [fclrBody, hs2]
  have hu2 : s2.unread = s.src := by rw [hs2, hs1]; rfl
  have ha2 : NeverFails s2 := ha.of_drop (n := 1) (by rw [hs2, hs1]; simp)
  have hz2 : ∀ b, s2.ftAt b = 0 := fun b => by rw [hs2, ftAt_dropDerived, ftAt_clearFt]
  -- FCNT
  obtain ⟨ft, h3, hft⟩ := fcntBody_ok (s := s2) (ha2.answersOk _) (fun b => by
    rw [hz2 b, hu2]
    have := List.count_le_length (a := b) (l := s.src)
    simp; omega)
  obtain ⟨s3, hs3⟩ : ∃ s3 : State, s3 = { s2.dropDerived with
        ft := ft, srcPos := s2.srcPos + s2.unread.length, answers := s2.answers.drop (s2.unread.length + 1) } := ⟨_, rfl⟩
  rw [← hs3] at h3
  have hc3 : ∀ b, (s3.ftAt b).toNat = s.src.count b := by
    intro b
    have := hft b
    rw [hz2 b, hu2] at this
    rw [hs3]
    exact this.trans (by simp)
  have hk3 : s3.k ≠ 0 := k_pos_of_counts hc3 hne
  have ht3 : s3.totalFT = s.src.length := totalFT_of_counts hc3
  have ha3 : NeverFails s3 := ha2.of_drop (n := s2.unread.length + 1) (by rw [hs3])
  -- BUILD
  rcases buildBody_spec hk3 with ⟨hov, -⟩ | ⟨-, node, nnode, root, total, h4, hb4⟩
  · omega
  obtain ⟨s4, hs4⟩ : ∃ s4 : State, s4 = State.setTreev
      { s3.dropDerived with node := node, nnode := nnode, root := root, total := total } true := ⟨_, rfl⟩
  rw [← hs4] at h4
  obtain ⟨tr, htr⟩ := hb4.tree
  have htr4 : TreeOf s4 tr := htr.congr ⟨by rw [hs4]; rfl, by rw [hs4]; rfl, by rw [hs4]; rfl, by rw [hs4]; rfl, by
    rw [hs4]; rfl⟩
  have hv4 : s4.treev = true := by rw [hs4]; simp
  have hft4 : s4.ft = s3.ft := by rw [hs4]; rfl
  -- GENC
  obtain ⟨code, h5, hcodes⟩ := gencBody_ok htr4 hv4
  obtain ⟨s5, hs5⟩ : ∃ s5 : State, s5 = { s4 with
      code := code, status := setBit (setBit s4.status 3 false) 3 true } := ⟨_, rfl⟩
  rw [← hs5] at h5
  have hft5 : s5.ft = s3.ft := by rw [hs5]; exact hft4
  have hk5 : s5.k = s3.k := k_congr hft5
  have ha5 : NeverFails s5 := ha3.of_drop (n := 0) (by rw [hs5, hs4]; rfl)
  -- HSER
  have h6 := hserBody_ok (s := s5) (by omega) (ha5.answersOk _)
  obtain ⟨s6, hs6⟩ : ∃ s6 : State, s6 = { s5 with
      snk := s5.snk ++ headerBytes s5.ft, answers := s5.answers.drop (1 + 5 * s5.k) } := ⟨_, rfl⟩
  rw [← hs6] at h6
  have ha6 : NeverFails s6 := ha5.of_drop (n := 1 + 5 * s5.k) (by rw [hs6])
  -- REWIND
  obtain ⟨s7, hs7⟩ : ∃ s7 : State, s7 = { s6.drawn with srcPos := 0 } := ⟨_, rfl⟩
  have h7 : rewindBody s6 = .done s7 := by
    rw [rewindBody, (ha6.answersOk 1).answer (by omega), hs7]
  have ha7 : NeverFails s7 := ha6.of_drop (n := 1) (by rw [hs7]; simp)
  have hu7 : s7.unread = s.src := by rw [hs7, hs6, hs5, hs4, hs3, hs2, hs1]; rfl
  have hft7 : s7.ft = s3.ft := by rw [hs7, hs6]; exact hft5
  have htr7 : TreeOf s7 tr := htr4.congr ⟨by rw [hs7, hs6, hs5]; rfl, by rw [hs7, hs6, hs5]; rfl,
    by rw [hs7, hs6, hs5]; rfl, by rw [hs7, hs6, hs5]; rfl, by rw [hs7, hs6, hs5]; rfl⟩
  have hcd7 : CodesOf s7 tr := hcodes s7 (by rw [hs7, hs6, hs5]; rfl) (by rw [hs7, hs6, hs5]; rfl)
  have hc7 : ∀ b, (s7.ftAt b).toNat = s.src.count b := fun b => by rw [ftAt_congr hft7]; exact hc3 b
  have hcv7 : s7.codev = true := by
    rw [hs7, hs6, hs5]
    exact (getLsbD_setBit _ 3 3 true (by decide) (by decide))
  have htv7 : s7.treev = true := by
    rw [hs7, hs6, hs5]
    refine (getLsbD_setBit _ 3 2 true (by decide) (by decide)).trans ?_
    rw [if_neg (by decide), getLsbD_setBit _ 3 2 false (by decide) (by decide), if_neg (by decide)]
    exact hv4
  -- PACK
  have h8 := packBody_ok (s := s7) hcv7 (fun b hb => (hcd7.code htr7 (ftAt_ne_zero_of_count hc7 (hu7 ▸ hb))).1)
    (ha7.answersOk _)
  rw [hu7] at h8
  obtain ⟨s8, hs8⟩ : ∃ s8 : State, s8 = { s7 with
      acc := 0, nbits := 0, snk := s7.snk ++ packedBytes (s7.codeBits s.src),
      answers := s7.answers.drop (s.src.length + 1 + ((s7.codeBits s.src).length + 7) / 8),
      srcPos := s7.srcPos + s.src.length } := ⟨_, rfl⟩
  rw [← hs8] at h8
  refine ⟨s8, tr, ?_, ?_⟩
  · rw [encodeBody, h1, Flow.andThen_done, h2, Flow.andThen_done, h3, Flow.andThen_done, if_neg hk3, encodeRest, h4,
      Flow.andThen_done, h5, Flow.andThen_done, h6, Flow.andThen_done, h7, Flow.andThen_done, h8]
  · have hbits : ∀ i, i ≠ 2 → i ≠ 3 → s7.status.getLsbD i = s.status.getLsbD i := by
      intro i h2' h3'
      have e7 : s7.status = setBit (setBit s4.status 3 false) 3 true := by rw [hs7, hs6, hs5]; rfl
      have e4 : s4.status = setBit (setBit (setBit s3.status 2 false) 3 false) 2 true := by rw [hs4]; rfl
      have e3 : s3.status = setBit (setBit s2.status 2 false) 3 false := by rw [hs3]; rfl
      have e2 : s2.status = setBit (setBit s.status 2 false) 3 false := by rw [hs2, hs1]; rfl
      rw [e7, e4, e3, e2]
      simp only [getLsbD_setBit_of_ne _ 3 i _ (by decide) h3', getLsbD_setBit_of_ne _ 2 i _ (by decide) h2']
    rw [hs8]
    exact {
      counts := hc7
      tree := TreeOf.congr (s := s7) ⟨rfl, rfl, rfl, rfl, rfl⟩ htr7
      built := ⟨s3, s4, hft7.symm, by rw [hs7, hs6, hs5, hs4]; rfl, h4, by rw [hs7, hs6, hs5]; exact ⟨rfl, rfl, rfl, rfl⟩⟩
      codes := ⟨hcd7.valid, hcd7.paths⟩
      srcPos := by rw [hs7]; simp
      acc := rfl
      nbits := rfl
      reader := by rw [hs7, hs6, hs5, hs4, hs3, hs2, hs1]; exact ⟨rfl, rfl⟩
      around := by rw [hs7, hs6, hs5, hs4, hs3, hs2, hs1]; exact ⟨rfl, rfl, rfl⟩
      errcode := by rw [hs7, hs6, hs5, hs4, hs3, hs2, hs1]; rfl
      treev := htv7
      codev := hcv7
      bits := hbits
      snk := by
        have e : s7.snk = s.snk ++ headerBytes s7.ft := by rw [hft7, ← hft5, hs7, hs6, hs5, hs4, hs3, hs2, hs1]; rfl
        change s7.snk ++ packedBytes (s7.codeBits s.src) = _
        rw [e]
        rfl }

/-- `ENCODE` of an empty source (R214). -/
theorem encodeBody_empty {s : State} (hs : s.src = []) (ha : AnswersOk s 2) :
    ∃ u, encodeBody s = .done u ∧ u.k = 0 ∧ u.snk = s.snk ∧ u.treev = false ∧ u.codev = false := by
  have h1 : rewindBody s = .done { s.drawn with srcPos := 0 } := by rw [rewindBody, ha.answer (by omega)]
  obtain ⟨s2, hs2⟩ : ∃ s2 : State, s2 = ({ s.drawn with srcPos := 0 } : State).clearFt.dropDerived := ⟨_, rfl⟩
  have h2 : fclrBody { s.drawn with srcPos := 0 } = .done s2 := by rw [fclrBody, hs2]
  have hu2 : s2.unread = [] := by rw [hs2]; exact hs
  have hz2 : ∀ b, s2.ftAt b = 0 := fun b => by rw [hs2, ftAt_dropDerived, ftAt_clearFt]
  have ha2 : AnswersOk s2 1 := AnswersOk.of_drop (s := s) (m := 1) ha (by rw [hs2]; simp)
  obtain ⟨ft, h3, hft⟩ := fcntBody_ok (s := s2) (by rw [hu2]; exact ha2) (fun b => by rw [hz2 b, hu2]; simp)
  obtain ⟨s3, hs3⟩ : ∃ s3 : State, s3 = { s2.dropDerived with
        ft := ft, srcPos := s2.srcPos + s2.unread.length, answers := s2.answers.drop (s2.unread.length + 1) } := ⟨_, rfl⟩
  rw [← hs3] at h3
  have hk3 : s3.k = 0 := k_eq_zero.mpr fun b => by
    have := hft b
    rw [hz2 b, hu2] at this
    rw [hs3]
    exact BitVec.eq_of_toNat_eq (this.trans (by simp))
  refine ⟨s3, ?_, hk3, by rw [hs3, hs2]; rfl, ?_, ?_⟩
  · rw [encodeBody, h1, Flow.andThen_done, h2, Flow.andThen_done, h3, Flow.andThen_done, if_pos hk3]
  · rw [hs3]; exact dropDerived_treev s2
  · rw [hs3]; exact dropDerived_codev s2

/-! ### `DECODE` -/

/-- `DECODE` of a file that `ENCODE` made, on a machine with the same parameter, gives the source back (R216). -/
theorem decodeBody_ok {s u w : State} {tr : Tree} {more : List Byte} (h : Encoded s u tr)
    (he : w.eqInternal = u.eqInternal)
    (hw : w.unread = headerBytes u.ft ++ packedBytes (s.src.flatMap fun b => (u.codeAt b).path) ++ more)
    (ha : AnswersOk w ((1 + 5 * u.k) +
      (((s.src.flatMap fun b => (u.codeAt b).path).length + 7) / 8 + s.src.length))) :
    ∃ x, decodeBody w = .done x ∧ x.snk = w.snk ++ s.src ∧ x.treev = true ∧ x.codev = false ∧ x.ft = u.ft ∧
      (u.k = 1 → x.srcPos = w.srcPos + 6) := by
  have hk := k_le u
  have hk1 := h.tree.nonempty
  have hkm : recordCount (kMinus1 u.k) = u.k := recordCount_kMinus1 hk1 hk
  rw [recordCount_eq] at hkm
  have hl : ((tableEntries u.ft).flatMap recordBytes).length = 5 * ((kMinus1 u.k).toNat + 1) := by
    rw [flatMap_recordBytes_length, hkm]; rfl
  have hw' : w.unread = kMinus1 u.k :: ((tableEntries u.ft).flatMap recordBytes ++
      (packedBytes (s.src.flatMap fun b => (u.codeAt b).path) ++ more)) := by
    rw [hw, List.append_assoc]; rfl
  -- HDES
  have h1 := hdesBody_ok hw' hl (ha.mono (by omega))
  rw [recordsIn_flatMap, assigned_tableEntries] at h1
  obtain ⟨w1, hw1⟩ : ∃ w1 : State, w1 = { w.dropDerived.skip
      (1 + ((tableEntries u.ft).flatMap recordBytes).length) with ft := u.ft } := ⟨_, rfl⟩
  rw [← hw1] at h1
  have hft1 : w1.ft = u.ft := by rw [hw1]
  have hk1' : w1.k ≠ 0 := by rw [k_congr hft1]; omega
  have ht1 : w1.totalFT = s.src.length := (totalFT_congr hft1).trans (totalFT_of_counts h.counts)
  have hu1 : w1.unread = packedBytes (s.src.flatMap fun b => (u.codeAt b).path) ++ more := by
    rw [hw1]
    change (w.dropDerived.skip _).unread = _
    rw [unread_skip]
    change w.unread.drop _ = _
    rw [hw', Nat.add_comm, List.drop_succ_cons, List.drop_left]
  have ha1 : AnswersOk w1 (((s.src.flatMap fun b => (u.codeAt b).path).length + 7) / 8 + s.src.length) :=
    AnswersOk.of_drop (s := w) (m := 1 + 5 * u.k) ha (by
      rw [hw1]
      change w.answers.drop (1 + _) = _
      rw [flatMap_recordBytes_length]; rfl)
  -- BUILD
  have hmax : s.src.length ≤ Config.maxCount := by
    have h1 := totalFT_of_counts h.counts
    have h2 := h.tree.total
    have h3 := u.total.isLt
    unfold Config.maxCount
    omega
  rcases buildBody_spec hk1' with ⟨hov, -⟩ | ⟨-, node, nnode, root, total, h2, -⟩
  · omega
  obtain ⟨w2, hw2⟩ : ∃ w2 : State, w2 = State.setTreev
      { w1.dropDerived with node := node, nnode := nnode, root := root, total := total } true := ⟨_, rfl⟩
  rw [← hw2] at h2
  have htr : TreeOf w2 tr := h.built.tree h.tree hft1 (by rw [hw1]; exact he) h2
  have hv2 : w2.treev = true := by rw [hw2]; simp
  have hcv2 : w2.codev = false := by
    rw [hw2, setTreev_codev]
    exact dropDerived_codev w1
  have hft2 : w2.ft = u.ft := by rw [hw2]; exact hft1
  have hu2 : w2.unread = packedBytes (s.src.flatMap fun b => (u.codeAt b).path) ++ more := by rw [hw2]; exact hu1
  have ha2 : AnswersOk w2 (((s.src.flatMap fun b => (u.codeAt b).path).length + 7) / 8 + s.src.length) :=
    ha1.congr (by rw [hw2]; rfl)
  have htot : w2.total.toNat = s.src.length := by
    rw [htr.total, totalFT_congr hft2]; exact totalFT_of_counts h.counts
  have hsnk2 : w2.snk = w.snk := by rw [hw2, hw1]; rfl
  have hpos2 : w2.srcPos = w.srcPos + (1 + 5 * u.k) := by
    rw [hw2, hw1]
    change w.srcPos + (1 + _) = _
    rw [flatMap_recordBytes_length]; rfl
  have hgo : decodeBody w = unpackBody w2 := by
    rw [decodeBody, h1, Flow.andThen_done, if_neg hk1', h2, Flow.andThen_done]
  have hlen : tr.leaves.length = u.k := by rw [h.tree.leaves_length]
  rw [hgo]
  -- UNPACK
  by_cases hk2 : 2 ≤ u.k
  · have hcoded : ∀ e ∈ s.src.map (fun b => (b, (u.codeAt b).path)), e ∈ tr.codes := by
      intro e hem
      obtain ⟨b, hb, rfl⟩ := List.mem_map.mp hem
      exact (h.codes.code h.tree (ftAt_ne_zero_of_count h.counts hb)).2
    have hflat : (s.src.map fun b => (b, (u.codeAt b).path)).flatMap Prod.snd =
        s.src.flatMap fun b => (u.codeAt b).path := by
      rw [List.flatMap_map]
    obtain ⟨pad, hpad⟩ := bitsOf_packedBytes _ (s.src.flatMap fun b => (u.codeAt b).path) (Nat.le_refl _)
    have h3 := unpackBody_ok (s := w2) (coded := s.src.map fun b => (b, (u.codeAt b).path)) (more := pad ++ bitsOf more)
      hv2 htr.at_root (by omega) hcoded (by rw [List.length_map]; omega) (by
        rw [hflat, hu2, ← List.append_assoc, ← hpad]
        simp [bitsOf]) (ha2.mono (by rw [hflat, htot]))
    refine ⟨_, h3, ?_, hv2, hcv2, hft2, fun h1' => by omega⟩
    change w2.snk ++ _ = _
    rw [hsnk2, List.map_map]
    congr 1
    exact List.map_id _
  · obtain ⟨nd, hr, hkd, hleaf⟩ := htr.at_root.leaf_of_one (by omega)
    have h3 := unpackBody_one hv2 hr hkd (ha2.mono (by omega))
    refine ⟨_, h3, ?_, hv2, hcv2, hft2, fun h1' => by change w2.srcPos + 0 = _; rw [hpos2]; omega⟩
    change w2.snk ++ List.replicate w2.total.toNat nd.sym = _
    rw [hsnk2, htot]
    congr 1
    refine (List.eq_replicate_iff.mpr ⟨rfl, fun b hb => ?_⟩).symm
    have hb' := (h.codes.code h.tree (ftAt_ne_zero_of_count h.counts hb)).2
    rw [hleaf] at hb'
    simp only [Tree.codes, List.mem_singleton, Prod.mk.injEq] at hb'
    exact hb'.1

end Sys2Proof.Machine
end

