-- ==== Sys2Proof/Laws/Answers.lean ====
section
/-! SUPPORT. What a command takes from the environment: answers are drawn from the head of the list, a command is stuck for
want of an answer only where one of them is `never`, and no command raises `ERR_ILLCMD`. -/

namespace Sys2Proof.Machine

/-- Answers were drawn from those of `s`; stuck for want of an answer only if one of them never comes; no `ERR_ILLCMD`. -/
def Flow.Draws (s : State) : Flow → Prop
  | .done t => t.answers <:+ s.answers
  | .raised e _ => e ≠ .illCmd
  | .stuck r => r = .noIoAnswer → IoAnswer.never ∈ s.answers

theorem Flow.Draws.of_suffix {s t : State} {f : Flow} (h : t.answers <:+ s.answers) (hf : f.Draws t) : f.Draws s := by
  cases f with
  | done u => exact List.IsSuffix.trans hf h
  | raised e u => exact hf
  | stuck r => exact fun hr => h.subset (hf hr)

theorem Flow.Draws.of_eq {s t : State} {f : Flow} (h : t.answers = s.answers) (hf : f.Draws t) : f.Draws s :=
  hf.of_suffix (by rw [h])

theorem Flow.Draws.andThen {s : State} {f : Flow} {k : State → Flow} (h : f.Draws s) (hk : ∀ t, (k t).Draws t) :
    (f.andThen k).Draws s := by
  cases f with
  | done t => exact (hk t).of_suffix h
  | raised e t => exact h
  | stuck r => exact h

theorem answer_never {s : State} (h : s.answer = .never) : IoAnswer.never ∈ s.answers := by
  unfold State.answer at h
  cases hs : s.answers with
  | nil => rw [hs] at h; cases h
  | cons a l => rw [hs] at h; cases h; simp

theorem drawn_suffix (s : State) : s.drawn.answers <:+ s.answers := List.tail_suffix _

theorem readByte_draws {s : State} {onEof : State → Flow} {k : Byte → State → Flow} (he : ∀ t, (onEof t).Draws t)
    (hk : ∀ b t, (k b t).Draws t) : (readByte s onEof k).Draws s := by
  rcases readByte_cases s onEof k with h' | ⟨ha, h'⟩ | ⟨-, h'⟩ | ⟨b, r, -, h'⟩ <;> rw [h']
  · intro hh; cases hh
  · exact fun _ => answer_never ha
  · exact (he _).of_suffix (drawn_suffix s)
  · exact (hk b _).of_suffix (drawn_suffix s)

theorem snkWrite_draws (v : Byte) (s : State) : (snkWrite v s).Draws s := by
  rcases snkWrite_cases v s with ⟨-, h'⟩ | ⟨ha, h'⟩ | ⟨-, h'⟩ <;> rw [h']
  · intro hh; cases hh
  · exact fun _ => answer_never ha
  · exact drawn_suffix s

theorem snkWrites_draws (vs : List Byte) (s : State) : (snkWrites vs s).Draws s := by
  induction vs generalizing s with
  | nil => exact List.suffix_rfl
  | cons v vs ih => exact (snkWrite_draws v s).andThen ih

theorem eachByte_draws {body : Byte → State → Flow} (hb : ∀ b t, (body b t).Draws t) (n : Nat) (s : State) :
    (eachByte body n s).Draws s := by
  induction n generalizing s with
  | zero => intro hh; cases hh
  | succ n ih => exact readByte_draws (fun _ => List.suffix_rfl) fun b t => (hb b t).andThen ih

theorem fcntBody_draws (s : State) : (fcntBody s).Draws s :=
  (eachByte_draws (fun b t => by
    unfold countByte
    split
    · intro hh; cases hh
    · exact List.suffix_rfl) _ s.dropDerived).of_eq rfl

theorem hdrByte_draws {s : State} {k : Byte → State → Flow} (hk : ∀ b t, (k b t).Draws t) : (hdrByte s k).Draws s :=
  readByte_draws (fun _ hh => by cases hh) hk

theorem readRecord_draws (s : State) : (readRecord s).Draws s := by
  unfold readRecord
  refine hdrByte_draws fun _ _ => hdrByte_draws fun _ _ => hdrByte_draws fun _ _ => hdrByte_draws fun _ _ =>
    hdrByte_draws fun _ _ => ?_
  exact List.suffix_rfl

theorem readRecords_draws (n : Nat) (s : State) : (readRecords n s).Draws s := by
  induction n generalizing s with
  | zero => exact List.suffix_rfl
  | succ n ih => exact (readRecord_draws s).andThen ih

theorem hdesBody_draws (s : State) : (hdesBody s).Draws s :=
  (readByte_draws (s := s.dropDerived.clearFt) (onEof := .done) (fun _ => List.suffix_rfl) fun b t =>
    readRecords_draws (recordCount b) t).of_eq rfl

theorem hserBody_draws (s : State) : (hserBody s).Draws s := by
  unfold hserBody
  split
  · intro hh; cases hh
  · exact snkWrites_draws _ s

theorem buildBody_draws (s : State) : (buildBody s).Draws s := by
  by_cases hk : s.k = 0
  · rw [buildBody_empty hk]
    intro hh; cases hh
  · rcases buildBody_spec hk with ⟨-, node, nnode, he⟩ | ⟨-, node, nnode, root, total, he, -⟩ <;> rw [he]
    · intro hh; cases hh
    · exact List.suffix_rfl

theorem walkCodes_draws (n : Nat) (i : NodeRef) (path : List Bool) (s : State) : (walkCodes n i path s).Draws s := by
  induction n generalizing i path s with
  | zero => intro hh; cases hh
  | succ n ih =>
    rw [walkCodes]
    split
    · intro hh; cases hh
    · split
      · exact List.suffix_rfl
      · split
        · intro hh; cases hh
        · exact (ih _ _ s).andThen fun t => ih _ _ t

theorem gencBody_draws (s : State) : (gencBody s).Draws s := by
  unfold gencBody
  split
  · exact ((walkCodes_draws _ _ _ (s.setCodev false).invalidateCodes).of_eq rfl).andThen fun t =>
      List.suffix_rfl
  · intro hh; cases hh

theorem emitAcc_draws (s : State) : (emitAcc s).Draws s := (snkWrite_draws _ s).andThen fun _ => List.suffix_rfl

theorem putBits_draws (l : List Bool) (s : State) : (putBits l s).Draws s := by
  induction l generalizing s with
  | nil => exact List.suffix_rfl
  | cons b l ih =>
    refine Flow.Draws.andThen ?_ ih
    unfold putBit
    split
    · exact (emitAcc_draws (s.shiftBit b)).of_eq rfl
    · exact List.suffix_rfl

theorem packBody_draws (s : State) : (packBody s).Draws s := by
  unfold packBody
  split
  · refine Flow.Draws.andThen ((eachByte_draws (fun b t => ?_) _ s.clearAcc).of_eq rfl) fun t => ?_
    · unfold packByte
      split
      · exact putBits_draws _ t
      · intro hh; cases hh
    · unfold flushBits
      split
      · exact List.suffix_rfl
      · exact (emitAcc_draws { t with acc := padOut t.acc t.nbits }).of_eq rfl
  · intro hh; cases hh

theorem emitSymbol_draws (d : Byte) (s : State) : (emitSymbol d s).Draws s :=
  (snkWrite_draws d s).andThen fun _ => List.suffix_rfl

theorem degenerateEmit_draws (d : Byte) (n : Nat) (s : State) : (degenerateEmit d n s).Draws s := by
  induction n generalizing s with
  | zero =>
    rw [degenerateEmit]
    split
    · exact List.suffix_rfl
    · intro hh; cases hh
  | succ n ih =>
    rw [degenerateEmit]
    split
    · exact List.suffix_rfl
    · exact (emitSymbol_draws d s).andThen ih

theorem walkBit_draws (b : Bool) (s : State) : (walkBit b s).Draws s := by
  unfold walkBit
  split
  · intro hh; cases hh
  · simp only
    split
    · intro hh; cases hh
    · split
      · exact (emitSymbol_draws _ { s with cur := _ }).of_eq rfl
      · exact List.suffix_rfl

theorem walkBits_draws (l : List Bool) (s : State) : (walkBits l s).Draws s := by
  induction l generalizing s with
  | nil => exact List.suffix_rfl
  | cons b l ih =>
    refine (walkBit_draws b s).andThen fun t => ?_
    split
    · exact List.suffix_rfl
    · exact ih t

theorem walkLoop_draws (n : Nat) (s : State) : (walkLoop n s).Draws s := by
  induction n generalizing s with
  | zero => intro hh; cases hh
  | succ n ih =>
    rw [walkLoop]
    split
    · exact List.suffix_rfl
    · exact readByte_draws (fun _ hh => by cases hh) fun b t => (walkBits_draws _ t).andThen ih

theorem unpackBody_draws (s : State) : (unpackBody s).Draws s := by
  unfold unpackBody
  split
  · simp only
    split
    · intro hh; cases hh
    · split
      · exact (degenerateEmit_draws _ _ { s with outcnt := 0, cur := s.root }).of_eq rfl
      · exact (walkLoop_draws _ { s with outcnt := 0, cur := s.root }).of_eq rfl
  · intro hh; cases hh

theorem rewindBody_draws (s : State) : (rewindBody s).Draws s := by
  unfold rewindBody
  split
  · intro hh; cases hh
  · next ha => exact fun _ => answer_never ha
  · exact drawn_suffix s

theorem encodeBody_draws (s : State) : (encodeBody s).Draws s := by
  unfold encodeBody encodeRest
  have hfclr : ∀ t, (fclrBody t).Draws t := fun _ => List.suffix_rfl
  refine (((rewindBody_draws s).andThen hfclr).andThen fcntBody_draws).andThen fun t => ?_
  split
  · exact List.suffix_rfl
  · exact ((((buildBody_draws t).andThen gencBody_draws).andThen hserBody_draws).andThen rewindBody_draws).andThen
      packBody_draws

theorem decodeBody_draws (s : State) : (decodeBody s).Draws s := by
  refine (hdesBody_draws s).andThen fun t => ?_
  split
  · exact List.suffix_rfl
  · exact (buildBody_draws t).andThen unpackBody_draws

end Sys2Proof.Machine
end

