-- ==== Sys2Proof/Laws/Exec.lean ====
section
/-! SUPPORT. All the commands at once: the pseudocode of each, the parts each writes, and that none but an unanswered access
stops a command run with the machine's own tree. -/

namespace Sys2Proof.Machine

/-- The pseudocode of a command between prologue and epilogue (R235). -/
def bodyOf : Instr → State → Flow
  | .nop => .done
  | .fclr => fclrBody
  | .fcnt => fcntBody
  | .build => buildBody
  | .genc => gencBody
  | .hser => hserBody
  | .hdes => hdesBody
  | .pack => packBody
  | .unpack => unpackBody
  | .rewind => rewindBody
  | .encode => encodeBody
  | .decode => decodeBody
  | .reset => fun s => .done (resetEngine s)

theorem exec_eq {i : Instr} (h : i ≠ .reset) (s : State) : exec i s = runCommand (bodyOf i) s := by
  cases i <;> first | rfl | exact absurd rfl h

/-- The parts of the state a command writes. -/
def writes : Instr → List Part
  | .nop => []
  | .fclr => [.ft, .flags]
  | .fcnt => [.ft, .flags, .cursor]
  | .build => [.tree, .flags]
  | .genc => [.code, .flags]
  | .hser => [.sink]
  | .hdes => [.ft, .flags, .cursor]
  | .pack => [.writer, .sink, .cursor]
  | .unpack => [.reader, .sink, .cursor]
  | .rewind => [.cursor]
  | .encode => [.ft, .tree, .code, .writer, .cursor, .sink, .flags]
  | .decode => [.ft, .tree, .reader, .cursor, .sink, .flags]
  | .reset => [.ft, .tree, .code, .writer, .reader, .flags]

theorem Flow.Sat.outside_mono {ps qs : List Part} {s : State} {f : Flow} (h : f.Sat (Outside ps s)) (hs : ps ⊆ qs) :
    f.Sat (Outside qs s) := h.mono fun _ ht => ht.mono hs

/-- `ENCODE` writes what its steps write (R213). -/
theorem encodeBody_outside (s : State) : (encodeBody s).Sat (Outside (writes .encode) s) := by
  unfold encodeBody encodeRest
  refine Outside.andThen (Outside.andThen (Outside.andThen ?_ fun t => ?_) fun t => ?_) fun t => ?_
  · exact (rewindBody_outside s).outside_mono (by decide)
  · exact (fclrBody_outside t).outside_mono (by decide)
  · exact (fcntBody_outside t).outside_mono (by decide)
  · split
    · exact .refl _ t
    · refine Outside.andThen (Outside.andThen (Outside.andThen (Outside.andThen ?_ fun t => ?_) fun t => ?_)
        fun t => ?_) fun t => ?_
      · exact (buildBody_outside t).outside_mono (by decide)
      · exact (gencBody_outside t).outside_mono (by decide)
      · exact (hserBody_outside t).outside_mono (by decide)
      · exact (rewindBody_outside t).outside_mono (by decide)
      · exact (packBody_outside t).outside_mono (by decide)

/-- `DECODE` writes what its steps write (R215). -/
theorem decodeBody_outside (s : State) : (decodeBody s).Sat (Outside (writes .decode) s) := by
  unfold decodeBody
  refine Outside.andThen ((hdesBody_outside s).outside_mono (by decide)) fun t => ?_
  split
  · exact .refl _ t
  · exact Outside.andThen ((buildBody_outside t).outside_mono (by decide)) fun u =>
      (unpackBody_outside u).outside_mono (by decide)

/-- What a command writes, whether it completes or raises. -/
theorem bodyOf_outside {i : Instr} (h : i ≠ .reset) (s : State) : (bodyOf i s).Sat (Outside (writes i) s) := by
  cases i with
  | nop => exact .refl _ s
  | fclr => exact fclrBody_outside s
  | fcnt => exact fcntBody_outside s
  | build => exact buildBody_outside s
  | genc => exact gencBody_outside s
  | hser => exact hserBody_outside s
  | hdes => exact hdesBody_outside s
  | pack => exact packBody_outside s
  | unpack => exact unpackBody_outside s
  | rewind => exact rewindBody_outside s
  | encode => exact encodeBody_outside s
  | decode => exact decodeBody_outside s
  | reset => exact absurd rfl h

/-! ### Soundness -/

theorem readByte_sound {s : State} {onEof : State → Flow} {k : Byte → State → Flow} {P : State → Prop}
    (he : (onEof s.drawn).Sound P) (hk : ∀ b r, s.unread = b :: r → (k b s.drawn.advance).Sound P) :
    (readByte s onEof k).Sound P := by
  rcases readByte_cases s onEof k with h' | ⟨-, h'⟩ | ⟨-, h'⟩ | ⟨b, r, hu, h'⟩ <;> rw [h']
  · intro hh; cases hh
  · rfl
  · exact he
  · exact hk b r hu

theorem eachByte_sound {body : Byte → State → Flow}
    (hb : ∀ b t, (body b t).Sound fun u => u.src = t.src ∧ u.srcPos = t.srcPos) (n : Nat) (s : State)
    (hn : s.unread.length < n) : (eachByte body n s).Sound fun _ => True := by
  induction n generalizing s with
  | zero => omega
  | succ n ih =>
    rw [eachByte]
    refine readByte_sound trivial fun b r hu => (hb b _).andThen fun t ht => ih t ?_
    have hu' : t.unread = r := by
      have := unread_advance (s := s.drawn) hu
      simpa [State.unread, ht.1, ht.2] using this
    rw [hu']
    simpa [hu] using hn

theorem snkWrites_sound (vs : List Byte) (s : State) :
    (snkWrites vs s).Sound fun t => t.src = s.src ∧ t.srcPos = s.srcPos := by
  induction vs generalizing s with
  | nil => exact ⟨rfl, rfl⟩
  | cons v vs ih =>
    rw [snkWrites]
    rcases snkWrite_cases v s with ⟨-, h'⟩ | ⟨-, h'⟩ | ⟨-, h'⟩ <;> rw [h']
    · intro hh; cases hh
    · rfl
    · exact ih _

theorem fcntBody_sound (s : State) : (fcntBody s).Sound fun _ => True := by
  refine eachByte_sound (fun b t => ?_) _ _ (Nat.lt_succ_self _)
  unfold countByte
  split
  · intro hh; cases hh
  · exact ⟨rfl, rfl⟩

theorem hdrByte_sound (s : State) {k : Byte → State → Flow} (hk : ∀ b t, (k b t).Sound fun _ => True) :
    (hdrByte s k).Sound fun _ => True :=
  readByte_sound (by intro hh; cases hh) fun b _ _ => hk b _

theorem readRecords_sound (n : Nat) (s : State) : (readRecords n s).Sound fun _ => True := by
  induction n generalizing s with
  | zero => trivial
  | succ n ih =>
    rw [readRecords]
    exact Flow.Sound.andThen (hdrByte_sound s fun _ _ => hdrByte_sound _ fun _ _ => hdrByte_sound _ fun _ _ =>
      hdrByte_sound _ fun _ _ => hdrByte_sound _ fun _ _ => trivial) fun t _ => ih t

theorem hdesBody_sound (s : State) : (hdesBody s).Sound fun _ => True :=
  readByte_sound trivial fun _ _ _ => readRecords_sound _ _

theorem hserBody_sound (s : State) : (hserBody s).Sound fun _ => True := by
  unfold hserBody
  split
  · intro hh; cases hh
  · exact (snkWrites_sound _ s).mono fun _ _ => trivial

theorem emitAcc_sound (s : State) : (emitAcc s).Sound fun t => t.src = s.src ∧ t.srcPos = s.srcPos := by
  unfold emitAcc
  rcases snkWrite_cases s.acc s with ⟨-, h'⟩ | ⟨-, h'⟩ | ⟨-, h'⟩ <;> rw [h']
  · intro hh; cases hh
  · rfl
  · exact ⟨rfl, rfl⟩

theorem putBits_sound (l : List Bool) (s : State) :
    (putBits l s).Sound fun t => t.src = s.src ∧ t.srcPos = s.srcPos := by
  induction l generalizing s with
  | nil => exact ⟨rfl, rfl⟩
  | cons b l ih =>
    rw [putBits]
    refine Flow.Sound.andThen (P := fun t => t.src = s.src ∧ t.srcPos = s.srcPos) ?_ fun t ht =>
      (ih t).mono fun u hu => ⟨hu.1.trans ht.1, hu.2.trans ht.2⟩
    unfold putBit
    split
    · exact emitAcc_sound _
    · exact ⟨rfl, rfl⟩

theorem packBody_sound (s : State) : (packBody s).Sound fun _ => True := by
  unfold packBody
  split
  · refine Flow.Sound.andThen (eachByte_sound (fun b t => ?_) _ _ (Nat.lt_succ_self _)) fun t _ => ?_
    · unfold packByte
      split
      · exact putBits_sound _ t
      · intro hh; cases hh
    · unfold flushBits
      split
      · trivial
      · exact (emitAcc_sound _).mono fun _ _ => trivial
  · intro hh; cases hh

theorem rewindBody_sound (s : State) : (rewindBody s).Sound fun _ => True := by
  unfold rewindBody
  split
  · intro hh; cases hh
  · rfl
  · trivial

/-- `BUILD` completes with a tree, or raises (R130, R137). -/
theorem buildBody_sound (s : State) : (buildBody s).Sound fun t => t.treev = true ∧ ∃ tr, TreeOf t tr := by
  by_cases hk : s.k = 0
  · rw [buildBody_empty hk]
    intro hh; cases hh
  · rcases buildBody_spec hk with ⟨-, node, nnode, he⟩ | ⟨-, node, nnode, root, total, he, hb⟩
    · rw [he]
      intro hh; cases hh
    · have := (buildBody_built he).1
      rw [he]
      exact ⟨setTreev_treev _ _, this.tree⟩

/-- `GENC` with the machine's own tree (R150, R152). -/
theorem gencBody_sound {s : State} (h : s.treev = true → ∃ tr, TreeOf s tr) : (gencBody s).Sound fun _ => True := by
  by_cases hv : s.treev = true
  · obtain ⟨tr, htr⟩ := h hv
    obtain ⟨code, he, -⟩ := gencBody_ok htr hv
    rw [he]
    trivial
  · rw [gencBody, if_neg hv]
    intro hh; cases hh

/-- With the machine's own tree no command raises `ERR_WALK` or runs out of the model's bounds (R152, R193, R273). -/
theorem bodyOf_sound (i : Instr) {s : State} (h : s.treev = true → ∃ tr, TreeOf s tr) :
    (bodyOf i s).Sound fun _ => True := by
  cases i with
  | nop => trivial
  | fclr => trivial
  | fcnt => exact fcntBody_sound s
  | build => exact (buildBody_sound s).mono fun _ _ => trivial
  | genc => exact gencBody_sound h
  | hser => exact hserBody_sound s
  | hdes => exact hdesBody_sound s
  | pack => exact packBody_sound s
  | unpack =>
    by_cases hv : s.treev = true
    · obtain ⟨tr, htr⟩ := h hv
      exact unpackBody_sound htr.at_root
    · change (unpackBody s).Sound _
      rw [unpackBody, if_neg hv]
      intro hh; cases hh
  | rewind => exact rewindBody_sound s
  | encode =>
    have hfclr : ∀ t, (fclrBody t).Sound fun _ => True := fun _ => trivial
    refine Flow.Sound.andThen (P := fun _ => True) (((rewindBody_sound s).andThen fun t _ => hfclr t).andThen
      fun t _ => fcntBody_sound t) fun t _ => ?_
    split
    · trivial
    · exact ((((buildBody_sound t).andThen fun u hu => gencBody_sound fun _ => hu.2).andThen
        fun u _ => hserBody_sound u).andThen fun u _ => rewindBody_sound u).andThen fun u _ => packBody_sound u
  | decode =>
    refine Flow.Sound.andThen (hdesBody_sound s) fun t _ => ?_
    split
    · trivial
    · exact (buildBody_sound t).andThen fun u hu => by
        obtain ⟨tr, htr⟩ := hu.2
        exact unpackBody_sound htr.at_root
  | reset => trivial

/-- What a command takes from the environment; `ERR_ILLCMD` is no command's. -/
theorem bodyOf_draws {i : Instr} (h : i ≠ .reset) (s : State) : (bodyOf i s).Draws s := by
  cases i with
  | nop => exact List.suffix_rfl
  | fclr => exact List.suffix_rfl
  | fcnt => exact fcntBody_draws s
  | build => exact buildBody_draws s
  | genc => exact gencBody_draws s
  | hser => exact hserBody_draws s
  | hdes => exact hdesBody_draws s
  | pack => exact packBody_draws s
  | unpack => exact unpackBody_draws s
  | rewind => exact rewindBody_draws s
  | encode => exact encodeBody_draws s
  | decode => exact decodeBody_draws s
  | reset => exact absurd rfl h

/-! ### The step -/

theorem exec_reset {s : State} (h : s.busy = false) : exec .reset s = .next (resetEngine s) := by
  simp [exec, execReset, h]

theorem not_accepts {s : State} (h : ¬ Accepts s) : s.busy = true ∨ s.err = true := by
  unfold Accepts at h
  cases hb : s.busy <;> cases he : s.err <;> simp_all

/-- Everything an accepted command that ends can have done (R12, R235). -/
theorem exec_cases {i : Instr} (hr : i ≠ .reset) {s t : State} (h : Accepts s) (he : exec i s = .next t) :
    (∃ u, bodyOf i (s.setBusy true) = .done u ∧ t = u.setBusy false ∧ Outside (writes i) (s.setBusy true) u) ∨
    ∃ e u, bodyOf i (s.setBusy true) = .raised e u ∧ t = faultEntry s e u ∧
      Outside (writes i) (s.setBusy true) u := by
  rw [exec_eq hr] at he
  have ho := bodyOf_outside hr (s.setBusy true)
  rcases runCommand_cases (body := bodyOf i) h with ⟨u, h1, h2⟩ | ⟨e, u, h1, h2⟩ | ⟨r, h1, h2⟩
  · rw [h1] at ho
    rw [h2] at he
    cases he
    exact .inl ⟨u, h1, rfl, ho⟩
  · rw [h1] at ho
    rw [h2] at he
    cases he
    exact .inr ⟨e, u, h1, rfl, ho⟩
  · rw [h2] at he
    cases he

/-- A command that is not accepted changes nothing (R101, R242). -/
theorem exec_refused {i : Instr} {s : State} (hr : i ≠ .reset) (h : ¬ Accepts s) : exec i s = .next s := by
  rw [exec_eq hr, runCommand_not_accepted (not_accepts h)]

/-- A command that completes leaves `ERR` 0 (R235). -/
theorem err_of_outside {ps : List Part} {s u : State} (ha : Accepts s) (ho : Outside ps (s.setBusy true) u) :
    (u.setBusy false).err = false := by
  have h : u.err = (s.setBusy true).err := ho.bits 1 (by decide) (by decide)
  rw [setBusy_err, h, setBusy_err, ha.2]

/-- `BUSY` stays 1 while a command executes (R235). -/
theorem busy_of_outside {ps : List Part} {s u : State} (ho : Outside ps (s.setBusy true) u) : u.busy = true :=
  (ho.bits 0 (by decide) (by decide)).trans (setBusy_busy s true)

/-- The epilogue of one command and the prologue of the next undo each other (R220, R235). -/
theorem setBusy_false_true {u : State} (h : u.busy = true) : (u.setBusy false).setBusy true = u := by
  have : setBit (setBit u.status 0 false) 0 true = u.status := by
    apply BitVec.eq_of_getLsbD_eq
    intro j hj
    rw [getLsbD_setBit _ _ _ _ (by decide) hj, getLsbD_setBit _ _ _ _ (by decide) hj]
    split
    · next h0 => subst h0; exact h.symm
    · rfl
  cases u
  simp only [State.setBusy] at *
  simpa using this

theorem issueWord_of_decode {w : Byte} {i : Instr} (h : decodeWord w = some i) (s : State) :
    issueWord w s = exec i s := by
  simp [issueWord, decode, h]

theorem issueWord_of_undefined {w : Byte} (h : decodeWord w = none) (s : State) : issueWord w s = illegalWord s := by
  simp [issueWord, decode, h]

theorem step_move {s : State} {m : HostMove} {rest : List HostMove} (h : s.script = m :: rest) :
    step s = hostMove m { s with script := rest } := by
  simp [step, hostStep, h]

theorem step_idle {s : State} (h : s.script = []) : step s = .next s := by
  simp [step, hostStep, h]

/-- Everything a step can do. -/
theorem step_cases {s t : State} (h : step s = .next t) :
    (s.script = [] ∧ t = s) ∨ ∃ rest,
      (∃ w i, s.script = .issue w :: rest ∧ decodeWord w = some i ∧ exec i { s with script := rest } = .next t) ∨
      (∃ w, s.script = .issue w :: rest ∧ decodeWord w = none ∧ illegalWord { s with script := rest } = .next t) ∨
      (∃ bytes, s.script = .bindSource bytes :: rest ∧ s.busy = false ∧
        t = { s with script := rest, src := bytes, srcPos := 0 }) ∨
      (s.script = .bindSink :: rest ∧ s.busy = false ∧ t = { s with script := rest, snk := [] }) ∨
      ∃ r, s.script = .readReg r :: rest ∧ t = { s with script := rest } := by
  cases hs : s.script with
  | nil =>
    rw [step_idle hs] at h
    cases h
    exact .inl ⟨rfl, rfl⟩
  | cons m rest =>
    refine .inr ⟨rest, ?_⟩
    rw [step_move hs] at h
    cases m with
    | issue w =>
      change issueWord w _ = _ at h
      cases hd : decodeWord w with
      | none => exact .inr (.inl ⟨w, rfl, hd, by rwa [issueWord_of_undefined hd] at h⟩)
      | some i => exact .inl ⟨w, i, rfl, hd, by rwa [issueWord_of_decode hd] at h⟩
    | bindSource bytes =>
      refine .inr (.inr (.inl ⟨bytes, rfl, ?_⟩))
      change bindSource bytes _ = _ at h
      unfold bindSource at h
      split at h
      · cases h
      · next hb => cases h; exact ⟨Bool.eq_false_iff.mpr hb, rfl⟩
    | bindSink =>
      refine .inr (.inr (.inr (.inl ⟨rfl, ?_⟩)))
      change bindSink _ = _ at h
      unfold bindSink at h
      split at h
      · cases h
      · next hb => cases h; exact ⟨Bool.eq_false_iff.mpr hb, rfl⟩
    | readReg r =>
      refine .inr (.inr (.inr (.inr ⟨r, rfl, ?_⟩)))
      change readReg r _ = _ at h
      unfold readReg at h
      split at h
      · cases h; rfl
      · cases h

end Sys2Proof.Machine
end

