-- ==== Sys2Proof/Laws/HostSide.lean ====
section
/-! SUPPORT. What a read of the host gives, case by case (10_state.md R43; 70_reset_and_hazards.md R274). -/

namespace Sys2Proof.Machine

/-- Outside the fault state, with no command running, a read gives the register's value. -/
theorem readout_accepting {s : State} (h : Accepts s) (r : HostReg) : readout r s = regValue r s := by
  simp [readout, mayRead, h.1, h.2]

/-- In the fault state only `STATUS`, `ERRCODE` and the sink have a value (R241). -/
theorem readout_fault {s : State} (hb : s.busy = false) (he : s.err = true) (r : HostReg) :
    readout r s = if definedInFault r then regValue r s else .unspecified := by
  cases h : definedInFault r <;> simp [readout, mayRead, hb, he, h]

/-- While a command runs only `STATUS` may be read (R74, R276). -/
theorem readout_busy {s : State} (h : s.busy = true) {r : HostReg} (hr : r ≠ .status) : readout r s = .forbidden := by
  simp [readout, mayRead, h, hr]

/-- The field `valid` of a `CODE` record is read whatever it is (R30, R44). -/
theorem codeReadout_valid (c : Code) : ∃ len bits, codeReadout c = .code c.valid len bits := by
  cases h : c.valid <;> simp [codeReadout, h]

/-- A valid Code is read whole. -/
theorem codeReadout_of_valid {c : Code} (h : c.valid = true) :
    codeReadout c = .code true (some c.len) (some c.bits) := if_pos h

/-- Of an entry that is not valid, `valid = 0` is read, and `len` and `bits` have no value (U12). -/
theorem codeReadout_of_invalid {c : Code} (h : c.valid = false) : codeReadout c = .code false none none := by
  simp [codeReadout, h]

end Sys2Proof.Machine
end

