-- ==== Sys2Proof/Laws/PerInstr.lean ====
section
/-! SUPPORT. Statements made per command: the family `Encoding`, about a command's one word (30_encoding.md R100 to R104). -/

namespace Sys2Proof.Laws.Encoding

/-- The command is one well-formed byte, its own opcode, and the decoder reads it back with nothing left over. -/
def Statement (i : Instr) : Prop :=
  (encode i).length = 1 ∧ wellFormedWords (encode i) = true ∧ decode (encode i) = .ok (i, [])

theorem nop : Statement .nop := ⟨rfl, rfl, rfl⟩
theorem fclr : Statement .fclr := ⟨rfl, rfl, rfl⟩
theorem fcnt : Statement .fcnt := ⟨rfl, rfl, rfl⟩
theorem build : Statement .build := ⟨rfl, rfl, rfl⟩
theorem genc : Statement .genc := ⟨rfl, rfl, rfl⟩
theorem hser : Statement .hser := ⟨rfl, rfl, rfl⟩
theorem hdes : Statement .hdes := ⟨rfl, rfl, rfl⟩
theorem pack : Statement .pack := ⟨rfl, rfl, rfl⟩
theorem unpack : Statement .unpack := ⟨rfl, rfl, rfl⟩
theorem rewind : Statement .rewind := ⟨rfl, rfl, rfl⟩
theorem encode : Statement .encode := ⟨rfl, rfl, rfl⟩
theorem decode : Statement .decode := ⟨rfl, rfl, rfl⟩
theorem reset : Statement .reset := ⟨rfl, rfl, rfl⟩

end Sys2Proof.Laws.Encoding
end

