-- ==== Sys2Proof/Laws/Reliable.lean ====
section
/-! SUPPORT. A command that completes did what it does when no access fails: the answers it drew were successes (R64). -/

namespace Sys2Proof.Machine

/-- The state with an environment that fails nothing from here on. -/
def State.reliable (s : State) : State := { s with answers := [] }

theorem reliable_neverFails (s : State) : NeverFails s.reliable := fun a h => by cases h

/-- A flow that completes does the same in a reliable environment. -/
def Mirrored (k : State → Flow) : Prop := ∀ s u, k s = .done u → k s.reliable = .done u.reliable

theorem Mirrored.andThen {f k : State → Flow} (hf : Mirrored f) (hk : Mirrored k) :
    Mirrored fun s => (f s).andThen k := by
  intro s u h
  obtain ⟨t, h1, h2⟩ := Flow.andThen_eq_done.mp h
  simp only [hf s t h1, Flow.andThen_done, hk t u h2]

theorem Mirrored.update {f : State → State} (h : ∀ s, f s.reliable = (f s).reliable) : Mirrored fun s => .done (f s) := by
  intro s u hu
  cases hu
  simp only [h]

theorem mirrored_done : Mirrored .done := fun s u h => by cases h; rfl

theorem mirrored_raised {e : Err} : Mirrored (Flow.raised e) := fun s u h => by cases h

theorem readByte_mirrored {onEof : State → Flow} {k : Byte → State → Flow} (he : Mirrored onEof)
    (hk : ∀ b, Mirrored (k b)) : Mirrored fun s => readByte s onEof k := by
  intro s u h
  have ha : s.reliable.answer = .ok := rfl
  rcases srcRead_cases s with ⟨h1, -⟩ | ⟨h1, -⟩ | ⟨h1, hu, -⟩ | ⟨b, r, h1, hu, -⟩
  · simp only [readByte_fail h1] at h; cases h
  · simp only [readByte_never h1] at h; cases h
  · simp only [readByte_eof h1 hu] at h
    simp only
    rw [readByte_eof ha hu]
    exact he s.drawn u h
  · simp only [readByte_byte h1 hu] at h
    simp only
    rw [readByte_byte ha hu]
    exact hk b s.drawn.advance u h

theorem snkWrite_mirrored (v : Byte) : Mirrored (snkWrite v) := by
  intro s u h
  rcases snkWrite_cases v s with ⟨-, h'⟩ | ⟨-, h'⟩ | ⟨-, h'⟩ <;> rw [h'] at h <;> cases h
  exact snkWrite_ok (s := s.reliable) v rfl

theorem snkWrites_mirrored (vs : List Byte) : Mirrored (snkWrites vs) := by
  induction vs with
  | nil => exact mirrored_done
  | cons v vs ih => exact (snkWrite_mirrored v).andThen ih

theorem eachByte_mirrored {body : Byte → State → Flow} (hb : ∀ b, Mirrored (body b)) (n : Nat) :
    Mirrored (eachByte body n) := by
  induction n with
  | zero => intro s u h; cases h
  | succ n ih => exact readByte_mirrored mirrored_done fun b => (hb b).andThen ih

theorem overSource_mirrored {body : Byte → State → Flow} (hb : ∀ b, Mirrored (body b)) : Mirrored (overSource body) :=
  fun s u h => eachByte_mirrored hb _ s u h

theorem rewindBody_mirrored : Mirrored rewindBody := by
  intro s u h
  unfold rewindBody at h
  split at h <;> cases h
  rfl

theorem fclrBody_mirrored : Mirrored fclrBody := Mirrored.update fun _ => rfl

theorem fcntBody_mirrored : Mirrored fcntBody := by
  have : Mirrored (overSource countByte) := overSource_mirrored fun b s u h => by
    unfold countByte at h ⊢
    split at h
    · cases h
    · next hb =>
      cases h
      exact if_neg hb
  exact fun s u h => this s.dropDerived u h

theorem foldl_allocNode_reliable (l : List (Byte × Count)) (s : State) :
    l.foldl (fun t e => t.allocNode (leafNode e)) s.reliable =
      (l.foldl (fun t e => t.allocNode (leafNode e)) s).reliable := by
  induction l generalizing s with
  | nil => rfl
  | cons e l ih => exact ih (s.allocNode (leafNode e))

theorem insertOrd_reliable (s : State) (n : NodeRef) (l : List NodeRef) :
    insertOrd s.reliable n l = insertOrd s n l := insertOrd_congr rfl fun _ _ => rfl

theorem takeRoot_mirrored (r : NodeRef) : Mirrored (takeRoot r) := by
  intro s u h
  unfold takeRoot at h ⊢
  have hn : s.reliable.nodeAt r = s.nodeAt r := rfl
  rw [hn]
  cases hr : s.nodeAt r with
  | none => rw [hr] at h; cases h
  | some nd => rw [hr] at h; cases h; rfl

theorem mergeLoop_mirrored (n : Nat) (ord : List NodeRef) : Mirrored (mergeLoop n ord) := by
  induction n generalizing ord with
  | zero =>
    match ord with
    | [] => intro s u h; cases h
    | [r] => exact takeRoot_mirrored r
    | _ :: _ :: _ => intro s u h; cases h
  | succ n ih =>
    match ord with
    | [] => intro s u h; cases h
    | [r] => exact takeRoot_mirrored r
    | a :: b :: rest =>
      intro s u h
      rw [mergeLoop] at h ⊢
      have ha : s.reliable.nodeAt a = s.nodeAt a := rfl
      have hb : s.reliable.nodeAt b = s.nodeAt b := rfl
      rw [ha, hb]
      cases hna : s.nodeAt a with
      | none => simp only [hna] at h; cases h
      | some na =>
        cases hnb : s.nodeAt b with
        | none => simp only [hna, hnb] at h; cases h
        | some nb =>
          simp only [hna, hnb] at h ⊢
          split at h
          · cases h
          · next hw =>
            rw [if_neg hw]
            have := ih _ _ _ h
            rw [← insertOrd_reliable] at this
            exact this

theorem buildBody_mirrored : Mirrored buildBody := by
  intro s u h
  unfold buildBody at h ⊢
  split at h
  · cases h
  · next hk =>
    have hk' : ¬ s.reliable.k = 0 := hk
    rw [if_neg hk']
    have hm : materializeLeaves s.reliable.dropDerived = (materializeLeaves s.dropDerived).reliable :=
      foldl_allocNode_reliable _ { s.dropDerived with nnode := 0 }
    have hs : sortLeaves (materializeLeaves s.dropDerived).reliable = sortLeaves (materializeLeaves s.dropDerived) :=
      foldr_insertOrd_congr rfl fun _ _ => rfl
    simp only [hm, hs]
    exact mergeLoop_mirrored _ _ _ _ h

theorem walkCodes_mirrored (n : Nat) (i : NodeRef) (path : List Bool) : Mirrored (walkCodes n i path) := by
  induction n generalizing i path with
  | zero => intro s u h; cases h
  | succ n ih =>
    intro s u h
    rw [walkCodes] at h ⊢
    have hi : s.reliable.nodeAt i = s.nodeAt i := rfl
    rw [hi]
    cases hn : s.nodeAt i with
    | none => simp only [hn] at h; cases h
    | some nd =>
      simp only [hn] at h ⊢
      split at h
      · cases h; rfl
      · split at h
        · cases h
        · next hne =>
          rw [if_neg hne]
          exact (ih _ _).andThen (ih _ _) s u h

theorem gencBody_mirrored : Mirrored gencBody := by
  intro s u h
  unfold gencBody at h ⊢
  split at h
  · next hv =>
    have hv' : s.reliable.treev = true := hv
    rw [if_pos hv']
    exact (walkCodes_mirrored _ _ _).andThen (Mirrored.update (f := fun t => t.setCodev true) fun _ => rfl)
      (s.setCodev false).invalidateCodes u h
  · cases h

theorem hserBody_mirrored : Mirrored hserBody := by
  intro s u h
  unfold hserBody at h ⊢
  split at h
  · cases h
  · next hk =>
    have hk' : ¬ s.reliable.k = 0 := hk
    rw [if_neg hk']
    exact snkWrites_mirrored _ s u h

theorem emitAcc_mirrored : Mirrored emitAcc := fun s u h =>
  (snkWrite_mirrored s.acc).andThen (Mirrored.update (f := State.clearAcc) fun _ => rfl) s u h

theorem putBits_mirrored (l : List Bool) : Mirrored (putBits l) := by
  induction l with
  | nil => exact mirrored_done
  | cons b l ih =>
    refine Mirrored.andThen (f := putBit b) (fun s u h => ?_) ih
    unfold putBit at h ⊢
    split at h
    · next h8 =>
      have h8' : (s.reliable.shiftBit b).nbits = 8 := h8
      rw [if_pos h8']
      exact emitAcc_mirrored (s.shiftBit b) u h
    · next h8 =>
      have h8' : ¬ (s.reliable.shiftBit b).nbits = 8 := h8
      rw [if_neg h8']
      cases h; rfl

theorem packBody_mirrored : Mirrored packBody := by
  intro s u h
  unfold packBody at h ⊢
  split at h
  · next hv =>
    have hv' : s.reliable.codev = true := hv
    rw [if_pos hv']
    refine Mirrored.andThen (f := overSource packByte) (k := flushBits) (overSource_mirrored fun b t v ht => ?_)
      (fun t v ht => ?_) s.clearAcc u h
    · unfold packByte at ht ⊢
      split at ht
      · next hc =>
        have hc' : (t.reliable.codeAt b).valid = true := hc
        rw [if_pos hc']
        exact putBits_mirrored _ t v ht
      · cases ht
    · unfold flushBits at ht ⊢
      split at ht
      · next h0 =>
        have h0' : t.reliable.nbits = 0 := h0
        rw [if_pos h0']
        cases ht; rfl
      · next h0 =>
        have h0' : ¬ t.reliable.nbits = 0 := h0
        rw [if_neg h0']
        exact emitAcc_mirrored { t with acc := padOut t.acc t.nbits } v ht
  · cases h

theorem encodeBody_mirrored : Mirrored encodeBody := by
  have hrest : Mirrored encodeRest :=
    (((buildBody_mirrored.andThen gencBody_mirrored).andThen hserBody_mirrored).andThen rewindBody_mirrored).andThen
      packBody_mirrored
  refine ((rewindBody_mirrored.andThen fclrBody_mirrored).andThen fcntBody_mirrored).andThen fun t u h => ?_
  split at h
  · next hk =>
    have hk' : t.reliable.k = 0 := hk
    rw [if_pos hk']
    cases h; rfl
  · next hk =>
    have hk' : ¬ t.reliable.k = 0 := hk
    rw [if_neg hk']
    exact hrest t u h

/-- An `HSER` that completes appends the header (R160). -/
theorem hserBody_done {s u : State} (h : hserBody s = .done u) : 1 ≤ s.k ∧ u.snk = s.snk ++ headerBytes s.ft := by
  have hk : 1 ≤ s.k := by
    by_contra hk
    rw [hserBody, if_pos (by omega)] at h
    cases h
  refine ⟨hk, ?_⟩
  have h1 := hserBody_mirrored s u h
  rw [hserBody_ok (s := s.reliable) hk ((reliable_neverFails s).answersOk _)] at h1
  have h2 := congrArg (fun f => match f with | .done t => t.snk | _ => []) h1
  exact h2.symm

/-- A `PACK` that completes, on a source whose bytes all have Codes, appends their BitStream (R181). -/
theorem packBody_done {s u : State} (h : packBody s = .done u) (hv : ∀ b ∈ s.unread, (s.codeAt b).valid = true) :
    u.snk = s.snk ++ packedBytes (s.codeBits s.unread) := by
  have hcv : s.codev = true := by
    by_contra hcv
    rw [packBody, if_neg hcv] at h
    cases h
  have h1 := packBody_mirrored s u h
  rw [packBody_ok (s := s.reliable) hcv hv ((reliable_neverFails s).answersOk _)] at h1
  have h2 := congrArg (fun f => match f with | .done t => t.snk | _ => []) h1
  exact h2.symm

theorem Encoded.of_reliable {s u : State} {tr : Tree} (h : Encoded s.reliable u.reliable tr) : Encoded s u tr where
  counts := h.counts
  tree := .congr (s := u.reliable) ⟨rfl, rfl, rfl, rfl, rfl⟩ h.tree
  built := h.built
  codes := ⟨h.codes.valid, h.codes.paths⟩
  srcPos := h.srcPos
  acc := h.acc
  nbits := h.nbits
  reader := h.reader
  around := h.around
  errcode := h.errcode
  treev := h.treev
  codev := h.codev
  bits := h.bits
  snk := h.snk

/-- An `ENCODE` of a non-empty source that completes (R213). -/
theorem encodeBody_done {s u : State} (h : encodeBody s = .done u) (hne : s.src ≠ [])
    (hlen : s.src.length ≤ Config.maxCount) : ∃ tr, Encoded s u tr := by
  have h1 := encodeBody_mirrored s u h
  obtain ⟨v, tr, h2, h3⟩ := encodeBody_ok (s := s.reliable) hne hlen (reliable_neverFails s)
  rw [h2] at h1
  cases h1
  exact ⟨tr, h3.of_reliable⟩

/-- An `ENCODE` of an empty source that completes (R214). -/
theorem encodeBody_done_empty {s u : State} (h : encodeBody s = .done u) (hs : s.src = []) :
    u.k = 0 ∧ u.snk = s.snk := by
  have h1 := encodeBody_mirrored s u h
  obtain ⟨v, h2, h3, h4, -, -⟩ := encodeBody_empty (s := s.reliable) hs ((reliable_neverFails s).answersOk _)
  rw [h2] at h1
  cases h1
  exact ⟨h3, h4⟩

end Sys2Proof.Machine
end

