-- ==== Sys2Proof/Machine/Script.lean ====
section
/-! DEFINITION. The assembler syntax of a command script (30_encoding.md R105): text to lines, lines to host moves and
to opcodes. -/

namespace Sys2Proof.Machine

/-- One line of a script, read. -/
inductive ScriptLine where
  | command (i : Instr)
  | src (bytes : List Byte)
  | snk
  | blank
  deriving DecidableEq, Repr

/-- The mnemonics of R102, upper case, as characters. -/
def mnemonicChars : Instr → List Char
  | .nop => ['N', 'O', 'P']
  | .fclr => ['F', 'C', 'L', 'R']
  | .fcnt => ['F', 'C', 'N', 'T']
  | .build => ['B', 'U', 'I', 'L', 'D']
  | .genc => ['G', 'E', 'N', 'C']
  | .hser => ['H', 'S', 'E', 'R']
  | .hdes => ['H', 'D', 'E', 'S']
  | .pack => ['P', 'A', 'C', 'K']
  | .unpack => ['U', 'N', 'P', 'A', 'C', 'K']
  | .rewind => ['R', 'E', 'W', 'I', 'N', 'D']
  | .encode => ['E', 'N', 'C', 'O', 'D', 'E']
  | .decode => ['D', 'E', 'C', 'O', 'D', 'E']
  | .reset => ['R', 'E', 'S', 'E', 'T']

/-- The command a word of the script names. -/
def commandOf (word : List Char) : Option Instr :=
  (opcodeRows.map OpRow.instr).find? fun i => mnemonicChars i == word

/-- The value of a hexadecimal digit, of either case (log entry 15). -/
def hexDigit (c : Char) : Option Nat :=
  if '0' ≤ c ∧ c ≤ '9' then some (c.toNat - 48)
  else if 'A' ≤ c ∧ c ≤ 'F' then some (c.toNat - 55)
  else if 'a' ≤ c ∧ c ≤ 'f' then some (c.toNat - 87)
  else none

/-- A byte written as two hexadecimal digits. -/
def hexByte : List Char → Option Byte
  | [h, l] =>
    match hexDigit h, hexDigit l with
    | some a, some b => some (BitVec.ofNat 8 (16 * a + b))
    | _, _ => none
  | _ => none

/-- All the bytes of a `.src` line, or none when one of them is no byte. -/
def hexBytes : List (List Char) → Option (List Byte)
  | [] => some []
  | w :: ws =>
    match hexByte w, hexBytes ws with
    | some b, some bs => some (b :: bs)
    | _, _ => none

/-- The words of a line: separated by spaces or tabs, up to a `#` (R105). The second argument is the word being read. -/
def wordsOf : List Char → List Char → List (List Char)
  | [], w => if w.isEmpty then [] else [w.reverse]
  | c :: cs, w =>
    if c == '#' then (if w.isEmpty then [] else [w.reverse])
    else if c == ' ' || c == '\t' then (if w.isEmpty then wordsOf cs [] else w.reverse :: wordsOf cs [])
    else wordsOf cs (c :: w)

/-- A line of a script (R105); `none` for a line that is none of the forms R105 gives. -/
def parseLine (line : List Char) : Option ScriptLine :=
  match wordsOf line [] with
  | [] => some .blank
  | w :: ws =>
    if w == ['.', 's', 'r', 'c'] then (hexBytes ws).map .src
    else if w == ['.', 's', 'n', 'k'] then (if ws.isEmpty then some .snk else none)
    else if ws.isEmpty then (commandOf w).map .command
    else none

/-- All the lines of a script, or none when one of them has no meaning. -/
def parseScript : List (List Char) → Option (List ScriptLine)
  | [] => some []
  | l :: ls =>
    match parseLine l, parseScript ls with
    | some x, some xs => some (x :: xs)
    | _, _ => none

/-- The opcodes of a script, one byte per command line, in order (R105). -/
def assemble : List ScriptLine → List Byte
  | [] => []
  | .command i :: ls => encode i ++ assemble ls
  | _ :: ls => assemble ls

/-- The moves of the host that plays a script (R105, R274). -/
def hostMoves : List ScriptLine → List HostMove
  | [] => []
  | .command i :: ls => .issue (encodeWord i) :: hostMoves ls
  | .src bytes :: ls => .bindSource bytes :: hostMoves ls
  | .snk :: ls => .bindSink :: hostMoves ls
  | .blank :: ls => hostMoves ls

end Sys2Proof.Machine
end

