-- ==== Sys2Proof/Tests/Slice0.lean ====
section
/-! SUPPORT. Tests: the decoder on words written from the opcode table, the spec's own vectors (95_test_vectors.md, named V<n>),
and for each statement with hypotheses a witness that meets them. -/

namespace Sys2Proof.Tests

open Sys2Proof Sys2Proof.Machine

/-! ### Small states -/

/-- The reset state with `EQ_INTERNAL = OLDEST_FIRST` and a bound source. -/
def start (src : List Byte) : State := { State.reset with eqInternal := .oldestFirst, src := src }

/-- The same with a table. -/
def withTable (records : List (Byte × Count)) : State :=
  { start [] with ft := assigned (Vector.replicate 256 0) records }

/-- One component of the next state. -/
def seen {α : Type} (f : State → α) : Host.Outcome State Fault Refusal → Option α
  | .next t => some (f t)
  | _ => none

/-- The nodes of V7's tree, `Int(4, Leaf(62, 1), Leaf(61, 3))`, its table, its codes (V19), both flags 1. -/
def aaab (src : List Byte) : State :=
  { withTable [(0x61, 3), (0x62, 1)] with
    node := ((State.reset.node.set 0 (leafNode (0x61, 3))).set 1 (leafNode (0x62, 1))).set 2 (internalNode 4 1 0)
    nnode := 3
    root := 2
    total := 4
    code := (State.reset.code.set 0x61 (codeOf [true])).set 0x62 (codeOf [false])
    status := 0x0C
    src := src }

/-- V8's tree of one Leaf, with its code, both flags 1. -/
def zzzzz (src : List Byte) : State :=
  { withTable [(0x7A, 5)] with
    node := State.reset.node.set 0 (leafNode (0x7A, 5))
    nnode := 1
    root := 0
    total := 5
    code := State.reset.code.set 0x7A (codeOf [])
    status := 0x0C
    src := src }

/-- A root with an absent child, which no `BUILD` makes. -/
def broken (src : List Byte) : State :=
  { aaab src with node := State.reset.node.set 2 (internalNode 4 nil 0) }

/-! ### Command words (R100 to R106) -/

theorem test_wf_no_word : wellFormedWords [] = false := by decide
theorem test_wf_two_words : wellFormedWords [0x00, 0x01] = false := by decide
theorem test_wf_undefined_word : wellFormedWords [0x0C] = false := by decide
theorem test_wf_last_undefined_word : definedWord 0xFF = false := by decide
theorem test_wf_reset_word : wellFormedWords [0x0F] = true := by decide

theorem test_decode_system : decode [0b00000000] = .ok (.nop, []) ∧ decode [0b00001001] = .ok (.rewind, []) ∧
    decode [0b00001111] = .ok (.reset, []) := ⟨rfl, rfl, rfl⟩
theorem test_decode_table : decode [0b00000001] = .ok (.fclr, []) ∧ decode [0b00000010, 0xFF] = .ok (.fcnt, [0xFF]) :=
  ⟨rfl, rfl⟩
theorem test_decode_tree : decode [0b00000011] = .ok (.build, []) ∧ decode [0b00000100] = .ok (.genc, []) := ⟨rfl, rfl⟩
theorem test_decode_header : decode [0b00000101] = .ok (.hser, []) ∧ decode [0b00000110] = .ok (.hdes, []) := ⟨rfl, rfl⟩
theorem test_decode_bits : decode [0b00000111] = .ok (.pack, []) ∧ decode [0b00001000] = .ok (.unpack, []) := ⟨rfl, rfl⟩
theorem test_decode_composite : decode [0b00001010] = .ok (.encode, []) ∧ decode [0b00001011] = .ok (.decode, []) :=
  ⟨rfl, rfl⟩
theorem test_decode_rejects : decode [] = .error .noBytes ∧ decode [0x0E] = .error (.undefinedWord 0x0E) := ⟨rfl, rfl⟩

/-- R104: no two rows of the opcode map overlap. -/
theorem test_rows_disjoint : opcodeRows.Pairwise fun r r' => r.word &&& r'.mask ≠ r'.word &&& r.mask := by decide

/-- The word a test of the table reads, as the first thing the machine runs. -/
theorem test_decodeTableWord : decodeTableWord 8 0x0B = some .decode ∧ decodeTableWord 8 0x0D = none := by decide
theorem test_withFetchWord : step (State.reset.withFetchWord 8 0x00) = .next State.reset := rfl

/-- R105: a line of a script. -/
theorem test_script_src : parseLine ['.', 's', 'r', 'c', ' ', '6', '1', ' ', 'F', 'f', ' ', '#', 'x'] =
    some (.src [0x61, 0xFF]) := by decide
theorem test_script_command : parseLine ['R', 'E', 'S', 'E', 'T', ' ', ' '] = some (.command .reset) ∧
    parseLine ['R', 'E', 'S', 'E'] = none := by decide

/-! ### The commands on the spec's vectors -/

/-- V53. -/
theorem test_nop : seen (fun t => t.status) (exec .nop (aaab [])) = some 0x0C := by decide +kernel
/-- V5. -/
theorem test_fclr : seen (fun t => (t.ftAt 0x61, t.k, t.status)) (exec .fclr (aaab [])) = some (0, 0, 0x00) := by
  decide +kernel
/-- V1. -/
theorem test_fcnt : seen (fun t => (t.ftAt 0x61, t.ftAt 0x62, t.k, t.srcPos)) (exec .fcnt (start [0x61, 0x61, 0x61, 0x62])) =
    some (3, 1, 2, 4) := by decide +kernel
/-- V6. -/
theorem test_fcnt_overflow : seen (fun t => (t.status, t.errcode))
    (exec .fcnt { withTable [(0x00, 0xFFFFFFFF)] with src := [0x00] }) = some (0x02, 7) := by decide +kernel
/-- V9: an Internal node comes before a Leaf of the same weight. -/
theorem test_build_internal_first : seen (fun t => (t.nodeAt 5, t.nodeAt 6, t.root, t.total, t.status))
    (exec .build (withTable [(0x61, 1), (0x62, 1), (0x63, 2), (0x64, 4)])) =
      some (some (internalNode 4 4 2), some (internalNode 8 5 3), 6, 8, 0x04) := by decide +kernel
/-- V13: with `NEWEST_FIRST` the node merged later comes first. -/
theorem test_build_newest_first : seen (fun t => (t.nodeAt 6, t.nnode)) (exec .build
    { withTable [(0x61, 1), (0x62, 1), (0x63, 1), (0x64, 1)] with eqInternal := .newestFirst }) =
      some (some (internalNode 4 5 4), 7) := by decide +kernel
/-- V19: on V7's tree. -/
theorem test_genc : seen (fun t => (t.codeAt 0x61, t.codeAt 0x62, (t.codeAt 0x63).valid, t.status)) (exec .genc
    { aaab [] with status := 0x04, code := State.reset.code }) =
      some (codeOf [true], codeOf [false], false, 0x0C) := by decide +kernel
/-- V21. -/
theorem test_genc_without_tree : seen (fun t => (t.status, t.errcode)) (exec .genc State.reset) = some (0x02, 6) := rfl
/-- V22. -/
theorem test_hser : seen (fun t => t.snk) (exec .hser (withTable [(0x61, 3), (0x62, 1)])) =
    some [0x01, 0x61, 0, 0, 0, 0x03, 0x62, 0, 0, 0, 0x01] := by decide +kernel
/-- V22: the most significant byte of a count comes first. -/
theorem test_hser_byte_order : seen (fun t => t.snk) (exec .hser (withTable [(0x00, 0x01020304)])) =
    some [0x00, 0x00, 0x01, 0x02, 0x03, 0x04] := by decide +kernel
/-- V25. -/
theorem test_hdes : seen (fun t => (t.ftAt 0x61, t.ftAt 0x62, t.k, t.srcPos, t.status))
    (exec .hdes (start [0x01, 0x61, 0, 0, 0, 0x03, 0x62, 0, 0, 0, 0x01, 0xE0])) = some (3, 1, 2, 11, 0x00) := by
  decide +kernel
/-- V26: the source ends inside the second record. -/
theorem test_hdes_short : seen (fun t => (t.status, t.errcode))
    (exec .hdes (start [0x01, 0x61, 0, 0, 0, 0x03, 0x62, 0, 0])) = some (0x02, 3) := by decide +kernel
/-- V32. -/
theorem test_pack : seen (fun t => (t.snk, t.srcPos, t.nbits)) (exec .pack (aaab [0x61, 0x61, 0x61, 0x62])) =
    some ([0xE0], 4, 0) := by decide +kernel
/-- V39. -/
theorem test_pack_no_code : seen (fun t => (t.snk, t.errcode)) (exec .pack (aaab [0x61, 0x61, 0x61, 0x63])) =
    some ([], 8) := by decide +kernel
/-- V41. -/
theorem test_unpack : seen (fun t => (t.snk, t.cur, t.outcnt, t.srcPos)) (exec .unpack (aaab [0xE0])) =
    some ([0x61, 0x61, 0x61, 0x62], 2, 4, 1) := by decide +kernel
/-- V48: no payload byte. -/
theorem test_unpack_truncated : seen (fun t => (t.snk, t.errcode)) (exec .unpack (aaab [])) = some ([], 5) := by
  decide +kernel
/-- V53. -/
theorem test_rewind : seen (fun t => t.srcPos) (exec .rewind { start [0, 1, 2, 3] with srcPos := 4 }) = some 0 := by
  decide +kernel
/-- V38: `"abcc"`. -/
theorem test_encode : seen (fun t => (t.snk, t.status)) (exec .encode (start [0x61, 0x62, 0x63, 0x63])) =
    some ([0x02, 0x61, 0, 0, 0, 0x01, 0x62, 0, 0, 0, 0x01, 0x63, 0, 0, 0, 0x02, 0x1C], 0x0C) := by decide +kernel
/-- V52: the starting cursor is ignored. -/
theorem test_encode_rewinds : seen (fun t => (t.snk, t.srcPos))
    (exec .encode { start [0x61, 0x61, 0x61, 0x62] with srcPos := 3 }) =
      some ([0x01, 0x61, 0, 0, 0, 0x03, 0x62, 0, 0, 0, 0x01, 0xE0], 4) := by decide +kernel
/-- V14: a file of `"abcd"` made with `OLDEST_FIRST`, read with `NEWEST_FIRST`. -/
theorem test_decode_other_parameter : seen (fun t => (t.snk, t.err)) (exec .decode
    { start [0x03, 0x61, 0, 0, 0, 0x01, 0x62, 0, 0, 0, 0x01, 0x63, 0, 0, 0, 0x01, 0x64, 0, 0, 0, 0x01, 0x1B] with
      eqInternal := .newestFirst }) = some ([0x63, 0x64, 0x61, 0x62], false) := by decide +kernel
/-- V46: trailing bytes are not read. -/
theorem test_decode_trailing : seen (fun t => (t.snk, t.srcPos, t.status))
    (exec .decode (start [0x01, 0x61, 0, 0, 0, 0x03, 0x62, 0, 0, 0, 0x01, 0xE0, 0xFF, 0x00])) =
      some ([0x61, 0x61, 0x61, 0x62], 12, 0x04) := by decide +kernel
/-- V55. -/
theorem test_reset : seen (fun t => (t.status, t.errcode, t.root, t.k)) (exec .reset
    { aaab [] with status := 0x02, errcode := 9 }) = some (0x00, 0, 511, 0) := by decide +kernel
/-- R44, R43: after reset `CODE[s].valid` reads 0, and nothing is said of `len` and `bits`; `NODE[0]` has no value. -/
theorem test_readout_reset : (readout (.code 0x61) State.reset, readout (.node 0) State.reset, readout .root State.reset) =
    (.code false none none, .unspecified, .num 511) := by decide +kernel
/-- V19, R151: after `GENC` for `"aaab"` the host reads a Code, and `valid = 0` of a symbol that does not occur. -/
theorem test_readout_code : (readout (.code 0x61) (aaab []), readout (.code 0x63) (aaab [])) =
    (.code true (some 1) (some [true]), .code false none none) := by decide +kernel
/-- V54, through the step. -/
theorem test_illegal_word : seen (fun t => (t.status, t.errcode)) (step (State.reset.withFetchWord 8 0x7F)) =
    some (0x02, 9) := rfl
/-- V57: four bytes of the six reach the sink. -/
theorem test_write_failure : seen (fun t => (t.snk, t.errcode)) (exec .hser
    { withTable [(0x61, 3), (0x62, 1)] with
      answers := [.ok, .ok, .ok, .ok, .ok, .ok, .fail], faultKeep := [4] }) = some ([0x01, 0x61, 0, 0], 2) := by
  decide +kernel

/-! ### The small states are what they say -/

/-- V7's tree. -/
def aaabTree : Tree := .internal 4 (.leaf 0x62 1) (.leaf 0x61 3)

/-- V8's tree. -/
def zzzzzTree : Tree := .leaf 0x7A 5

theorem aaab_treeOf (src : List Byte) : TreeOf (aaab src) aaabTree := by
  refine TreeOf.congr (s := aaab []) ⟨rfl, rfl, rfl, rfl, rfl⟩ ?_
  have h0 : (aaab []).nodeAt 0 = some (leafNode (0x61, 3)) := by decide +kernel
  have h1 : (aaab []).nodeAt 1 = some (leafNode (0x62, 1)) := by decide +kernel
  have h2 : (aaab []).nodeAt 2 = some (internalNode 4 1 0) := by decide +kernel
  exact {
    at_root := .internal h2 rfl (.leaf h1 rfl) (.leaf h0 rfl)
    sums := ⟨by decide, trivial, trivial⟩
    owned := by decide +kernel
    leaves := by decide +kernel
    nonempty := by decide +kernel
    nnode := by decide +kernel
    root := by decide +kernel
    total := by decide +kernel }

theorem aaab_codesOf (src : List Byte) : CodesOf (aaab src) aaabTree := by
  refine ⟨fun b => ?_, ?_⟩
  · have : ∀ b : Byte, ((aaab []).codeAt b).valid = true ↔ (aaab []).ftAt b ≠ 0 := by decide +kernel
    exact this b
  · have : ∀ e ∈ aaabTree.codes, (aaab []).codeAt e.1 = codeOf e.2 := by decide +kernel
    exact this

theorem zzzzz_treeOf (src : List Byte) : TreeOf (zzzzz src) zzzzzTree := by
  refine TreeOf.congr (s := zzzzz []) ⟨rfl, rfl, rfl, rfl, rfl⟩ ?_
  have h0 : (zzzzz []).nodeAt 0 = some (leafNode (0x7A, 5)) := by decide +kernel
  exact {
    at_root := .leaf h0 rfl
    sums := trivial
    owned := by decide +kernel
    leaves := by decide +kernel
    nonempty := by decide +kernel
    nnode := by decide +kernel
    root := by decide +kernel
    total := by decide +kernel }

theorem start_inv : Inv (start []) where
  registers := {
    idle := by decide +kernel
    reserved := by unfold ReservedZero; decide +kernel
    code_iff := by decide +kernel
    code_range := by decide +kernel
    fault_status := by decide +kernel
    codev_treev := by decide +kernel
    cursor := by decide +kernel
    writer := by decide +kernel }
  tree := fun h => absurd h (by decide +kernel)
  codes := fun h => absurd h (by decide +kernel)

theorem exists_next {f : State → Bool} {o : Host.Outcome State Fault Refusal} (h : seen f o = some true) :
    ∃ t, o = .next t ∧ f t = true := by
  cases o with
  | next t => exact ⟨t, rfl, by simpa [seen] using h⟩
  | fault r => cases h
  | refused r => cases h

/-! ### Witnesses: each statement's hypotheses are met together -/

theorem witness_UndefinedWordFaultsOrIsRefused :
    ∀ w : Byte, w = 0x0C ∨ w = 0x0D ∨ w = 0x0E ∨ 0x10 ≤ w.toNat →
      ∃ s s' : State, s.script = [.issue w] ∧ s.busy = false ∧ s.err = false ∧
        s'.script = [.issue w] ∧ s'.busy = false ∧ s'.err = true := fun w _ =>
  ⟨{ script := [.issue w], __ := State.reset }, { script := [.issue w], status := 0x02, __ := State.reset },
    rfl, (by decide : BitVec.getLsbD 0x00#8 0 = false), (by decide : BitVec.getLsbD 0x00#8 1 = false),
    rfl, (by decide : BitVec.getLsbD 0x02#8 0 = false), (by decide : BitVec.getLsbD 0x02#8 1 = true)⟩

theorem witness_UndefinedWord_boundaries : decodeWord 0x0C = none ∧ decodeWord 0x0E = none ∧ decodeWord 0x10 = none ∧
    decodeWord 0xFF = none ∧ decodeWord 0x0B ≠ none ∧ decodeWord 0x0F ≠ none := by decide

theorem witness_StepRunsTheIssuedCommand : ∃ s : State,
    s.script = .issue 0x0F :: [] ∧ decodeWord 0x0F = some .reset :=
  ⟨{ script := [.issue 0x0F], __ := State.reset }, rfl, by decide⟩

theorem witness_HostBindsStreamsAndReads (m : HostMove) : ∃ idle busy : State,
    idle.script = [m] ∧ idle.busy = false ∧ busy.script = [m] ∧ busy.busy = true ∧ State.reset.script = [] ∧
    HostReg.sink ≠ .status :=
  ⟨{ script := [m], __ := State.reset }, { script := [m], status := 0x01, __ := State.reset },
    rfl, (by decide : BitVec.getLsbD 0x00#8 0 = false), rfl, (by decide : BitVec.getLsbD 0x01#8 0 = true), rfl, by decide⟩

theorem witness_RewindMovesTheCursor : Accepts (start [1, 2]) ∧ (start [1, 2]).answer = .ok ∧
    Accepts { start [1, 2] with answers := [.fail] } ∧ State.answer { start [1, 2] with answers := [.fail] } = .fail := by
  unfold Accepts; decide +kernel

theorem witness_ResetReturnsTheEngine : (aaab []).busy = false ∧ State.busy { aaab [] with status := 0x02 } = false ∧
    State.err { aaab [] with status := 0x02 } = true := by decide +kernel

theorem witness_FclrClearsTheTable : Accepts (aaab []) := by unfold Accepts; decide +kernel

theorem witness_FcntCountsTheUnreadSource : ∃ s : State, Accepts s ∧ s.srcPos ≤ s.src.length ∧
    AnswersOk s (s.unread.length + 1) ∧ (∀ b, (s.ftAt b).toNat + s.unread.count b ≤ Config.maxCount) ∧ s.unread ≠ [] := by
  refine ⟨{ withTable [(0x61, 0xFFFFFFFE)] with src := [0x61, 0x62] }, ?_⟩
  unfold Accepts AnswersOk; decide +kernel

theorem witness_FcntOverflowAndReadFailureFault :
    (∃ s : State, Accepts s ∧ AnswersOk s s.unread.length ∧
      ∃ b, Config.maxCount < (s.ftAt b).toNat + s.unread.count b) ∧
    (∃ s : State, Accepts s ∧ 0 ≤ s.unread.length ∧ s.answers = List.replicate 0 .ok ++ .fail :: [] ∧
      ∀ b, (s.ftAt b).toNat + (s.unread.take 0).count b ≤ Config.maxCount) ∧
    ∃ s : State, Accepts s ∧ 2 ≤ s.unread.length ∧ s.answers = List.replicate 2 .ok ++ .fail :: [] ∧
      ∀ b, (s.ftAt b).toNat + (s.unread.take 2).count b ≤ Config.maxCount := by
  refine ⟨⟨{ withTable [(0x61, 0xFFFFFFFF)] with src := [0x61] }, ?_⟩,
    ⟨{ start [0x61, 0x62] with answers := [.fail] }, ?_⟩, ⟨{ start [0x61, 0x62] with answers := [.ok, .ok, .fail] }, ?_⟩⟩
  · unfold Accepts AnswersOk
    exact ⟨by decide +kernel, by decide +kernel, 0x61, by decide +kernel⟩
  · unfold Accepts; decide +kernel
  · unfold Accepts; decide +kernel

theorem witness_MissingPrerequisiteFaults : Accepts (start []) ∧ (start []).k = 0 ∧ (start []).treev = false ∧
    (start []).codev = false := by unfold Accepts; decide +kernel

theorem witness_BuildCompletesWithinTheWeightLimit :
    Accepts (withTable [(0x00, 0xFFFFFFFE), (0xFF, 1)]) ∧ 1 ≤ (withTable [(0x00, 0xFFFFFFFE), (0xFF, 1)]).k ∧
    (withTable [(0x00, 0xFFFFFFFE), (0xFF, 1)]).totalFT ≤ Config.maxCount := by unfold Accepts; decide +kernel

theorem witness_BuildWeightOverflowFaults :
    Accepts (withTable [(0x00, 0xFFFFFFFF), (0x01, 1)]) ∧ 1 ≤ (withTable [(0x00, 0xFFFFFFFF), (0x01, 1)]).k ∧
    Config.maxCount < (withTable [(0x00, 0xFFFFFFFF), (0x01, 1)]).totalFT := by unfold Accepts; decide +kernel

/-- `BUILD` of V9's table completes; the clauses' premises hold at its boundary indices. -/
theorem built_witness : ∃ s t : State, Accepts s ∧ exec .build s = .next t ∧ t.err = false ∧
    s.k = 4 ∧ t.nnode = 7 ∧ t.nodeAt 4 = some (internalNode 2 0 1) ∧ s.eqInternal = .oldestFirst := by
  obtain ⟨t, h1, h2⟩ := exists_next (f := fun t => !t.err && (t.nnode == 7) && (t.nodeAt 4 == some (internalNode 2 0 1)))
    (o := exec .build (withTable [(0x61, 1), (0x62, 1), (0x63, 2), (0x64, 4)])) (by decide +kernel)
  simp only [Bool.and_eq_true, Bool.not_eq_true', beq_iff_eq] at h2
  exact ⟨_, t, by unfold Accepts; decide +kernel, h1, h2.1.1, by decide +kernel, h2.1.2, h2.2, rfl⟩

theorem witness_BuildMakesTheTreeOfTheTable : ∃ s t : State, Accepts s ∧ exec .build s = .next t ∧ t.err = false := by
  obtain ⟨s, t, h1, h2, h3, -⟩ := built_witness
  exact ⟨s, t, h1, h2, h3⟩

theorem witness_BuildAllocationOrder : ∃ s t : State, Accepts s ∧ exec .build s = .next t ∧ t.err = false ∧
    (tableEntries s.ft)[0]? = some (0x61, 1) ∧ (tableEntries s.ft)[3]? = some (0x64, 4) ∧ s.k ≤ 4 ∧ 4 < 2 * s.k - 1 ∧
    s.k ≤ 6 ∧ 6 < 2 * s.k - 1 := by
  obtain ⟨t, h1, h2⟩ := exists_next (f := fun t => !t.err)
    (o := exec .build (withTable [(0x61, 1), (0x62, 1), (0x63, 2), (0x64, 4)])) (by decide +kernel)
  exact ⟨_, t, by unfold Accepts; decide +kernel, h1, by simpa using h2, by decide +kernel⟩

theorem witness_BuildMergesTheTwoLowest : ∃ s t : State, Accepts s ∧ exec .build s = .next t ∧ t.err = false ∧
    ∃ (i : NodeRef) (nd : Node), i.toNat < t.nnode.toNat ∧ t.nodeAt i = some nd ∧ nd.kind = .internal ∧
      ∃ j : NodeRef, j.toNat < i.toNat ∧ j ≠ nd.left ∧ j ≠ nd.right ∧
        ∀ i' : NodeRef, i'.toNat < i.toNat → j ∉ t.childrenOf i' := by
  obtain ⟨s, t, h1, h2, h3, h4, h5, h6, -⟩ := built_witness
  refine ⟨s, t, h1, h2, h3, 4, _, by rw [h5]; decide, h6, rfl, 2, by decide, by decide, by decide, fun i' hi' => ?_⟩
  have hb : t.ft = s.ft ∧ Layout t := by
    rcases exec_cases (by decide) h1 h2 with ⟨u, hu, rfl, -⟩ | ⟨e, u, -, rfl, -⟩
    · obtain ⟨hb, hft, -⟩ := buildBody_built hu
      exact ⟨hft, .congr (s := u) rfl rfl rfl hb.layout⟩
    · simp at h3
  intro hm
  obtain ⟨e, -, he⟩ := hb.2.leaf_of_lt (j := i') (by rw [k_congr hb.1, h4]; exact hi')
  simp [State.childrenOf, he, leafNode] at hm

theorem witness_BuildOfOneSymbol : Accepts (withTable [(0x7A, 5)]) ∧ tableEntries (withTable [(0x7A, 5)]).ft = [(0x7A, 5)] := by
  unfold Accepts; decide +kernel

theorem witness_BuildDependsOnTableAndParameterOnly : ∃ s s' t t' : State, Accepts s ∧ Accepts s' ∧ s.ft = s'.ft ∧
    s.eqInternal = s'.eqInternal ∧ exec .build s = .next t ∧ exec .build s' = .next t' ∧ t.err = false ∧
    (0 : NodeRef).toNat < t.nnode.toNat := by
  obtain ⟨s, t, h1, h2, h3, -, h5, -⟩ := built_witness
  exact ⟨s, s, t, t, h1, h1, rfl, rfl, h2, h2, h3, by rw [h5]; decide⟩

/-- The premises of the clauses of the order, in V12's tree: weights 1 and 2; a Leaf of weight 2 beside Internal nodes of
weight 2; two Leaves of weight 1; two Internal nodes of weight 2. -/
theorem witness_KeyOrderIsStrictAndTotal (eq : EqInternal) : ∃ (s : State) (l l' m i i' : Node), s.eqInternal = eq ∧
    s.nodeAt 0 = some l ∧ s.nodeAt 1 = some l' ∧ s.nodeAt 2 = some m ∧ s.nodeAt 3 = some i ∧ s.nodeAt 4 = some i' ∧
    l.weight.toNat < i.weight.toNat ∧ i.weight = m.weight ∧ i.kind = .internal ∧ m.kind = .leaf ∧
    l.weight = l'.weight ∧ l.kind = .leaf ∧ l'.kind = .leaf ∧ l.sym.toNat < l'.sym.toNat ∧
    i.weight = i'.weight ∧ i'.kind = .internal ∧ (3 : NodeRef).toNat < (4 : NodeRef).toNat := by
  refine ⟨{ start [] with
    eqInternal := eq
    node := ((((State.reset.node.set 0 (leafNode (0x61, 1))).set 1 (leafNode (0x62, 1))).set 2
      (leafNode (0x63, 2))).set 3 (internalNode 2 0 1)).set 4 (internalNode 2 0 1) },
    leafNode (0x61, 1), leafNode (0x62, 1), leafNode (0x63, 2), internalNode 2 0 1, internalNode 2 0 1, rfl, ?_⟩
  cases eq <;> decide +kernel

theorem accepts_aaab (src : List Byte) : Accepts (aaab src) ∧ (aaab src).treev = true ∧ (aaab src).codev = true := by
  have : Accepts (aaab []) ∧ (aaab []).treev = true ∧ (aaab []).codev = true := by unfold Accepts; decide +kernel
  exact this

theorem neverFails_aaab (src : List Byte) : NeverFails (aaab src) := fun a h => by cases h

theorem accepts_zzzzz (src : List Byte) : Accepts (zzzzz src) ∧ (zzzzz src).treev = true := by
  have : Accepts (zzzzz []) ∧ (zzzzz []).treev = true := by unfold Accepts; decide +kernel
  exact this

theorem witness_GencWritesRootPaths : ∃ (s : State) (tr : Tree), Accepts s ∧ s.treev = true ∧ TreeOf s tr :=
  ⟨aaab [], aaabTree, (accepts_aaab []).1, (accepts_aaab []).2.1, aaab_treeOf []⟩

theorem witness_GencOfOneLeaf : Accepts (zzzzz []) ∧ (zzzzz []).treev = true ∧
    (zzzzz []).nodeAt (zzzzz []).root = some (leafNode (0x7A, 5)) ∧ (leafNode (0x7A, 5)).kind = .leaf := by
  unfold Accepts; decide +kernel

theorem witness_CodesArePrefixFree : ∃ (s : State) (tr : Tree), TreeOf s tr ∧ CodesOf s tr ∧ 2 ≤ s.k ∧
    (s.codeAt 0x61).valid = true ∧ (s.codeAt 0x62).valid = true ∧ (0x61 : Byte) ≠ 0x62 :=
  ⟨aaab [], aaabTree, aaab_treeOf [], aaab_codesOf [], by decide +kernel, by decide +kernel, by decide +kernel, by decide⟩

theorem witness_CodeLengthBound : ∃ (s : State) (tr : Tree), TreeOf s tr ∧ CodesOf s tr ∧ (s.codeAt 0x61).valid = true :=
  ⟨aaab [], aaabTree, aaab_treeOf [], aaab_codesOf [], by decide +kernel⟩

theorem witness_HserWritesTheHeader : Accepts (withTable [(0x61, 3)]) ∧ 1 ≤ (withTable [(0x61, 3)]).k ∧
    AnswersOk (withTable [(0x61, 3)]) (1 + 5 * (withTable [(0x61, 3)]).k) := by
  unfold Accepts AnswersOk; decide +kernel

theorem witness_HeaderLayout : 1 ≤ (aaab []).k ∧ (tableEntries (aaab []).ft)[0]? = some (0x61, 3) ∧
    (tableEntries (aaab []).ft)[1]? = some (0x62, 1) := by decide +kernel

theorem witness_HserWriteFailureFaults : ∃ s s' : State, Accepts s ∧ 1 ≤ s.k ∧ 0 < 1 + 5 * s.k ∧
    s.answers = List.replicate 0 .ok ++ .fail :: [] ∧ Accepts s' ∧ 1 ≤ s'.k ∧ 10 < 1 + 5 * s'.k ∧
    s'.answers = List.replicate 10 .ok ++ .fail :: [] := by
  refine ⟨{ aaab [] with answers := [.fail] }, { aaab [] with answers := List.replicate 10 .ok ++ [.fail] }, ?_⟩
  unfold Accepts; decide +kernel

theorem witness_HdesOfEmptySource : Accepts (aaab []) ∧ (aaab []).unread = [] ∧ AnswersOk (aaab []) 1 := by
  unfold Accepts AnswersOk; decide +kernel

theorem witness_HdesReadsTheHeader : ∃ (s : State) (rest : List Byte), Accepts s ∧ s.unread = 0x00 :: rest ∧
    5 * ((0x00 : Byte).toNat + 1) ≤ rest.length ∧ AnswersOk s (1 + 5 * ((0x00 : Byte).toNat + 1)) := by
  refine ⟨start [0x00, 0x61, 0, 0, 0, 3], [0x61, 0, 0, 0, 3], ?_⟩
  unfold Accepts AnswersOk; decide +kernel

theorem witness_HdesShortHeaderFaults : ∃ s : State, Accepts s ∧ s.unread = 0x00 :: [0x61, 0, 0, 0] ∧
    [(0x61 : Byte), 0, 0, 0].length < 5 * ((0x00 : Byte).toNat + 1) ∧ AnswersOk s ([(0x61 : Byte), 0, 0, 0].length + 2) := by
  refine ⟨start [0x00, 0x61, 0, 0, 0], ?_⟩
  unfold Accepts AnswersOk; decide +kernel

theorem witness_HeaderRoundTrip : ∃ s t s' : State, Accepts s ∧ exec .hser s = .next t ∧ t.err = false ∧
    t.snk = s.snk ++ headerBytes s.ft ∧ Accepts s' ∧ s'.src = headerBytes s.ft ++ [0xE0] ∧ s'.srcPos = 0 ∧
    AnswersOk s' (headerBytes s.ft).length := by
  obtain ⟨t, h1, h2⟩ := exists_next (f := fun t => !t.err && (t.snk == headerBytes (aaab []).ft)) (o := exec .hser (aaab []))
    (by decide +kernel)
  simp only [Bool.and_eq_true, Bool.not_eq_true', beq_iff_eq] at h2
  refine ⟨aaab [], t, start (headerBytes (aaab []).ft ++ [0xE0]), (accepts_aaab []).1, h1, h2.1, h2.2, ?_⟩
  unfold Accepts AnswersOk; decide +kernel

theorem witness_BitWriterShiftsAndPads : (start []).nbits.toNat < 8 ∧ (start []).nbits = 0 ∧
    State.nbits { start [] with nbits := 7, acc := 0x55 } = 7 ∧
    State.answer { start [] with nbits := 7, acc := 0x55 } = .ok := by decide +kernel

theorem witness_PackAppendsTheBitStream : ∃ s : State, Accepts s ∧ s.codev = true ∧ s.srcPos ≤ s.src.length ∧
    (∀ b ∈ s.unread, (s.codeAt b).valid = true) ∧
    AnswersOk s (s.unread.length + 1 + ((s.unread.flatMap fun b => (s.codeAt b).path).length + 7) / 8) ∧ s.unread ≠ [] := by
  refine ⟨aaab [0x61, 0x62], ?_⟩
  unfold Accepts AnswersOk; decide +kernel

theorem witness_PackWithoutCodeFaults : ∃ s : State, Accepts s ∧ s.codev = true ∧
    s.unread = [0x61] ++ 0x63 :: [0x62] ∧ (∀ c ∈ [(0x61 : Byte)], (s.codeAt c).valid = true) ∧
    (s.codeAt 0x63).valid = false ∧
    AnswersOk s ([(0x61 : Byte)].length + 1 + ([(0x61 : Byte)].flatMap fun c => (s.codeAt c).path).length / 8) := by
  refine ⟨aaab [0x61, 0x63, 0x62], ?_⟩
  unfold Accepts AnswersOk; decide +kernel

theorem witness_UnpackOfOneLeaf : Accepts (zzzzz [0xFF]) ∧ (zzzzz [0xFF]).treev = true ∧
    (zzzzz [0xFF]).nodeAt (zzzzz [0xFF]).root = some (leafNode (0x7A, 5)) ∧ (leafNode (0x7A, 5)).kind = .leaf ∧
    AnswersOk (zzzzz [0xFF]) (zzzzz [0xFF]).total.toNat := by unfold Accepts AnswersOk; decide +kernel

theorem witness_UnpackEmitsTheEncodedSymbols :
    ∃ (s : State) (tr : Tree) (coded : List (Byte × List Bool)) (more : List Bool),
      Accepts s ∧ s.treev = true ∧ TreeOf s tr ∧ 2 ≤ s.k ∧ (∀ e ∈ coded, e ∈ tr.codes) ∧
      coded.length = s.total.toNat ∧ bitsOf s.unread = (coded.flatMap Prod.snd) ++ more ∧
      AnswersOk s (((coded.flatMap Prod.snd).length + 7) / 8 + s.total.toNat) :=
  ⟨aaab [0xE0], aaabTree, [(0x61, [true]), (0x61, [true]), (0x61, [true]), (0x62, [false])], [false, false, false, false],
    (accepts_aaab _).1, (accepts_aaab _).2.1, aaab_treeOf _, by decide +kernel, by decide, by decide +kernel,
    by decide +kernel, (neverFails_aaab _).answersOk _⟩

theorem witness_UnpackTruncatedFaults :
    ∃ (s : State) (tr : Tree) (coded : List (Byte × List Bool)) (part : List Bool),
      Accepts s ∧ s.treev = true ∧ TreeOf s tr ∧ 2 ≤ s.k ∧ (∀ e ∈ coded, e ∈ tr.codes) ∧
      coded.length < s.total.toNat ∧ bitsOf s.unread = (coded.flatMap Prod.snd) ++ part ∧
      (∀ e ∈ tr.codes, ¬ e.2 <+: part) ∧ AnswersOk s (s.unread.length + 1 + coded.length) :=
  ⟨aaab [], aaabTree, [], [], (accepts_aaab _).1, (accepts_aaab _).2.1, aaab_treeOf _, by decide +kernel, by decide,
    by decide +kernel, by decide +kernel, by decide, (neverFails_aaab _).answersOk _⟩

theorem witness_AbsentChildFaults : Accepts (broken [0x00]) ∧ (broken [0x00]).treev = true ∧
    (broken [0x00]).nodeAt (broken [0x00]).root = some (internalNode 4 nil 0) ∧
    (internalNode 4 nil 0).kind = .internal ∧ (internalNode 4 nil 0).left = 511 ∧ (broken [0x00]).total ≠ 0 ∧
    (broken [0x00]).unread = 0x00 :: [] ∧ AnswersOk (broken [0x00]) 1 ∧
    (if (0x00 : Byte).getLsbD 7 then (internalNode 4 nil 0).right else (internalNode 4 nil 0).left) = 511 := by
  unfold Accepts AnswersOk; decide +kernel

theorem witness_EncodeEqualsItsParts :
    (∃ s u : State, Accepts s ∧ execAll [.rewind, .fclr, .fcnt] s = .next u ∧ u.err = false ∧ u.k = 0) ∧
    ∃ s u t : State, Accepts s ∧ execAll [.rewind, .fclr, .fcnt] s = .next u ∧ u.err = false ∧ u.k ≠ 0 ∧
      execAll [.build, .genc, .hser, .rewind, .pack] u = .next t ∧ t.err = false := by
  constructor
  · obtain ⟨u, h1, h2⟩ := exists_next (f := fun u => !u.err && (u.k == 0)) (o := execAll [.rewind, .fclr, .fcnt] (start []))
      (by decide +kernel)
    simp only [Bool.and_eq_true, Bool.not_eq_true', beq_iff_eq] at h2
    exact ⟨_, u, by unfold Accepts; decide +kernel, h1, h2⟩
  · obtain ⟨u, h1, h2⟩ := exists_next (f := fun u => !u.err && (u.k == 1) &&
        (seen (fun t => !t.err) (execAll [.build, .genc, .hser, .rewind, .pack] u) == some true))
      (o := execAll [.rewind, .fclr, .fcnt] (start [0x61])) (by decide +kernel)
    simp only [Bool.and_eq_true, Bool.not_eq_true', beq_iff_eq] at h2
    obtain ⟨t, h3, h4⟩ := exists_next h2.2
    exact ⟨_, u, t, by unfold Accepts; decide +kernel, h1, h2.1.1, by omega, h3, by simpa using h4⟩

theorem witness_DecodeEqualsItsParts :
    (∃ s u : State, Accepts s ∧ exec .hdes s = .next u ∧ u.err = false ∧ u.k = 0) ∧
    ∃ s u t : State, Accepts s ∧ exec .hdes s = .next u ∧ u.err = false ∧ u.k ≠ 0 ∧
      execAll [.build, .unpack] u = .next t ∧ t.err = false := by
  constructor
  · obtain ⟨u, h1, h2⟩ := exists_next (f := fun u => !u.err && (u.k == 0)) (o := exec .hdes (start [])) (by decide +kernel)
    simp only [Bool.and_eq_true, Bool.not_eq_true', beq_iff_eq] at h2
    exact ⟨_, u, by unfold Accepts; decide +kernel, h1, h2⟩
  · obtain ⟨u, h1, h2⟩ := exists_next (f := fun u => !u.err && (u.k == 1) &&
        (seen (fun t => !t.err) (execAll [.build, .unpack] u) == some true))
      (o := exec .hdes (start [0x00, 0x7A, 0, 0, 0, 5])) (by decide +kernel)
    simp only [Bool.and_eq_true, Bool.not_eq_true', beq_iff_eq] at h2
    obtain ⟨t, h3, h4⟩ := exists_next h2.2
    exact ⟨_, u, t, by unfold Accepts; decide +kernel, h1, h2.1.1, by omega, h3, by simpa using h4⟩

theorem witness_EncodeWritesTheFile : Accepts (start [0x61]) ∧ ReservedZero (start [0x61]) ∧ (start [0x61]).src ≠ [] ∧
    (start [0x61]).src.length ≤ Config.maxCount ∧ NeverFails (start [0x61]) := by
  unfold Accepts ReservedZero NeverFails; decide +kernel

theorem witness_DecodeReadsTheFile :
    ∃ (s t w : State) (tr : Tree) (coded : List (Byte × List Bool)) (bytes : List Byte) (more : List Bool),
      Accepts s ∧ exec .build s = .next t ∧ t.err = false ∧ TreeOf t tr ∧ 2 ≤ s.k ∧
      Accepts w ∧ NeverFails w ∧ w.eqInternal = s.eqInternal ∧ w.unread = headerBytes s.ft ++ bytes ∧
      (∀ e ∈ coded, e ∈ tr.codes) ∧ coded.length = s.totalFT ∧ bitsOf bytes = coded.flatMap Prod.snd ++ more := by
  obtain ⟨s, t, h1, h2, h3, hk, -, -, heq⟩ := built_witness
  obtain ⟨tr, htr⟩ : ∃ tr, TreeOf t tr := by
    rcases exec_cases (by decide) h1 h2 with ⟨u, hu, rfl, -⟩ | ⟨e, u, -, rfl, -⟩
    · obtain ⟨tr, htr⟩ := (buildBody_built hu).1.tree
      exact ⟨tr, .congr (s := u) ⟨rfl, rfl, rfl, rfl, rfl⟩ htr⟩
    · simp at h3
  obtain ⟨e, he⟩ := List.exists_mem_of_ne_nil _ tr.codes_ne_nil
  obtain ⟨pad, hpad⟩ := bitsOf_packedBytes _ ((List.replicate s.totalFT e).flatMap Prod.snd) (Nat.le_refl _)
  refine ⟨s, t, { src := headerBytes s.ft ++ packedBytes ((List.replicate s.totalFT e).flatMap Prod.snd), __ := start [] },
    tr, List.replicate s.totalFT e, _, pad, h1, h2, h3, htr, by omega,
    ⟨(by decide : BitVec.getLsbD 0x00#8 0 = false), (by decide : BitVec.getLsbD 0x00#8 1 = false)⟩,
    (fun a h => by cases h), heq.symm, rfl, fun e' he' => ?_, by simp, hpad⟩
  rw [List.eq_of_mem_replicate he']
  exact he

theorem witness_EmptyInputCompletes : Accepts (start []) ∧ (start []).src = [] ∧ (start []).unread = [] ∧
    AnswersOk (start []) 2 ∧ ∃ s : State, Accepts s ∧ s.unread = 0x00 :: [0x61, 0, 0, 0, 0] ∧
      5 * ((0x00 : Byte).toNat + 1) ≤ [(0x61 : Byte), 0, 0, 0, 0].length ∧
      AnswersOk s (1 + 5 * ((0x00 : Byte).toNat + 1)) ∧
      ∀ e ∈ recordsIn ([(0x61 : Byte), 0, 0, 0, 0].take (5 * ((0x00 : Byte).toNat + 1))), e.2 = 0 := by
  refine ⟨by unfold Accepts; decide +kernel, rfl, rfl, by unfold AnswersOk; decide +kernel,
    start [0x00, 0x61, 0, 0, 0, 0], by unfold Accepts; decide +kernel, by decide +kernel, by decide,
    by unfold AnswersOk; decide +kernel, ?_⟩
  simp [recordsIn]

theorem witness_EncodeThenDecodeIsIdentity : ∀ S ∈ [([] : List Byte), [0x61, 0x62]], ∃ s t s' : State, Accepts s ∧ s.src = S ∧
    s.snk = [] ∧ s.src.length ≤ Config.maxCount ∧ exec .encode s = .next t ∧ t.err = false ∧ Accepts s' ∧ s'.src = t.snk ∧
    s'.srcPos = 0 ∧ s'.snk = [] ∧ s'.eqInternal = s.eqInternal ∧ AnswersOk s' (t.snk.length + s.src.length + 1) := by
  intro S hS
  obtain ⟨t, h1, h2⟩ := exists_next (f := fun t => !t.err) (o := exec .encode (start S)) (by revert S; decide +kernel)
  refine ⟨start S, t, { src := t.snk, __ := start [] }, ⟨?_, ?_⟩, rfl, rfl, by clear h1; revert S; decide, h1, by simpa using h2, ⟨?_, ?_⟩,
    rfl, rfl, rfl, rfl, fun a h => by simp [start, State.reset] at h⟩
  · exact (by decide : BitVec.getLsbD 0x00#8 0 = false)
  · exact (by decide : BitVec.getLsbD 0x00#8 1 = false)
  · exact (by decide : BitVec.getLsbD 0x00#8 0 = false)
  · exact (by decide : BitVec.getLsbD 0x00#8 1 = false)

theorem witness_RepeatedByteRoundTrip : ∃ s s' : State, Accepts s ∧ Accepts s' ∧ 1 ≤ 300 ∧ 300 ≤ Config.maxCount ∧
    s.src = List.replicate 300 0xFF ∧ NeverFails s ∧ NeverFails s' ∧ s'.srcPos = 0 ∧
    s'.src = 0x00 :: 0xFF :: BitVec.ofNat 8 (300 / 2 ^ 24) :: BitVec.ofNat 8 (300 / 2 ^ 16) ::
      BitVec.ofNat 8 (300 / 2 ^ 8) :: BitVec.ofNat 8 300 :: [0xFF] :=
  ⟨{ src := List.replicate 300 0xFF, __ := start [] }, start [0x00, 0xFF, 0, 0, 1, 44, 0xFF],
    ⟨by decide +kernel, by decide +kernel⟩, ⟨by decide +kernel, by decide +kernel⟩, by decide, by decide, rfl,
    (fun a h => by cases h), (fun a h => by cases h), rfl, by decide +kernel⟩

theorem witness_FaultStateRefusesCommands : ∃ s s' t' : State, s.err = true ∧ s.script = [.issue 0x10] ∧
    (0x10 : Byte) ≠ 0x0F ∧ s'.err = true ∧ step s' = .next t' ∧ t'.err = false ∧ Instr.nop ≠ .reset := by
  obtain ⟨t', h1, h2⟩ := exists_next (f := fun t => !t.err)
    (o := step { start [] with status := 0x02, script := [.issue 0x0F] }) (by decide +kernel)
  exact ⟨{ start [] with status := 0x02, script := [.issue 0x10] }, _, t', by decide +kernel, rfl, by decide,
    by decide +kernel, h1, by simpa using h2, by decide⟩

theorem witness_OnlyResetLeavesTheFaultState : ∃ s t s' t' : State, s.err = true ∧ step s = .next t ∧
    t.status = s.status ∧ s'.err = true ∧ step s' = .next t' ∧ s'.script = [.issue 0x0F] :=
  ⟨{ start [] with status := 0x02 }, _, { start [] with status := 0x02, script := [.issue 0x0F] }, _,
    by decide +kernel, rfl, rfl, by decide +kernel, rfl, rfl⟩

theorem witness_EveryFaultEntry : ∃ s t : State, Accepts s ∧ exec .build s = .next t ∧ t.err = true :=
  (exists_next (f := fun t => t.err) (o := exec .build (start [])) (by decide +kernel)).elim fun t h =>
    ⟨_, t, by unfold Accepts; decide +kernel, h.1, h.2⟩

theorem witness_CompletedCommandFrames : ∃ s t : State, Accepts s ∧ exec .nop s = .next t ∧ t.err = false ∧
    Instr.nop ∉ [Instr.fclr, .fcnt, .hdes, .encode, .decode, .reset] ∧
    Instr.nop ∉ [Instr.build, .encode, .decode, .reset] ∧ Instr.nop ∉ [Instr.genc, .encode, .reset] ∧
    Instr.nop ∉ [Instr.pack, .encode, .reset] ∧ Instr.nop ∉ [Instr.unpack, .decode, .reset] ∧
    Instr.nop ∉ [Instr.fcnt, .hdes, .pack, .unpack, .rewind, .encode, .decode] ∧
    Instr.nop ∉ [Instr.hser, .pack, .unpack, .encode, .decode] :=
  (exists_next (f := fun t => !t.err) (o := exec .nop (start [])) (by decide +kernel)).elim fun t h =>
    ⟨_, t, by unfold Accepts; decide +kernel, h.1, by simpa using h.2, by decide⟩

theorem witness_SurroundingsAreKept : ∃ s t : State, exec .build s = .next t :=
  (exists_next (f := fun _ => true) (o := exec .build (start [])) (by decide +kernel)).elim fun t h => ⟨_, t, h.1⟩

theorem witness_TableWritesDropTheFlags : ∃ s t : State, Accepts s ∧ exec .fclr s = .next t ∧ t.err = false ∧
    t.ft ≠ s.ft := by
  obtain ⟨t, h1, h2⟩ := exists_next (f := fun t => !t.err && (t.ftAt 0x61 == 0)) (o := exec .fclr (aaab []))
    (by decide +kernel)
  simp only [Bool.and_eq_true, Bool.not_eq_true', beq_iff_eq] at h2
  refine ⟨_, t, (accepts_aaab []).1, h1, h2.1, fun h => ?_⟩
  have := ftAt_congr h 0x61
  rw [h2.2] at this
  exact absurd this (by decide +kernel)

theorem witness_WalkFaultIsUnreachable : ∃ s t : State, TreeInv s ∧ Accepts s ∧ exec .build s = .next t ∧ t.err = true :=
  (exists_next (f := fun t => t.err) (o := exec .build (start [])) (by decide +kernel)).elim fun t h =>
    ⟨_, t, start_inv.tree, by unfold Accepts; decide +kernel, h.1, h.2⟩

theorem witness_EveryCommandEnds : ∃ s : State, TreeInv s ∧ IoAnswer.never ∉ s.answers ∧ s.treev = true :=
  ⟨aaab [], fun _ => ⟨aaabTree, aaab_treeOf []⟩, by decide +kernel, by decide +kernel⟩

theorem witness_FirstAccessFailedOrUnanswered (a : IoAnswer) : ∃ s s' : State, Accepts s ∧ s.answer = a ∧ 1 ≤ s.k ∧
    s.codev = true ∧ s.treev = true ∧ s.total ≠ 0 ∧ s.nodeAt s.root = some (internalNode 4 1 0) ∧
    Accepts s' ∧ s'.answer = a ∧ s'.treev = true ∧ s'.total ≠ 0 ∧ s'.nodeAt s'.root = some (leafNode (0x7A, 5)) := by
  refine ⟨{ aaab [] with answers := [a] }, { zzzzz [] with answers := [a] }, ?_⟩
  unfold Accepts
  cases a <;> decide +kernel

theorem witness_StepKeepsTheRegisters : ∃ s t : State, RegistersOk s ∧ step s = .next t :=
  ⟨start [], _, start_inv.registers, rfl⟩

theorem witness_StepKeepsTheTree : ∃ s t : State, TreeInv s ∧ s.treev = true ∧ step s = .next t :=
  ⟨aaab [], _, fun _ => ⟨aaabTree, aaab_treeOf []⟩, by decide +kernel, rfl⟩

theorem witness_StepKeepsTheInvariant : ∃ s t : State, Inv s ∧ step s = .next t := ⟨start [], _, start_inv, rfl⟩

end Sys2Proof.Tests
end

section
/-! Proofs of the statements of the scope (00_scope.md): the order on nodes is a strict total one (R8), commands leave
their surroundings alone (R8), and every command ends unless the environment never answers (R12). -/

namespace Sys2Proof.Machine

/-! ### The order on nodes (R132) -/

/-- `before` on two nodes, component by component of their keys. -/
theorem before_iff {s : State} {i j : NodeRef} {a b : Node} (ha : s.nodeAt i = some a) (hb : s.nodeAt j = some b) :
    s.before i j = true ↔ a.weight.toNat < b.weight.toNat ∨ a.weight.toNat = b.weight.toNat ∧
      (tieBreak a < tieBreak b ∨ tieBreak a = tieBreak b ∧ seqOf s.eqInternal i < seqOf s.eqInternal j) := by
  rw [before_eq ha hb, Key.before_iff]
  rfl

theorem before_of_weight_lt {s : State} {i j : NodeRef} {a b : Node} (ha : s.nodeAt i = some a)
    (hb : s.nodeAt j = some b) (h : a.weight.toNat < b.weight.toNat) : s.before i j = true :=
  (before_iff ha hb).mpr (.inl h)

theorem before_of_tieBreak_lt {s : State} {i j : NodeRef} {a b : Node} (ha : s.nodeAt i = some a)
    (hb : s.nodeAt j = some b) (hw : a.weight = b.weight) (h : tieBreak a < tieBreak b) : s.before i j = true :=
  (before_iff ha hb).mpr (.inr ⟨congrArg BitVec.toNat hw, .inl h⟩)

/-- Internal nodes of equal weight stand in the order of `seq`: their tie breaks are the same sentinel. -/
theorem before_of_seqOf_lt {s : State} {i j : NodeRef} {a b : Node} (ha : s.nodeAt i = some a)
    (hb : s.nodeAt j = some b) (hw : a.weight = b.weight) (hai : a.kind = .internal) (hbi : b.kind = .internal)
    (h : seqOf s.eqInternal i < seqOf s.eqInternal j) : s.before i j = true :=
  (before_iff ha hb).mpr
    (.inr ⟨congrArg BitVec.toNat hw, .inr ⟨(tieBreak_internal hai).trans (tieBreak_internal hbi).symm, h⟩⟩)

theorem tieBreak_internal_lt_leaf {a b : Node} (ha : a.kind = .internal) (hb : b.kind = .leaf) :
    tieBreak a < tieBreak b := by
  rw [tieBreak_internal ha, tieBreak_leaf hb]
  omega

theorem tieBreak_leaf_lt_leaf {a b : Node} (ha : a.kind = .leaf) (hb : b.kind = .leaf)
    (h : a.sym.toNat < b.sym.toNat) : tieBreak a < tieBreak b := by
  rw [tieBreak_leaf ha, tieBreak_leaf hb]
  exact Int.ofNat_lt.mpr h

theorem seqOf_oldestFirst_lt {i j : NodeRef} (h : i.toNat < j.toNat) :
    seqOf .oldestFirst i < seqOf .oldestFirst j :=
  Int.ofNat_lt.mpr h

theorem seqOf_newestFirst_lt {i j : NodeRef} (h : i.toNat < j.toNat) :
    seqOf .newestFirst j < seqOf .newestFirst i :=
  Int.neg_lt_neg (Int.ofNat_lt.mpr h)

/-- Settles O22: the laws of the lexicographic order on keys, then one clause per component that decides. -/
theorem keyOrderIsStrictAndTotal : Obligations.KeyOrderIsStrictAndTotal := by
  intro s i j a b ha hb
  refine ⟨before_irrefl s i, before_total ha hb, fun l => before_trans, before_of_weight_lt ha hb, ?_, ?_, ?_⟩
  · intro hw hai hbl
    exact before_of_tieBreak_lt ha hb hw (tieBreak_internal_lt_leaf hai hbl)
  · intro hw hal hbl hsym
    exact before_of_tieBreak_lt ha hb hw (tieBreak_leaf_lt_leaf hal hbl hsym)
  · intro hw hai hbi hlt
    constructor
    · intro he
      exact before_of_seqOf_lt ha hb hw hai hbi (he ▸ seqOf_oldestFirst_lt hlt)
    · intro he
      exact before_of_seqOf_lt hb ha hw.symm hbi hai (he ▸ seqOf_newestFirst_lt hlt)

/-! ### Surroundings (R38, R39, R241) -/

theorem SameSurroundings.refl (s : State) : SameSurroundings s s := ⟨rfl, rfl, rfl⟩

/-- What a body leaves alone from the prologue on, the command leaves alone: the prologue writes `BUSY` only (R235). -/
theorem Outside.sameSurroundings {ps : List Part} {s u : State} (h : Outside ps (s.setBusy true) u) :
    SameSurroundings s u := ⟨h.src, h.eqInternal, h.script⟩

/-- A fault keeps the bytes the sink had when the command was accepted (R241). -/
theorem faultEntry_keeps_sink (s u : State) (e : Err) : s.snk <+: (faultEntry s e u).snk :=
  List.prefix_append _ _

/-- An accepted command, completing or faulting, keeps its surroundings. -/
theorem surroundings_kept_of_accepted {i : Instr} {s t : State} (hr : i ≠ .reset) (ha : Accepts s)
    (h : exec i s = .next t) : SameSurroundings s t ∧ s.snk <+: t.snk := by
  rcases exec_cases hr ha h with ⟨u, -, rfl, ho⟩ | ⟨e, u, -, rfl, ho⟩
  · exact ⟨ho.sameSurroundings, ho.sink⟩
  · exact ⟨ho.sameSurroundings, faultEntry_keeps_sink s u e⟩

/-- `RESET` ends in every state: without effect while `BUSY` is 1 (R101), else in the reset engine (R217). -/
theorem exec_reset_cases (s : State) : exec .reset s = .next s ∨ exec .reset s = .next (resetEngine s) := by
  cases hb : s.busy with
  | true => exact .inl (by simp [exec, execReset, hb])
  | false => exact .inr (exec_reset hb)

/-- Settles O52: by `RESET`, the refused commands, and what an accepted command can do. -/
theorem surroundingsAreKept : Obligations.SurroundingsAreKept := by
  intro i s t h
  by_cases hr : i = .reset
  · subst hr
    rcases exec_reset_cases s with h' | h' <;> rw [h'] at h <;> cases h
    · exact ⟨.refl s, List.prefix_rfl⟩
    · exact ⟨⟨rfl, rfl, rfl⟩, List.prefix_rfl⟩
  · by_cases ha : Accepts s
    · exact surroundings_kept_of_accepted hr ha h
    · rw [exec_refused hr ha] at h
      cases h
      exact ⟨.refl s, List.prefix_rfl⟩

/-! ### Every command ends (R12, R273) -/

/-- A flow that can be stuck only for want of an answer is not stuck where every answer comes. -/
theorem Flow.not_stuck {s : State} {f : Flow} {P : State → Prop} (hs : f.Sound P) (hd : f.Draws s)
    (hn : IoAnswer.never ∉ s.answers) (r : Fault) : f ≠ .stuck r := by
  rintro rfl
  exact hn (hd hs)

theorem TreeInv.setBusy {s : State} (h : TreeInv s) (b : Bool) : TreeInv (s.setBusy b) := by
  intro hv
  obtain ⟨tr, htr⟩ := h ((setBusy_treev s b).symm.trans hv)
  exact ⟨tr, TreeOf.congr (s := s) ⟨rfl, rfl, rfl, rfl, rfl⟩ htr⟩

/-- Settles O55: no command is stuck but for want of an answer, and no answer is wanting. -/
theorem everyCommandEnds : Obligations.EveryCommandEnds := by
  intro i s hinv hn
  by_cases hr : i = .reset
  · subst hr
    exact (exec_reset_cases s).elim (fun h => ⟨_, h⟩) fun h => ⟨_, h⟩
  · by_cases ha : Accepts s
    · rw [exec_eq hr]
      rcases runCommand_cases (body := bodyOf i) ha with ⟨u, -, h⟩ | ⟨e, u, -, h⟩ | ⟨r, hstuck, -⟩
      · exact ⟨_, h⟩
      · exact ⟨_, h⟩
      · have hsound := bodyOf_sound i (hinv.setBusy true)
        exact absurd hstuck (Flow.not_stuck hsound (bodyOf_draws hr _) hn r)
    · exact ⟨s, exec_refused hr ha⟩

end Sys2Proof.Machine
end

section
/-! Proofs of the statements of the state (10_state.md): the table and its entries (R22), the Code records (R30), the bit
writer's registers (R31, R32), reset (R44), the host's moves (R38, R39, R43), which command writes which register, and
the invariants every step keeps (R28, R35, R36). -/

namespace Sys2Proof.Machine

/-! ### Reset (R44) -/

/-- Settles O9: each value is the one `State.reset` names. -/
theorem resetStateHoldsTheSpecsValues : Obligations.ResetStateHoldsTheSpecsValues := by
  refine ⟨fun b => ?_, rfl, rfl, rfl, fun b => ?_, rfl, rfl, rfl, rfl, rfl, rfl⟩
  · simp [State.ftAt, State.reset]
  · simp [State.codeAt, State.reset, Code.blank]

theorem reset_registersOk : RegistersOk State.reset where
  idle := by decide
  reserved := by unfold ReservedZero; decide
  code_iff := iff_of_true rfl (by decide)
  code_range := by decide
  fault_status h := absurd h (by decide)
  codev_treev h := absurd h (by decide)
  cursor := Nat.le_refl 0
  writer _ := ⟨rfl, rfl⟩

/-- Settles O60: with both flags 0 only the register invariants say anything. -/
theorem invariantHoldsAtReset : Obligations.InvariantHoldsAtReset where
  registers := reset_registersOk
  tree h := absurd h (by decide)
  codes h := absurd h (by decide)

/-! ### The table (R22) -/

theorem ft_toList (s : State) : s.ft.toList = (List.range 256).map fun n => s.ftAt (BitVec.ofNat 8 n) := by
  apply List.ext_getElem
  · simp
  · intro n h1 h2
    have hn : n < 256 := by simpa using h2
    simp [State.ftAt, Nat.mod_eq_of_lt hn]

/-- `k(FT)` counts the symbols whose count is not 0. -/
theorem k_eq_count (s : State) :
    s.k = ((List.range 256).filter fun n => decide (s.ftAt (BitVec.ofNat 8 n) ≠ 0)).length := by
  rw [State.k, tableEntries, entriesFrom_filter, ft_toList, List.filter_map, List.length_map]
  rfl

/-- `total(FT)` is at most 256 times the greatest count. -/
theorem totalFT_le (s : State) : s.totalFT ≤ 256 * (2 ^ 32 - 1) := by
  have hmax : ∀ c ∈ s.ft.toList.map BitVec.toNat, c ≤ 2 ^ 32 - 1 := by
    intro c hc
    obtain ⟨w, -, rfl⟩ := List.mem_map.mp hc
    have := w.isLt
    omega
  simpa [State.totalFT] using List.sum_le_card_nsmul _ _ hmax

/-- Settles O10: the laws of `tableEntries`, clause by clause. -/
theorem tableEntriesAreTheNonzeroCounts : Obligations.TableEntriesAreTheNonzeroCounts := fun s =>
  ⟨fun _ => mem_tableEntries, tableEntries_ascending s.ft, k_eq_count s, k_le s, k_eq_zero, totalFT_eq_sum s,
    totalFT_le s⟩

/-! ### Codes (R30, R155) -/

/-- A Leaf is at most `k - 1` deep (R155). -/
theorem TreeOf.depth_lt {s : State} {tr : Tree} (h : TreeOf s tr) {e : Byte × List Bool} (he : e ∈ tr.codes) :
    e.2.length < s.k :=
  h.leaves_length ▸ tr.codes_length he

/-- The `len` field of a Leaf's Code does not wrap: it is the Leaf's depth. -/
theorem CodesOf.len_eq {s : State} {tr : Tree} (h : TreeOf s tr) (hc : CodesOf s tr) {e : Byte × List Bool}
    (he : e ∈ tr.codes) : (s.codeAt e.1).len.toNat = e.2.length := by
  have hlt := h.depth_lt he
  have hk := k_le s
  rw [hc.paths e he, BitVec.toNat_ofNat, Nat.mod_eq_of_lt (by omega)]

/-- A valid Code is that of a Leaf. -/
theorem CodesOf.leaf_of_valid {s : State} {tr : Tree} (h : TreeOf s tr) (hc : CodesOf s tr) {b : Byte}
    (hb : (s.codeAt b).valid = true) : ∃ e ∈ tr.codes, e.1 = b :=
  List.mem_map.mp ((mem_codes_symbols h.leaves b).mpr ((hc.valid b).mp hb))

/-- Settles O26: a valid Code is a Leaf's root path, whose length the number of Leaves bounds. -/
theorem codeLengthBound : Obligations.CodeLengthBound := by
  intro s tr h hc
  refine ⟨fun e he => hc.len_eq h he, fun b hb => ?_⟩
  obtain ⟨e, he, rfl⟩ := hc.leaf_of_valid h hb
  have hlen := hc.len_eq h he
  have hlt := h.depth_lt he
  have hk := k_le s
  have hbits : (s.codeAt e.1).bits = e.2 := by rw [hc.paths e he]
  refine ⟨by omega, by unfold Config.maxCodeLen; omega, ?_⟩
  rw [hbits, hlen]

/-! ### The bit writer's registers (R31, R32, R176, R178) -/

theorem emitAcc_ok {s : State} (ha : s.answer = .ok) :
    emitAcc s = .done { s with acc := 0, nbits := 0, snk := s.snk ++ [s.acc], answers := s.answers.tail } := by
  rw [emitAcc, snkWrite_ok _ ha]
  rfl

theorem putBit_of_ne {s : State} (bit : Bool) (h : s.nbits ≠ 7) : putBit bit s = .done (s.shiftBit bit) :=
  if_neg fun h8 => h (by rw [shiftBit_nbits] at h8; bv_omega)

theorem putBit_of_eq {s : State} (bit : Bool) (h : s.nbits = 7) : putBit bit s = emitAcc (s.shiftBit bit) :=
  if_pos (by simp [h])

theorem flushBits_of_zero {s : State} (h : s.nbits = 0) : flushBits s = .done s := if_pos h

theorem flushBits_of_ne {s : State} (h : s.nbits ≠ 0) :
    flushBits s = emitAcc { s with acc := padOut s.acc s.nbits } := if_neg h

/-- The held bits stand at the top of the padded byte (R178). -/
theorem getLsbD_padOut_held {acc : Byte} {nbits : BitVec 4} {i : Nat} (hn : nbits.toNat < 8) (hi : i < nbits.toNat) :
    (padOut acc nbits).getLsbD (8 - nbits.toNat + i) = acc.getLsbD i := by
  have hlt : 8 - nbits.toNat + i < 8 := by omega
  have hge : ¬ 8 - nbits.toNat + i < 8 - nbits.toNat := by omega
  simp only [padOut, BitVec.getLsbD_shiftLeft, hlt, hge, decide_true, decide_false, Bool.not_false, Bool.true_and,
    Nat.add_sub_cancel_left]

/-- Below the held bits the padded byte is 0 (R178). -/
theorem getLsbD_padOut_pad (acc : Byte) {nbits : BitVec 4} {i : Nat} (hi : i < 8 - nbits.toNat) :
    (padOut acc nbits).getLsbD i = false := by
  simp [padOut, hi]

/-- Settles O34: one clause per branch of `PutBit` and `FlushBits`. -/
theorem bitWriterShiftsAndPads : Obligations.BitWriterShiftsAndPads := by
  intro s bit hn
  refine ⟨getLsbD_shiftIn _ _ 0 (by decide), fun i hi => getLsbD_shiftIn _ _ (i + 1) (by omega),
    putBit_of_ne bit, ?_, flushBits_of_zero, ?_⟩
  · intro h7 ha
    rw [putBit_of_eq bit h7, emitAcc_ok (s := s.shiftBit bit) ha]
    rfl
  · intro h0 ha
    refine ⟨padOut s.acc s.nbits, ?_, fun i => getLsbD_padOut_held hn, fun i => getLsbD_padOut_pad s.acc⟩
    rw [flushBits_of_ne h0, emitAcc_ok (s := { s with acc := padOut s.acc s.nbits }) ha]

/-! ### The host's moves (R38, R39, R43, R101) -/

/-- While `BUSY` is 1 no command is accepted (R101). -/
theorem exec_busy (i : Instr) {s : State} (h : s.busy = true) : exec i s = .next s := by
  by_cases hr : i = .reset
  · subst hr
    simp [exec, execReset, h]
  · rw [exec_eq hr, runCommand_not_accepted (.inl h)]

/-- While `BUSY` is 1 a word has no effect, whether it selects a command or not (R101). -/
theorem issueWord_busy (w : Byte) {s : State} (h : s.busy = true) : issueWord w s = .next s := by
  cases hd : decodeWord w with
  | some i => rw [issueWord_of_decode hd, exec_busy i h]
  | none => rw [issueWord_of_undefined hd, illegalWord, runCommand_not_accepted (.inl h)]

theorem bindSource_idle {s : State} (bytes : List Byte) (h : s.busy = false) :
    bindSource bytes s = .next { s with src := bytes, srcPos := 0 } := by simp [bindSource, h]

theorem bindSource_busy {s : State} (bytes : List Byte) (h : s.busy = true) :
    bindSource bytes s = .fault .hostBreach := by simp [bindSource, h]

theorem bindSink_idle {s : State} (h : s.busy = false) : bindSink s = .next { s with snk := [] } := by
  simp [bindSink, h]

theorem bindSink_busy {s : State} (h : s.busy = true) : bindSink s = .fault .hostBreach := by simp [bindSink, h]

theorem readReg_allowed {s : State} {r : HostReg} (h : s.busy = false ∨ r = .status) : readReg r s = .next s := by
  rcases h with h | rfl <;> simp [readReg, mayRead, *]

theorem readReg_busy {s : State} {r : HostReg} (h : s.busy = true) (hr : r ≠ .status) :
    readReg r s = .fault .hostBreach := by simp [readReg, mayRead, h, hr]

/-- Settles O5: the step runs the move at the head of the script, each as its own law says. -/
theorem hostBindsStreamsAndReads : Obligations.HostBindsStreamsAndReads := by
  intro s rest w bytes r
  refine ⟨step_idle, fun h hb => ?_, fun h hb => ?_, fun h hb => ?_, fun h hb => ?_, fun h hb => ?_, fun h hb => ?_,
    fun h hb hr => ?_⟩ <;> rw [step_move h]
  · exact issueWord_busy w (s := { s with script := rest }) hb
  · exact bindSource_idle bytes (s := { s with script := rest }) hb
  · exact bindSink_idle (s := { s with script := rest }) hb
  · exact readReg_allowed (s := { s with script := rest }) hb
  · exact bindSource_busy bytes (s := { s with script := rest }) hb
  · exact bindSink_busy (s := { s with script := rest }) hb
  · exact readReg_busy (s := { s with script := rest }) hb hr

/-! ### The fault state (R242, R243) -/

/-- Every row of the opcode map compares the whole word (R102). -/
theorem opcodeRows_whole : ∀ r ∈ opcodeRows, r.mask = BitVec.allOnes 8 ∧ r.word = encodeWord r.instr := by decide

/-- A word that selects a command is its opcode. -/
theorem eq_encodeWord_of_decodeWord {w : Byte} {i : Instr} (h : decodeWord w = some i) : w = encodeWord i := by
  obtain ⟨r, hr, rfl⟩ := Option.map_eq_some_iff.mp h
  obtain ⟨hmask, hword⟩ := opcodeRows_whole r (List.mem_of_find?_eq_some hr)
  have hsel := List.find?_some hr
  rwa [hmask, BitVec.and_allOnes, beq_iff_eq, hword] at hsel

/-- In the fault state a command but `RESET` is refused (R242). -/
theorem exec_fault_state {i : Instr} {s : State} (hr : i ≠ .reset) (h : s.err = true) : exec i s = .next s :=
  exec_refused hr fun ha => by simp [ha.2] at h

/-- Settles O49: a move but `0x0F` is refused or touches no engine register. -/
theorem onlyResetLeavesTheFaultState : Obligations.OnlyResetLeavesTheFaultState := by
  intro s t herr hstep
  obtain ⟨-, rfl⟩ | ⟨rest, ⟨w, i, hw, hd, hx⟩ | ⟨w, -, -, hx⟩ | ⟨bytes, -, -, rfl⟩ | ⟨-, -, rfl⟩ | ⟨r, -, rfl⟩⟩ :=
    step_cases hstep
  · exact .inl ⟨rfl, rfl⟩
  · by_cases hr : i = .reset
    · rw [eq_encodeWord_of_decodeWord hd, hr] at hw
      exact .inr ⟨rest, hw⟩
    · rw [exec_fault_state (s := { s with script := rest }) hr herr] at hx
      cases hx
      exact .inl ⟨rfl, rfl⟩
  · rw [illegalWord, runCommand_not_accepted (s := { s with script := rest }) (.inr herr)] at hx
    cases hx
    exact .inl ⟨rfl, rfl⟩
  · exact .inl ⟨rfl, rfl⟩
  · exact .inl ⟨rfl, rfl⟩
  · exact .inl ⟨rfl, rfl⟩

/-! ### Commands that complete (R235) -/

/-- A command that ends outside the fault state ran its pseudocode to the end. -/
theorem exec_completed {i : Instr} (hr : i ≠ .reset) {s t : State} (ha : Accepts s) (h : exec i s = .next t)
    (he : t.err = false) : ∃ u, bodyOf i (s.setBusy true) = .done u ∧ t = u.setBusy false ∧
      Outside (writes i) (s.setBusy true) u := by
  rcases exec_cases hr ha h with hdone | ⟨e, u, -, rfl, -⟩
  · exact hdone
  · simp at he

theorem TreeOf.setBusy {s : State} {tr : Tree} (h : TreeOf s tr) (b : Bool) : TreeOf (s.setBusy b) tr :=
  TreeOf.congr (s := s) ⟨rfl, rfl, rfl, rfl, rfl⟩ h

/-- Settles O17: `BUILD` runs to its end, which leaves a built tree, and the epilogue writes `BUSY` only. -/
theorem buildMakesTheTreeOfTheTable : Obligations.BuildMakesTheTreeOfTheTable := by
  intro s t ha h he
  obtain ⟨u, hu, rfl, -⟩ := exec_completed (by decide) ha h he
  obtain ⟨tr, htr⟩ := (buildBody_built hu).1.tree
  exact ⟨tr, htr.setBusy false⟩

/-! ### Which command writes which register (R21 to R39) -/

/-- The two writes of `BUSY` around a body touch no part but the flags (R235). -/
theorem Part.Same.of_run {s u : State} {p : Part} (hp : p ≠ .flags) (h : Part.Same (s.setBusy true) u p) :
    Part.Same s (u.setBusy false) p := by
  cases p with
  | flags => exact absurd rfl hp
  | ft => exact h
  | tree => exact h
  | code => exact h
  | writer => exact h
  | reader => exact h
  | cursor => exact h
  | sink => exact h

/-- A command that completes leaves the parts it does not write. -/
theorem completed_same {i : Instr} (hr : i ≠ .reset) {s t : State} (ha : Accepts s) (h : exec i s = .next t)
    (he : t.err = false) {p : Part} (hp : p ≠ .flags) (hw : p ∉ writes i) : Part.Same s t p := by
  obtain ⟨u, -, rfl, ho⟩ := exec_completed hr ha h he
  exact (ho.same p hw).of_run hp

/-- The commands outside the list of a register's writers do not write it; the lists are those of the spec. -/
theorem not_writes (i : Instr) :
    (i ∉ [Instr.fclr, .fcnt, .hdes, .encode, .decode, .reset] → Part.ft ∉ writes i) ∧
    (i ∉ [Instr.build, .encode, .decode, .reset] → Part.tree ∉ writes i) ∧
    (i ∉ [Instr.genc, .encode, .reset] → Part.code ∉ writes i) ∧
    (i ∉ [Instr.pack, .encode, .reset] → Part.writer ∉ writes i) ∧
    (i ∉ [Instr.unpack, .decode, .reset] → Part.reader ∉ writes i) ∧
    (i ∉ [Instr.fcnt, .hdes, .pack, .unpack, .rewind, .encode, .decode] → Part.cursor ∉ writes i) ∧
    (i ∉ [Instr.hser, .pack, .unpack, .encode, .decode] → Part.sink ∉ writes i) := by
  cases i <;> decide

/-- Settles O51: `RESET` touches neither stream; any other command leaves the parts it does not write. -/
theorem completedCommandFrames : Obligations.CompletedCommandFrames := by
  intro i s t ha h he
  by_cases hr : i = .reset
  · subst hr
    rw [exec_reset ha.1] at h
    cases h
    simp
  · have keep : ∀ p : Part, p ≠ .flags → p ∉ writes i → Part.Same s t p := fun p => completed_same hr ha h he
    obtain ⟨hft, htree, hcode, hwriter, hreader, hcursor, hsink⟩ := not_writes i
    refine ⟨fun hi => keep .ft (by decide) (hft hi), fun hi => keep .tree (by decide) (htree hi),
      fun hi => keep .code (by decide) (hcode hi), fun hi => keep .writer (by decide) (hwriter hi),
      fun hi => keep .reader (by decide) (hreader hi), fun hi => keep .cursor (by decide) (hcursor hi),
      fun hi => keep .sink (by decide) (hsink hi), fun _ => ?_⟩
    obtain ⟨u, -, rfl, ho⟩ := exec_completed hr ha h he
    exact ho.errcode

/-! ### The flags (R35, R77) -/

theorem Flow.Sat.ends {f : Flow} {P : State → Prop} (h : f.Sat P) : f.Ends P := by
  cases f with
  | done s => exact h
  | raised e s => trivial
  | stuck r => trivial

/-- Both flags are 0. -/
def FlagsDown (s : State) : Prop := s.treev = false ∧ s.codev = false

theorem FlagsDown.congr {s t : State} (hst : t.status = s.status) (h : FlagsDown s) : FlagsDown t := by
  simpa [FlagsDown, State.treev, State.codev, hst] using h

theorem dropDerived_flagsDown (s : State) : FlagsDown s.dropDerived := ⟨dropDerived_treev s, dropDerived_codev s⟩

/-- What runs after the flags were dropped and does not write them leaves them 0. -/
theorem flagsDown_of_outside {ps : List Part} (hp : Part.flags ∉ ps) {s : State} {f : Flow}
    (h : f.Sat (Outside ps s.dropDerived)) : f.Ends FlagsDown :=
  h.ends.mono fun _ ho => (dropDerived_flagsDown s).congr (ho.same .flags hp)

/-- The single commands that write `FT` drop both flags (R77). -/
theorem tableWriters_drop {i : Instr} (hi : i ∈ [Instr.fclr, .fcnt, .hdes]) (s : State) :
    (bodyOf i s).Ends FlagsDown := by
  simp only [List.mem_cons, List.not_mem_nil, or_false] at hi
  rcases hi with rfl | rfl | rfl
  · exact dropDerived_flagsDown s.clearFt
  · exact flagsDown_of_outside (by decide) (overSource_countByte_outside s.dropDerived)
  · exact flagsDown_of_outside (by decide) (hdesReads_outside s)

/-- `BUILD` leaves `CODEV` 0 (R130). -/
theorem buildBody_codev (s : State) : (buildBody s).Ends fun u => u.codev = false := by
  by_cases hk : s.k = 0
  · rw [buildBody_empty hk]
    trivial
  · rcases buildBody_spec hk with ⟨-, node, nnode, he⟩ | ⟨-, node, nnode, root, total, he, -⟩ <;> rw [he]
    · trivial
    · exact (setTreev_codev _ _).trans (dropDerived_codev s)

/-- Settles O53: a single command that changed `FT` is one of its writers, and those drop the flags. -/
theorem tableWritesDropTheFlags : Obligations.TableWritesDropTheFlags := by
  intro i s t ha h
  constructor
  · intro hne hnd he hft
    by_cases hr : i = .reset
    · subst hr
      rw [exec_reset ha.1] at h
      cases h
      exact ⟨resetEngine_treev s, resetEngine_codev s⟩
    · have hi : i ∈ [Instr.fclr, .fcnt, .hdes] := by
        by_contra hi
        obtain ⟨hw, -⟩ := not_writes i
        exact hft (completed_same hr ha h he (p := .ft) (by decide) (hw (by simp_all)))
      have hdown := tableWriters_drop hi (s.setBusy true)
      obtain ⟨u, hu, rfl, -⟩ := exec_completed hr ha h he
      rw [hu] at hdown
      exact ⟨(setBusy_treev u false).trans hdown.1, (setBusy_codev u false).trans hdown.2⟩
  · rintro rfl
    rcases exec_cases (by decide) ha h with ⟨u, hu, rfl, -⟩ | ⟨e, u, -, rfl, -⟩
    · have hb := buildBody_codev (s.setBusy true)
      change buildBody _ = _ at hu
      rw [hu] at hb
      exact (setBusy_codev u false).trans hb
    · exact faultEntry_codev u s e

/-! ### What every step keeps -/

/-- What makes a predicate an invariant: the host's moves, `RESET`, and the two ends of an accepted command keep it. -/
structure StepInvariant (P : State → Prop) : Prop where
  script : ∀ {s : State} (rest : List HostMove), P s → P { s with script := rest }
  source : ∀ {s : State} (bytes : List Byte), P s → P { s with src := bytes, srcPos := 0 }
  sink : ∀ {s : State}, P s → P { s with snk := [] }
  reset : ∀ {s : State}, P s → P (resetEngine s)
  completed : ∀ {s u : State} {i : Instr}, P s → Accepts s → i ≠ .reset → bodyOf i (s.setBusy true) = .done u →
    Outside (writes i) (s.setBusy true) u → P (u.setBusy false)
  raised : ∀ {s u : State} {ps : List Part} (e : Err), P s → Accepts s → Outside ps (s.setBusy true) u →
    P (faultEntry s e u)

theorem StepInvariant.exec {P : State → Prop} (h : StepInvariant P) {i : Instr} {s t : State} (hs : P s)
    (hx : exec i s = .next t) : P t := by
  by_cases hr : i = .reset
  · subst hr
    rcases exec_reset_cases s with h' | h' <;> rw [h'] at hx <;> cases hx
    · exact hs
    · exact h.reset hs
  · by_cases ha : Accepts s
    · rcases exec_cases hr ha hx with ⟨u, hu, rfl, ho⟩ | ⟨e, u, -, rfl, ho⟩
      · exact h.completed hs ha hr hu ho
      · exact h.raised e hs ha ho
    · rw [exec_refused hr ha] at hx
      cases hx
      exact hs

theorem StepInvariant.illegalWord {P : State → Prop} (h : StepInvariant P) {s t : State} (hs : P s)
    (hx : illegalWord s = .next t) : P t := by
  by_cases ha : Accepts s
  · rw [Machine.illegalWord, runCommand_raised (e := .illCmd) ha rfl] at hx
    cases hx
    exact h.raised .illCmd hs ha (.refl [] _)
  · rw [Machine.illegalWord, runCommand_not_accepted (not_accepts ha)] at hx
    cases hx
    exact hs

/-- An invariant is kept by every step. -/
theorem StepInvariant.step {P : State → Prop} (h : StepInvariant P) {s t : State} (hs : P s)
    (hx : step s = .next t) : P t := by
  obtain ⟨-, rfl⟩ | ⟨rest, ⟨w, i, -, -, hx⟩ | ⟨w, -, -, hx⟩ | ⟨bytes, -, -, rfl⟩ | ⟨-, -, rfl⟩ | ⟨r, -, rfl⟩⟩ :=
    step_cases hx
  · exact hs
  · exact h.exec (h.script rest hs) hx
  · exact h.illegalWord (h.script rest hs) hx
  · exact h.source bytes (h.script rest hs)
  · exact h.sink (h.script rest hs)
  · exact h.script rest hs

/-- A piece of pseudocode that completes keeps `P`. -/
def Keeps (P : State → Prop) (k : State → Flow) : Prop := ∀ s, P s → (k s).Ends P

theorem Keeps.andThen {P : State → Prop} {f k : State → Flow} (hf : Keeps P f) (hk : Keeps P k) :
    Keeps P fun s => (f s).andThen k :=
  fun s hs => (hf s hs).andThen hk

/-- To keep `P` is to have it in the state a run that completes ends in. -/
theorem keeps_of_done {P : State → Prop} {k : State → Flow} (h : ∀ s u, P s → k s = .done u → P u) : Keeps P k := by
  intro s hs
  cases hk : k s with
  | done u => exact h s u hs hk
  | raised e u => trivial
  | stuck r => trivial

/-- Where a composite finds the table empty it ends (R214, R219). -/
theorem Keeps.unlessEmpty {P : State → Prop} {k : State → Flow} (hk : Keeps P k) :
    Keeps P fun s => if s.k = 0 then .done s else k s := by
  intro s hs
  dsimp only
  split
  · exact hs
  · exact hk s hs

/-- What the single commands keep, the composites keep: they run the same bodies (R220). -/
theorem bodyOf_keeps {P : State → Prop} (h : ∀ i, i ≠ .encode → i ≠ .decode → i ≠ .reset → Keeps P (bodyOf i))
    {i : Instr} (hr : i ≠ .reset) : Keeps P (bodyOf i) := by
  have single : ∀ i, i ∉ [Instr.encode, .decode, .reset] → Keeps P (bodyOf i) := fun i hi =>
    h i (by simp_all) (by simp_all) (by simp_all)
  have hrewind := single .rewind (by decide)
  have hbuild := single .build (by decide)
  by_cases henc : i = .encode
  · subst henc
    have hrest : Keeps P encodeRest :=
      (((hbuild.andThen (single .genc (by decide))).andThen (single .hser (by decide))).andThen hrewind).andThen
        (single .pack (by decide))
    exact ((hrewind.andThen (single .fclr (by decide))).andThen (single .fcnt (by decide))).andThen hrest.unlessEmpty
  · by_cases hdec : i = .decode
    · subst hdec
      exact (single .hdes (by decide)).andThen (hbuild.andThen (single .unpack (by decide))).unlessEmpty
    · exact h i henc hdec hr

/-! ### Invariants of the table, the tree, the code table and the flags -/

/-- States that agree on all that the two flags speak of. -/
structure SameStore (s t : State) : Prop extends SameTables s t where
  code : t.code = s.code
  treev : t.treev = s.treev
  codev : t.codev = s.codev

/-- A body that writes none of the stored tables leaves them all. -/
theorem Outside.sameStore {ps : List Part} {s t : State} (h : Outside ps s t)
    (hps : ∀ p ∈ [Part.ft, .tree, .code, .flags], p ∉ ps) : SameStore s t := by
  have hflags : t.status = s.status := h.same .flags (hps _ (by decide))
  obtain ⟨hnode, hnnode, hroot, htotal⟩ := h.same .tree (hps _ (by decide))
  exact {
    ft := h.same .ft (hps _ (by decide))
    node := hnode
    nnode := hnnode
    root := hroot
    total := htotal
    code := h.same .code (hps _ (by decide))
    treev := congrArg (BitVec.getLsbD · 2) hflags
    codev := congrArg (BitVec.getLsbD · 3) hflags }

theorem sameStore_setBusy (s : State) (b : Bool) : SameStore s (s.setBusy b) where
  ft := rfl
  node := rfl
  nnode := rfl
  root := rfl
  total := rfl
  code := rfl
  treev := setBusy_treev s b
  codev := setBusy_codev s b

/-- A predicate on the stored tables and the flags that says nothing while both flags are 0, and that the two commands
which set a flag keep. -/
structure StoreInvariant (P : State → Prop) : Prop where
  congr : ∀ {s t : State}, SameStore s t → P s → P t
  down : ∀ {s : State}, FlagsDown s → P s
  build : Keeps P buildBody
  genc : Keeps P gencBody

theorem StoreInvariant.body {P : State → Prop} (h : StoreInvariant P) {i : Instr} (hr : i ≠ .reset) :
    Keeps P (bodyOf i) := by
  have unwritten : ∀ i, (∀ p ∈ [Part.ft, .tree, .code, .flags], p ∉ writes i) → i ≠ .reset → Keeps P (bodyOf i) :=
    fun i hw hr s hs => (bodyOf_outside hr s).ends.mono fun _ ho => h.congr (ho.sameStore hw) hs
  have dropping : ∀ i ∈ [Instr.fclr, .fcnt, .hdes], Keeps P (bodyOf i) :=
    fun i hi s _ => (tableWriters_drop hi s).mono fun _ => h.down
  refine bodyOf_keeps (fun i henc hdec hr => ?_) hr
  cases i with
  | build => exact h.build
  | genc => exact h.genc
  | fclr => exact dropping _ (by decide)
  | fcnt => exact dropping _ (by decide)
  | hdes => exact dropping _ (by decide)
  | nop => exact unwritten _ (by decide) hr
  | hser => exact unwritten _ (by decide) hr
  | pack => exact unwritten _ (by decide) hr
  | unpack => exact unwritten _ (by decide) hr
  | rewind => exact unwritten _ (by decide) hr
  | encode => exact absurd rfl henc
  | decode => exact absurd rfl hdec
  | reset => exact absurd rfl hr

theorem StoreInvariant.stepInvariant {P : State → Prop} (h : StoreInvariant P) : StepInvariant P where
  script _ := h.congr ⟨⟨rfl, rfl, rfl, rfl, rfl⟩, rfl, rfl, rfl⟩
  source _ := h.congr ⟨⟨rfl, rfl, rfl, rfl, rfl⟩, rfl, rfl, rfl⟩
  sink := h.congr ⟨⟨rfl, rfl, rfl, rfl, rfl⟩, rfl, rfl, rfl⟩
  reset {s} _ := h.down ⟨resetEngine_treev s, resetEngine_codev s⟩
  completed {s u i} hs _ hr hu _ := by
    have hend := h.body hr _ (h.congr (sameStore_setBusy s true) hs)
    rw [hu] at hend
    exact h.congr (sameStore_setBusy u false) hend
  raised {s u _} e _ _ _ := h.down ⟨faultEntry_treev u s e, faultEntry_codev u s e⟩

/-! ### `GENC` and the flags -/

theorem gencBody_needs_treev {s u : State} (h : gencBody s = .done u) : s.treev = true := by
  by_contra hv
  rw [gencBody, if_neg hv] at h
  cases h

/-- A `GENC` that completes leaves `TREEV` 1, whatever the node store holds (R150). -/
theorem gencBody_treev (s : State) : (gencBody s).Ends fun u => u.treev = true := by
  unfold gencBody
  split
  · next hv =>
    refine Flow.Ends.andThen (P := fun u => u.treev = true) ?_ fun u hu => (setCodev_treev u true).trans hu
    refine (walkCodes_outside _ _ _ _).ends.mono fun u ho => ?_
    have hst : u.status = (s.setCodev false).status := ho.same .flags (by decide)
    have htv : u.treev = (s.setCodev false).treev := congrArg (BitVec.getLsbD · 2) hst
    rw [htv, setCodev_treev, hv]
  · trivial

theorem gencBody_sameTables {s u : State} (h : gencBody s = .done u) : SameTables s u := by
  have ho := gencBody_outside s
  rw [h] at ho
  obtain ⟨hnode, hnnode, hroot, htotal⟩ := ho.same .tree (by decide)
  exact ⟨ho.same .ft (by decide), hnode, hnnode, hroot, htotal⟩

/-! ### The tree invariant (R28) -/

theorem buildBody_treeInv {s u : State} (h : buildBody s = .done u) : TreeInv u := fun _ =>
  (buildBody_built h).1.tree

theorem gencBody_treeInv {s u : State} (hs : TreeInv s) (h : gencBody s = .done u) : TreeInv u := by
  intro _
  obtain ⟨tr, htr⟩ := hs (gencBody_needs_treev h)
  exact ⟨tr, htr.congr (gencBody_sameTables h)⟩

theorem TreeInv.congr {s t : State} (h : SameStore s t) (hs : TreeInv s) : TreeInv t := by
  intro hv
  obtain ⟨tr, htr⟩ := hs (h.treev ▸ hv)
  exact ⟨tr, htr.congr h.toSameTables⟩

theorem treeInv_of_flagsDown {s : State} (h : FlagsDown s) : TreeInv s := fun hv => by simp [h.1] at hv

theorem treeInv_invariant : StoreInvariant TreeInv where
  congr := TreeInv.congr
  down := treeInv_of_flagsDown
  build := keeps_of_done fun _ _ _ => buildBody_treeInv
  genc := keeps_of_done fun _ _ => gencBody_treeInv

/-- Settles O58: the tree invariant is one of the store. -/
theorem stepKeepsTheTree : Obligations.StepKeepsTheTree := fun _ _ hs hx =>
  treeInv_invariant.stepInvariant.step hs hx

/-! ### The register invariants (R31 to R38) -/

/-- R35: a valid code table belongs to a valid tree. -/
def FlagsNested (s : State) : Prop := s.codev = true → s.treev = true

theorem flagsNested_invariant : StoreInvariant FlagsNested where
  congr h hs := by
    unfold FlagsNested
    rw [h.codev, h.treev]
    exact hs
  down h hc := by simp [h.2] at hc
  build s _ := (buildBody_codev s).mono fun u hu hc => by simp [hu] at hc
  genc s _ := (gencBody_treev s).mono fun u hu _ => hu

/-- The bit writer holds nothing (R31, R32). -/
def WriterClear (s : State) : Prop := s.acc = 0 ∧ s.nbits = 0

theorem writerClear_body {i : Instr} (hr : i ≠ .reset) : Keeps WriterClear (bodyOf i) := by
  refine bodyOf_keeps (fun i henc _ hr s hs => ?_) hr
  by_cases hp : i = .pack
  · subst hp
    exact packBody_ends s
  · obtain ⟨-, -, -, hw, -⟩ := not_writes i
    refine (bodyOf_outside hr s).ends.mono fun u ho => ?_
    obtain ⟨hacc, hnbits⟩ := ho.same .writer (hw (by simp_all))
    exact ⟨hacc.trans hs.1, hnbits.trans hs.2⟩

theorem reservedZero_iff {s : State} : ReservedZero s ↔ ∀ i < 4, s.status.getLsbD (4 + i) = false := by
  unfold ReservedZero
  constructor
  · intro h i hi
    have := congrArg (BitVec.getLsbD · i) h
    simpa [hi] using this
  · intro h
    apply BitVec.eq_of_getLsbD_eq
    intro i hi
    simp [hi, h i hi]

theorem RegistersOk.completed {s u : State} {i : Instr} (h : RegistersOk s) (ha : Accepts s) (hr : i ≠ .reset)
    (hu : bodyOf i (s.setBusy true) = .done u) (ho : Outside (writes i) (s.setBusy true) u) :
    RegistersOk (u.setBusy false) := by
  have herr : (u.setBusy false).err = false := err_of_outside ha ho
  have hcode : (u.setBusy false).errcode = s.errcode := ho.errcode
  have hflags := flagsNested_invariant.stepInvariant.completed (s := s) h.codev_treev ha hr hu ho
  have hwriter := writerClear_body hr (s.setBusy true) (h.writer ha.2)
  rw [hu] at hwriter
  exact {
    idle := setBusy_busy u false
    reserved := reservedZero_iff.mpr fun i hi => by
      rw [setBusy_status, getLsbD_setBit_of_ne _ 0 _ _ (by decide) (by omega), ho.bits _ (by omega) (by omega),
        setBusy_status, getLsbD_setBit_of_ne _ 0 _ _ (by decide) (by omega)]
      exact reservedZero_iff.mp h.reserved i hi
    code_iff := iff_of_true (hcode.trans (h.code_iff.mpr ha.2)) herr
    code_range := by rw [hcode]; exact h.code_range
    fault_status := fun he => by simp [herr] at he
    codev_treev := hflags
    cursor := by
      change u.srcPos ≤ u.src.length
      rw [ho.src]
      exact ho.cursor h.cursor
    writer := fun _ => hwriter }

theorem RegistersOk.raised {s u : State} {ps : List Part} (e : Err) (h : RegistersOk s)
    (ho : Outside ps (s.setBusy true) u) : RegistersOk (faultEntry s e u) where
  idle := faultEntry_busy u s e
  reserved := (by decide : faultStatus.extractLsb' 4 4 = 0)
  code_iff := by
    have hpos := (errCode_range e).1
    refine iff_of_false (fun h0 => ?_) (by simp)
    rw [faultEntry_errcode] at h0
    simp [h0] at hpos
  code_range := (errCode_range e).2
  fault_status _ := rfl
  codev_treev hc := by simp at hc
  cursor := by
    change u.srcPos ≤ u.src.length
    rw [ho.src]
    exact ho.cursor h.cursor
  writer he := by simp at he

theorem RegistersOk.resetEngine {s : State} (h : RegistersOk s) : RegistersOk (resetEngine s) :=
  { reset_registersOk with cursor := h.cursor }

theorem registersOk_invariant : StepInvariant RegistersOk where
  script _ h := { h with }
  source _ h := { h with cursor := Nat.zero_le _ }
  sink h := { h with }
  reset h := h.resetEngine
  completed h ha hr hu ho := h.completed ha hr hu ho
  raised e h _ ho := h.raised e ho

/-- Settles O57: the register invariants are inductive by themselves. -/
theorem stepKeepsTheRegisters : Obligations.StepKeepsTheRegisters := fun _ _ hs hx =>
  registersOk_invariant.step hs hx

/-! ### The whole invariant -/

theorem CodesOf.congr {s t : State} {tr : Tree} (hcode : t.code = s.code) (hft : t.ft = s.ft) (h : CodesOf s tr) :
    CodesOf t tr := by
  have hat : ∀ b, t.codeAt b = s.codeAt b := fun b => by simp only [State.codeAt, hcode]
  exact ⟨fun b => by rw [hat, ftAt_congr hft]; exact h.valid b, fun e he => (hat e.1).trans (h.paths e he)⟩

theorem CodeInv.congr {s t : State} (h : SameStore s t) (hs : CodeInv s) : CodeInv t := by
  intro hc
  obtain ⟨hv, tr, htr, hcodes⟩ := hs (h.codev ▸ hc)
  exact ⟨h.treev.trans hv, tr, htr.congr h.toSameTables, hcodes.congr h.code h.ft⟩

theorem codeInv_of_codev {s : State} (h : s.codev = false) : CodeInv s := fun hc => by simp [h] at hc

/-- `GENC` makes the code table of the tree it found (R150). -/
theorem gencBody_codeInv {s u : State} (hs : TreeInv s) (h : gencBody s = .done u) : CodeInv u := by
  intro _
  have hv := gencBody_needs_treev h
  have htv := gencBody_treev s
  have htables := gencBody_sameTables h
  obtain ⟨tr, htr⟩ := hs hv
  obtain ⟨code, hdone, hcodes⟩ := gencBody_ok htr hv
  have hcode : u.code = code := by
    rw [hdone] at h
    cases h
    rfl
  rw [h] at htv
  exact ⟨htv, tr, htr.congr htables, hcodes u hcode htables.ft⟩

/-- The two invariants of the store; that of the code table needs the tree's, which `GENC` reads. -/
def StoreInv (s : State) : Prop := TreeInv s ∧ CodeInv s

theorem storeInv_invariant : StoreInvariant StoreInv where
  congr h hs := ⟨hs.1.congr h, hs.2.congr h⟩
  down h := ⟨treeInv_of_flagsDown h, codeInv_of_codev h.2⟩
  build := keeps_of_done fun s u _ h => by
    have hc := buildBody_codev s
    rw [h] at hc
    exact ⟨buildBody_treeInv h, codeInv_of_codev hc⟩
  genc := keeps_of_done fun _ _ hs h => ⟨gencBody_treeInv hs.1 h, gencBody_codeInv hs.1 h⟩

/-- Settles O59: the register invariants and those of the store, each by its own induction step. -/
theorem stepKeepsTheInvariant : Obligations.StepKeepsTheInvariant := by
  intro s t hs hx
  obtain ⟨htree, hcodes⟩ := storeInv_invariant.stepInvariant.step (s := s) ⟨hs.tree, hs.codes⟩ hx
  exact ⟨registersOk_invariant.step hs.registers hx, htree, hcodes⟩

end Sys2Proof.Machine
end

section
/-! Proofs of the statements of memory (20_memory.md): where `BUILD` puts its nodes (R71), the bytes of the header and
how `HDES` reads them (R65), and what a failed or unanswered access does to a command (R64). -/

namespace Sys2Proof.Machine

/-! ### The node store (R71, R133, R135) -/

/-- What a `BUILD` that completes leaves in the node store, for the table it was accepted with. -/
theorem exec_build_built {s t : State} (ha : Accepts s) (h : exec .build s = .next t) (he : t.err = false) :
    Built t ∧ t.ft = s.ft := by
  obtain ⟨u, hu, rfl, -⟩ := exec_completed (by decide) ha h he
  obtain ⟨hb, hft, -⟩ := buildBody_built hu
  exact ⟨.congr (s := u) ⟨rfl, rfl, rfl, rfl, rfl⟩ rfl hb, hft⟩

/-- The `j`-th entry of the table stands at index `j` (R133). -/
theorem Layout.leaf_ofNat {s : State} (h : Layout s) {j : Nat} {e : Byte × Count}
    (hj : (tableEntries s.ft)[j]? = some e) : s.nodeAt (BitVec.ofNat 9 j) = some (leafNode e) := by
  have hlt : j < s.k := (List.getElem?_eq_some_iff.mp hj).1
  have hk := k_le s
  refine h.leaf _ e ?_
  rwa [BitVec.toNat_ofNat, Nat.mod_eq_of_lt (by omega)]

/-- From index `k` on stand Internal nodes, made after their children (R135). -/
theorem Layout.internal_ofNat {s : State} (h : Layout s) {j : Nat} (hk : s.k ≤ j) (hj : j < s.nnode.toNat) :
    ∃ w a b, s.nodeAt (BitVec.ofNat 9 j) = some (internalNode w a b) ∧ a.toNat < j ∧ b.toNat < j := by
  have hj9 : (BitVec.ofNat 9 j).toNat = j := by
    have := h.bound
    rw [BitVec.toNat_ofNat, Nat.mod_eq_of_lt (by omega)]
  have hint := h.internal (BitVec.ofNat 9 j)
  rw [hj9] at hint
  exact hint hk hj

/-- Settles O18: the layout the merge loop keeps, read off at either range of indices. -/
theorem buildAllocationOrder : Obligations.BuildAllocationOrder := by
  intro s t ha h he
  obtain ⟨hb, hft⟩ := exec_build_built ha h he
  obtain ⟨tr, htr⟩ := hb.tree
  rw [← hft, ← k_congr hft]
  refine ⟨fun j e hj => hb.layout.leaf_ofNat hj, fun j hk hj => ?_⟩
  obtain ⟨w, a, b, hnode, hleft, hright⟩ := hb.layout.internal_ofNat hk (htr.nnode ▸ hj)
  exact ⟨internalNode w a b, hnode, rfl, rfl, hleft, hright⟩

/-! ### The bytes of the header (R65, R91 to R94) -/

/-- Records are five bytes each, so byte `d` of record `i` stands at `5i + d`. -/
theorem getElem?_flatMap_recordBytes {l : List (Byte × Count)} {i : Nat} {e : Byte × Count} (h : l[i]? = some e)
    {d : Nat} (hd : d < 5) : (l.flatMap recordBytes)[5 * i + d]? = (recordBytes e)[d]? := by
  induction l generalizing i with
  | nil => simp at h
  | cons a l ih =>
    rw [List.flatMap_cons]
    cases i with
    | zero =>
      obtain rfl : a = e := by simpa using h
      rw [List.getElem?_append_left (by simp; omega), Nat.mul_zero, Nat.zero_add]
    | succ i =>
      rw [List.getElem?_append_right (by simp; omega), recordBytes_length,
        show 5 * (i + 1) + d - 5 = 5 * i + d by omega]
      exact ih (by simpa using h)

/-- The byte at an offset past the first is a byte of a record (R91, R93). -/
theorem getElem?_headerBytes {ft : Vector Count 256} {i : Nat} {e : Byte × Count} (h : (tableEntries ft)[i]? = some e)
    {d n : Nat} (hd : d < 5) (hn : n = 1 + 5 * i + d) : (headerBytes ft)[n]? = (recordBytes e)[d]? := by
  obtain rfl : n = 5 * i + d + 1 := by omega
  rw [headerBytes, List.getElem?_cons_succ, getElem?_flatMap_recordBytes h hd]

/-- `k - 1` fits the byte (R92). -/
theorem toNat_kMinus1 {k : Nat} (h : k ≤ 256) : (kMinus1 k).toNat = k - 1 := by
  rw [kMinus1, BitVec.toNat_ofNat, Nat.mod_eq_of_lt (by omega)]

/-- The value of a count from its four bytes, most significant first (R65). -/
theorem toNat_eq_countBytes (c : Count) :
    c.toNat = (c.extractLsb' 24 8).toNat * 2 ^ 24 + (c.extractLsb' 16 8).toNat * 2 ^ 16 +
      (c.extractLsb' 8 8).toNat * 2 ^ 8 + (c.extractLsb' 0 8).toNat := by
  have := c.isLt
  simp only [BitVec.extractLsb'_toNat, Nat.shiftRight_eq_div_pow]
  omega

/-- Settles O28: each offset of the header, by the record it falls in. -/
theorem headerLayout : Obligations.HeaderLayout := by
  intro s _
  refine ⟨⟨_, rfl, toNat_kMinus1 (k_le s)⟩, fun i e he => ?_⟩
  refine ⟨getElem?_headerBytes he (d := 0) (by omega) rfl, _, _, _, _,
    getElem?_headerBytes he (d := 1) (by omega) (by omega), getElem?_headerBytes he (d := 2) (by omega) (by omega),
    getElem?_headerBytes he (d := 3) (by omega) (by omega), getElem?_headerBytes he (d := 4) (by omega) (by omega),
    toNat_eq_countBytes e.2⟩

/-! ### Reading the header (R163, R166) -/

/-- Writing one of the flags of `STATUS` leaves the reserved bits (R35). -/
theorem reserved_setBit (w : Byte) {i : Nat} (b : Bool) (hi : i < 4) :
    (setBit w i b).extractLsb' 4 4 = w.extractLsb' 4 4 := by
  apply BitVec.eq_of_getLsbD_eq
  intro j hj
  rw [BitVec.getLsbD_extractLsb', BitVec.getLsbD_extractLsb', getLsbD_setBit w i (4 + j) b (by omega) (by omega),
    if_neg (by omega)]

/-- Settles O31: `hdesBody_ok` on the record bytes the count byte declares. -/
theorem hdesReadsTheHeader : Obligations.HdesReadsTheHeader := by
  intro s b rest ha hu hlen hok
  have hl : (rest.take (5 * (b.toNat + 1))).length = 5 * (b.toNat + 1) := List.length_take_of_le hlen
  have hbody := hdesBody_ok (s := s.setBusy true) (b := b) (r := rest.drop (5 * (b.toNat + 1)))
    (by rw [List.take_append_drop]; exact hu) hl (by rw [hl]; exact hok.congr rfl)
  rw [hl] at hbody
  refine ⟨_, runCommand_done ha hbody, getElem_assigned_zero _, rfl, ?_, ?_, setBusy_busy _ _, ?_, ?_, rfl,
    ⟨rfl, rfl, rfl, rfl⟩, rfl, ⟨rfl, rfl⟩, ⟨rfl, rfl⟩, rfl, rfl, rfl, rfl, rfl⟩
  · rw [setBusy_treev]; exact dropDerived_treev _
  · rw [setBusy_codev]; exact dropDerived_codev _
  · rw [setBusy_err]
    exact (dropDerived_err _).trans ((setBusy_err s true).trans ha.2)
  · simp only [setBusy_status, State.skip, dropDerived_status, reserved_setBit, Nat.reduceLT]

/-! ### The first access (R64, R232, R273) -/

/-- The flow `f`, run from `s`, begins with an access: if the environment fails it, `f` raises `e` with nothing written;
if the environment never answers, `f` is stuck. -/
structure AccessFirst (e : Err) (s : State) (f : Flow) : Prop where
  fail : s.answer = .fail → ∃ u, f = .raised e u ∧ u.snk = s.snk
  never : s.answer = .never → f = .stuck .noIoAnswer

/-- Steps before the access that draw nothing and write nothing to the sink. -/
theorem AccessFirst.congr {e : Err} {s t : State} {f : Flow} (h : AccessFirst e t f) (ha : t.answer = s.answer)
    (hs : t.snk = s.snk) : AccessFirst e s f := by
  obtain ⟨hfail, hnever⟩ := h
  rw [ha] at hfail hnever
  rw [hs] at hfail
  exact ⟨hfail, hnever⟩

/-- What comes after the access is not reached (R240). -/
theorem AccessFirst.andThen {e : Err} {s : State} {f : Flow} (h : AccessFirst e s f) (k : State → Flow) :
    AccessFirst e s (f.andThen k) where
  fail ha := by
    obtain ⟨u, rfl, hs⟩ := h.fail ha
    exact ⟨u, rfl, hs⟩
  never ha := by rw [h.never ha]; rfl

theorem readByte_accessFirst (s : State) (onEof : State → Flow) (k : Byte → State → Flow) :
    AccessFirst .ioRd s (readByte s onEof k) where
  fail ha := ⟨s.drawn, readByte_fail ha, rfl⟩
  never ha := readByte_never ha

theorem snkWrite_accessFirst (v : Byte) (s : State) : AccessFirst .ioWr s (snkWrite v s) where
  fail ha := ⟨s.drawn, by rw [snkWrite, ha], rfl⟩
  never ha := by rw [snkWrite, ha]

theorem rewindBody_accessFirst (s : State) : AccessFirst .ioRd s (rewindBody s) where
  fail ha := ⟨s.drawn, by rw [rewindBody, ha], rfl⟩
  never ha := by rw [rewindBody, ha]

theorem overSource_accessFirst (body : Byte → State → Flow) (s : State) : AccessFirst .ioRd s (overSource body s) :=
  readByte_accessFirst s _ _

theorem hdesBody_accessFirst (s : State) : AccessFirst .ioRd s (hdesBody s) :=
  (readByte_accessFirst s.dropDerived.clearFt _ _).congr rfl rfl

/-- The commands whose first access is a read or a rewind in every state. -/
theorem bodyOf_accessFirst {i : Instr} (hi : i ∈ [Instr.rewind, .fcnt, .hdes, .encode, .decode]) (s : State) :
    AccessFirst .ioRd s (bodyOf i s) := by
  simp only [List.mem_cons, List.not_mem_nil, or_false] at hi
  rcases hi with rfl | rfl | rfl | rfl | rfl
  · exact rewindBody_accessFirst s
  · exact (overSource_accessFirst countByte s.dropDerived).congr rfl rfl
  · exact hdesBody_accessFirst s
  · exact (((rewindBody_accessFirst s).andThen _).andThen _).andThen _
  · exact (hdesBody_accessFirst s).andThen _

theorem hserBody_accessFirst {s : State} (hk : 1 ≤ s.k) : AccessFirst .ioWr s (hserBody s) := by
  rw [hserBody, if_neg (by omega)]
  exact (snkWrite_accessFirst _ s).andThen _

theorem packBody_accessFirst {s : State} (hv : s.codev = true) : AccessFirst .ioRd s (packBody s) := by
  rw [packBody, if_pos hv]
  exact ((overSource_accessFirst packByte s.clearAcc).andThen _).congr rfl rfl

/-- `UNPACK` of a table that is not empty writes first where the root is a Leaf (R191), and reads first else (R192). -/
theorem unpackBody_accessFirst {s : State} {nd : Node} (hv : s.treev = true) (h0 : s.total ≠ 0)
    (hr : s.nodeAt s.root = some nd) : AccessFirst (if nd.kind = .leaf then .ioWr else .ioRd) s (unpackBody s) := by
  have hout : s.unpackStart.outcnt ≠ s.unpackStart.total := Ne.symm h0
  cases hk : nd.kind with
  | leaf =>
    obtain ⟨n, hn⟩ := Nat.exists_eq_succ_of_ne_zero fun hz => h0 (BitVec.eq_of_toNat_eq hz)
    rw [unpackBody_leaf hv hr hk, hn, degenerateEmit, if_neg hout]
    exact (((snkWrite_accessFirst nd.sym s.unpackStart).andThen _).andThen _).congr rfl rfl
  | internal =>
    rw [unpackBody_internal hv hr hk, walkLoop, if_neg hout]
    exact (readByte_accessFirst s.unpackStart _ _).congr rfl rfl

/-- A command that begins with an access ends with its fault, or has no next state (R240, R273). -/
theorem AccessFirst.exec {e : Err} {i : Instr} {s : State} (hi : i ≠ .reset) (ha : Accepts s)
    (h : AccessFirst e (s.setBusy true) (bodyOf i (s.setBusy true))) :
    (s.answer = .fail → ∃ t, exec i s = .next t ∧ FaultsWith s t e []) ∧
    (s.answer = .never → exec i s = .fault .noIoAnswer) := by
  rw [exec_eq hi]
  constructor
  · intro hf
    obtain ⟨u, hu, hs⟩ := h.fail hf
    exact ⟨_, runCommand_raised ha hu, faultsWith_nothing hs⟩
  · intro hn
    exact runCommand_stuck ha (h.never hn)

/-- Settles O56: every command named begins with an access under its premises. -/
theorem firstAccessFailedOrUnanswered : Obligations.FirstAccessFailedOrUnanswered := by
  intro s ha
  have hfirst (i : Instr) (hi : i ∈ [Instr.rewind, .fcnt, .hdes, .encode, .decode]) :=
    (bodyOf_accessFirst hi (s.setBusy true)).exec (by rintro rfl; simp at hi) ha
  have hhser (hk : 1 ≤ s.k) :=
    AccessFirst.exec (i := .hser) (by decide) ha (hserBody_accessFirst (s := s.setBusy true) hk)
  have hpack (hv : s.codev = true) := AccessFirst.exec (i := .pack) (by decide) ha
    (packBody_accessFirst ((setBusy_codev s true).trans hv))
  have hunpack (hv : s.treev = true) (h0 : s.total ≠ 0) (nd : Node) (hr : s.nodeAt s.root = some nd) :=
    AccessFirst.exec (i := .unpack) (by decide) ha
      (unpackBody_accessFirst (s := s.setBusy true) ((setBusy_treev s true).trans hv) h0 hr)
  constructor
  · intro hf
    exact ⟨fun i hi => (hfirst i hi).1 hf, fun hk => (hhser hk).1 hf, fun hv => (hpack hv).1 hf,
      fun hv h0 nd hr => (hunpack hv h0 nd hr).1 hf⟩
  · intro hn
    refine ⟨fun i hi => (hfirst i hi).2 hn, fun hk => (hhser hk).2 hn, fun hv => (hpack hv).2 hn,
      fun hv h0 hroot => ?_⟩
    obtain ⟨nd, hr⟩ := Option.ne_none_iff_exists'.mp hroot
    exact (hunpack hv h0 nd hr).2 hn

end Sys2Proof.Machine
end

section
/-! Proofs of the statements of encoding (30_encoding.md): the opcode map (R100 to R104), the step (R101), and the bytes
that `HSER` and `ENCODE` write (R90 to R96). -/

namespace Sys2Proof.Machine

/-! ### The opcode map (R100, R102, R104) -/

theorem decodeWord_encodeWord (i : Instr) : decodeWord (encodeWord i) = some i := by
  cases i <;> rfl

/-- The opcode map is one-to-one: a word selects a command exactly when it is the command's opcode. -/
theorem decodeWord_eq_some_iff {w : Byte} {i : Instr} : decodeWord w = some i ↔ w = encodeWord i :=
  ⟨eq_encodeWord_of_decodeWord, fun h => h ▸ decodeWord_encodeWord i⟩

/-- A command is one byte, whatever follows it (R104). -/
theorem decode_encode (i : Instr) (rest : List Byte) : decode (encode i ++ rest) = .ok (i, rest) := by
  simp only [encode, List.singleton_append, decode, decodeWord_encodeWord]

/-- Settles O1: each of the words is an encoding, and `decode_encode` reads every encoding back. -/
theorem opcodeMapDecodes : Obligations.OpcodeMapDecodes := fun rest =>
  ⟨decode_encode .nop rest, decode_encode .fclr rest, decode_encode .fcnt rest, decode_encode .build rest,
    decode_encode .genc rest, decode_encode .hser rest, decode_encode .hdes rest, decode_encode .pack rest,
    decode_encode .unpack rest, decode_encode .rewind rest, decode_encode .encode rest, decode_encode .decode rest,
    decode_encode .reset rest⟩

/-- Settles O2: the round trip of a command, and that no second word selects it. -/
theorem decodeAndEncodeAgree : Obligations.DecodeAndEncodeAgree :=
  ⟨decode_encode, fun w i => by rw [decodeWord_eq_some_iff, encode, List.singleton_inj, eq_comm]⟩

/-! ### Words presented to the engine (R101, R103) -/

/-- Settles O4: the step takes the word from the script and issues the command it selects. -/
theorem stepRunsTheIssuedCommand : Obligations.StepRunsTheIssuedCommand := by
  intro s w i rest hs hw
  rw [step_move hs]
  exact issueWord_of_decode hw _

theorem definedWord_encodeWord (i : Instr) : definedWord (encodeWord i) = true := by
  cases i <;> rfl

/-- A word outside the opcode map selects no command (R103). -/
theorem decodeWord_of_not_defined {w : Byte} (h : definedWord w = false) : decodeWord w = none := by
  cases hd : decodeWord w with
  | none => rfl
  | some i => rw [eq_encodeWord_of_decodeWord hd, definedWord_encodeWord] at h; cases h

/-- The words R103 lists are outside the opcode map. -/
theorem not_definedWord {w : Byte} (h : w = 0x0C ∨ w = 0x0D ∨ w = 0x0E ∨ 0x10 ≤ w.toNat) : definedWord w = false := by
  rcases h with rfl | rfl | rfl | h
  · rfl
  · rfl
  · rfl
  · have hF : w ≠ 0x0F := by rintro rfl; simp at h
    rw [definedWord, Bool.or_eq_false_iff]
    exact ⟨decide_eq_false (by omega), beq_false_of_ne hF⟩

theorem delivered_nil (s : State) : s.delivered [] = [] := by
  cases h : s.faultKeep <;> simp [State.delivered, h]

/-- The fault entry of a word that selects no command writes `STATUS` and `ERRCODE`, and nothing was emitted (R237). -/
theorem illegalWord_accepted {s : State} (h : Accepts s) : illegalWord s = .next
    { s with status := 0x02, errcode := 9, faultKeep := s.faultKeep.tail } := by
  rw [illegalWord, runCommand_raised h rfl]
  simp [faultEntry, delivered_nil, Err.code, faultStatus]

/-- Settles O3: the word selects nothing, so the step is `illegalWord`, which faults or is refused by `ERR`. -/
theorem undefinedWordFaultsOrIsRefused : Obligations.UndefinedWordFaultsOrIsRefused := by
  intro s w rest hw hs hb
  have hnone := decodeWord_of_not_defined (not_definedWord hw)
  have hstep : step s = illegalWord { s with script := rest } := by
    rw [step_move hs]
    exact issueWord_of_undefined hnone _
  refine ⟨hnone, fun he => ?_, fun he => ?_⟩ <;> rw [hstep]
  · exact illegalWord_accepted (s := { s with script := rest }) ⟨hb, he⟩
  · exact runCommand_not_accepted (s := { s with script := rest }) (.inr he)

/-! ### The header (R91, R160) -/

/-- Settles O27: `hserBody_ok` between a prologue and an epilogue that undo each other. -/
theorem hserWritesTheHeader : Obligations.HserWritesTheHeader := by
  intro s ha hk hok
  refine ⟨headerBytes_length s, ?_⟩
  have hbody := hserBody_ok (s := s.setBusy true) hk (hok.congr rfl)
  exact (runCommand_done ha hbody).trans (congrArg _ (setBusy_setBusy { s with
    snk := s.snk ++ headerBytes s.ft, answers := s.answers.drop (1 + 5 * s.k) } ha.1))

/-! ### `STATUS` after a command (R35) -/

/-- Outside a command and the fault state, `STATUS` holds the two flags and nothing else. -/
theorem status_eq_statusWord {s : State} (ha : Accepts s) (hr : ReservedZero s) :
    s.status = statusWord s.treev s.codev := by
  have hword : ∀ t c : Bool, (statusWord t c).getLsbD 0 = false ∧ (statusWord t c).getLsbD 1 = false ∧
      (statusWord t c).getLsbD 2 = t ∧ (statusWord t c).getLsbD 3 = c ∧
      ∀ j < 4, (statusWord t c).getLsbD (4 + j) = false := by decide
  obtain ⟨hbusy, herr, htreev, hcodev, hreserved⟩ := hword s.treev s.codev
  apply BitVec.eq_of_getLsbD_eq
  intro i hi
  match i with
  | 0 => exact ha.1.trans hbusy.symm
  | 1 => exact ha.2.trans herr.symm
  | 2 => exact htreev.symm
  | 3 => exact hcodev.symm
  | j + 4 =>
    rw [Nat.add_comm, reservedZero_iff.mp hr j (by omega), hreserved j (by omega)]

theorem ReservedZero.setBusy {s : State} (h : ReservedZero s) (b : Bool) : ReservedZero (s.setBusy b) :=
  (reserved_setBit s.status b (by decide)).trans h

/-! ### The whole file (R90, R96, R213) -/

theorem Encoded.err {s u : State} {tr : Tree} (h : Encoded s u tr) : u.err = s.err := h.bits 1 (by decide) (by decide)

theorem Encoded.reserved {s u : State} {tr : Tree} (h : Encoded s u tr) (hr : ReservedZero s) : ReservedZero u :=
  reservedZero_iff.mpr fun i hi => (h.bits (4 + i) (by omega) (by omega)).trans (reservedZero_iff.mp hr i hi)

/-- `STATUS` of an `ENCODE` that completed: both flags, and no other bit (R213, R235). -/
theorem Encoded.status {s u : State} {tr : Tree} (h : Encoded (s.setBusy true) u tr) (ha : Accepts s)
    (hr : ReservedZero s) : (u.setBusy false).status = statusWord true true := by
  have herr : (u.setBusy false).err = false := by rw [setBusy_err, h.err, setBusy_err, ha.2]
  rw [status_eq_statusWord ⟨setBusy_busy u false, herr⟩ ((h.reserved (hr.setBusy true)).setBusy false),
    setBusy_treev, setBusy_codev, h.treev, h.codev]

/-- Settles O43: `encodeBody_ok` between prologue and epilogue, which write `BUSY` only. -/
theorem encodeWritesTheFile : Obligations.EncodeWritesTheFile := by
  intro s ha hr hne hlen hok
  obtain ⟨u, tr, hbody, h⟩ := encodeBody_ok (s := s.setBusy true) hne hlen hok
  exact ⟨u.setBusy false, tr, runCommand_done ha hbody, h.status ha hr, h.errcode, h.counts, h.tree.setBusy false,
    CodesOf.congr (s := u) rfl rfl h.codes, h.srcPos, h.acc, h.nbits, h.reader, h.around, h.snk⟩

end Sys2Proof.Machine
end

section
/-! Proofs of the statements of the Frequency Table (40_frequency_table.md): what `FCLR` (R120) and `FCNT` (R121, R122)
make of an accepting state. -/

namespace Sys2Proof.Machine

/-! ### `STATUS` after a command that drops the flags (R35, R77, R235) -/

/-- Where the pseudocode wrote nothing in `STATUS` but the two flags, both to 0, the epilogue leaves every other bit as it
was before the prologue. -/
theorem status_of_dropDerived {s u : State} (ha : Accepts s) (hu : u.status = (s.setBusy true).dropDerived.status) :
    (u.setBusy false).treev = false ∧ (u.setBusy false).codev = false ∧ (u.setBusy false).busy = false ∧
    (u.setBusy false).err = false ∧ (u.setBusy false).status.extractLsb' 4 4 = s.status.extractLsb' 4 4 := by
  obtain ⟨htreev, hcodev⟩ : FlagsDown u := (dropDerived_flagsDown _).congr hu
  have herr : u.err = s.err := by
    rw [State.err, hu]
    exact (dropDerived_err _).trans (setBusy_err s true)
  refine ⟨by rw [setBusy_treev, htreev], by rw [setBusy_codev, hcodev], setBusy_busy u false,
    by rw [setBusy_err, herr, ha.2], ?_⟩
  simp only [setBusy_status, hu, dropDerived_status, reserved_setBit, Nat.reduceLT]

/-! ### `FCNT` (R121) -/

/-- The cursor past the unread bytes stands at the end of the source (R38). -/
theorem srcPos_add_unread_length {s : State} (h : s.srcPos ≤ s.src.length) :
    s.srcPos + s.unread.length = s.src.length := by
  rw [State.unread, List.length_drop, Nat.add_sub_cancel' h]

/-- Settles O12: `fcntBody_ok` between prologue and epilogue, which write `BUSY` only. -/
theorem fcntCountsTheUnreadSource : Obligations.FcntCountsTheUnreadSource := by
  intro s ha hpos hok hcount
  obtain ⟨ft, hbody, hft⟩ := fcntBody_ok (s := s.setBusy true) (hok.congr rfl) hcount
  obtain ⟨htreev, hcodev, hbusy, herr, hreserved⟩ := status_of_dropDerived ha
    (u := { (s.setBusy true).dropDerived with
      ft := ft, srcPos := s.srcPos + s.unread.length, answers := s.answers.drop (s.unread.length + 1) }) rfl
  exact ⟨_, runCommand_done ha hbody, hft, srcPos_add_unread_length hpos, htreev, hcodev, hbusy, herr, hreserved, rfl,
    ⟨rfl, rfl, rfl, rfl⟩, rfl, ⟨rfl, rfl⟩, ⟨rfl, rfl⟩, rfl, rfl, rfl, rfl, rfl⟩

/-- A raise of `FCNT` is its fault, with nothing in the sink where nothing was written (R240). -/
theorem execFcnt_faultsWith {s u : State} {e : Err} (ha : Accepts s) (hbody : fcntBody (s.setBusy true) = .raised e u)
    (hsnk : u.snk = s.snk) : ∃ t, exec .fcnt s = .next t ∧ FaultsWith s t e [] :=
  ⟨_, runCommand_raised ha hbody, faultsWith_nothing hsnk⟩

/-- Settles O13: the counting loop raises at the count that overflows (R122), or at the read that fails before any does. -/
theorem fcntOverflowAndReadFailureFault : Obligations.FcntOverflowAndReadFailureFault := by
  constructor
  · intro s ha hok hover
    obtain ⟨u, hbody, hsnk⟩ := eachByte_countByte_overflow s.unread (s.setBusy true).dropDerived _ rfl
      (Nat.lt_succ_self _) (hok.congr rfl) hover
    exact execFcnt_faultsWith ha hbody hsnk
  · intro s m later ha hm hanswers hcount
    obtain ⟨u, hbody, hsnk⟩ := eachByte_countByte_readFails m s.unread (s.setBusy true).dropDerived _ later rfl
      (Nat.lt_succ_self _) hm hanswers hcount
    exact execFcnt_faultsWith ha hbody hsnk

/-! ### `FCLR` (R120) -/

/-- Settles O11: the pseudocode writes the table and the two flags, prologue and epilogue `BUSY` only. -/
theorem fclrClearsTheTable : Obligations.FclrClearsTheTable := by
  refine ⟨rfl, fun s ha => ?_⟩
  obtain ⟨htreev, hcodev, hbusy, herr, hreserved⟩ :=
    status_of_dropDerived ha (u := (s.setBusy true).clearFt.dropDerived) rfl
  have hbody : fclrBody (s.setBusy true) = .done (s.setBusy true).clearFt.dropDerived := rfl
  exact ⟨_, runCommand_done ha hbody, ftAt_clearFt (s.setBusy true), htreev, hcodev, hbusy, herr, hreserved, rfl,
    ⟨rfl, rfl, rfl, rfl⟩, rfl, ⟨rfl, rfl⟩, ⟨rfl, rfl⟩, ⟨rfl, rfl, rfl⟩, rfl, rfl, rfl⟩

end Sys2Proof.Machine
end

section
/-! Proofs of the statements of the Tree Builder (41_tree_builder.md): which tables `BUILD` completes on (R130, R136, R137),
which nodes it merges (R135), what it depends on (R138), and how `DECODE` rebuilds the tree of a file (R215). -/

namespace Sys2Proof.Machine

/-! ### What a `BUILD` that ends leaves (R130, R137) -/

/-- A table within the weight limit is built (R137). -/
theorem buildBody_completes {s : State} (hk : 1 ≤ s.k) (hw : s.totalFT ≤ Config.maxCount) :
    ∃ v, buildBody s = .done v := by
  rcases buildBody_spec (s := s) (by omega) with ⟨hov, -⟩ | ⟨-, node, nnode, root, total, hbody, -⟩
  · omega
  · exact ⟨_, hbody⟩

/-- A table above the weight limit overflows at some merge, before which only nodes and the two flags were written (R137). -/
theorem buildBody_overflows {s : State} (hk : 1 ≤ s.k) (hw : Config.maxCount < s.totalFT) :
    ∃ node nnode, buildBody s = .raised .ovf { s.dropDerived with node := node, nnode := nnode } := by
  rcases buildBody_spec (s := s) (by omega) with ⟨-, hbody⟩ | ⟨hle, -⟩
  · exact hbody
  · omega

/-- A `BUILD` that completes wrote the tree registers and the two flags (R130). -/
theorem buildBody_done {s v : State} (h : buildBody s = .done v) : ∃ node nnode root total,
    v = State.setTreev { s.dropDerived with node := node, nnode := nnode, root := root, total := total } true := by
  by_cases hk : s.k = 0
  · rw [buildBody_empty hk] at h
    cases h
  · rcases buildBody_spec hk with ⟨-, node, nnode, hbody⟩ | ⟨-, node, nnode, root, total, hbody, -⟩ <;>
      rw [hbody] at h <;> cases h
    exact ⟨node, nnode, root, total, rfl⟩

/-- A `BUILD` that completes sets `TREEV` and leaves `CODEV` 0 (R130). -/
theorem buildBody_flags {s v : State} (h : buildBody s = .done v) : v.treev = true ∧ v.codev = false := by
  obtain ⟨node, nnode, root, total, rfl⟩ := buildBody_done h
  exact ⟨setTreev_treev _ true, (setTreev_codev _ true).trans (dropDerived_codev s)⟩

/-- `BUILD` draws no answer of the environment, whether it completes or raises (R138). -/
theorem buildBody_answers (s : State) : (buildBody s).Sat fun u => u.answers = s.answers := by
  by_cases hk : s.k = 0
  · rw [buildBody_empty hk]
    rfl
  · rcases buildBody_spec hk with ⟨-, node, nnode, hbody⟩ | ⟨-, node, nnode, root, total, hbody, -⟩ <;>
      rw [hbody] <;> rfl

/-! ### The weight limit (R137) -/

/-- Settles O15: within the limit the body completes; its registers are those of the tree, the rest its record update. -/
theorem buildCompletesWithinTheWeightLimit : Obligations.BuildCompletesWithinTheWeightLimit := by
  intro s ha hk hw
  obtain ⟨v, hbody⟩ := buildBody_completes (s := s.setBusy true) hk hw
  obtain ⟨tr, htr⟩ := (buildBody_built hbody).1.tree
  obtain ⟨htreev, hcodev⟩ := buildBody_flags hbody
  obtain ⟨node, nnode, root, total, rfl⟩ := buildBody_done hbody
  refine ⟨_, runCommand_done ha hbody, (setBusy_treev _ _).trans htreev, (setBusy_codev _ _).trans hcodev,
    setBusy_busy _ _, ?_, ?_, rfl, htr.nnode, htr.root, htr.total, rfl, rfl, ⟨rfl, rfl⟩, ⟨rfl, rfl⟩, ⟨rfl, rfl, rfl⟩,
    ⟨rfl, rfl, rfl⟩⟩
  · rw [setBusy_err, setTreev_err]
    exact (dropDerived_err _).trans ((setBusy_err s true).trans ha.2)
  · simp only [setBusy_status, setTreev_status, dropDerived_status, reserved_setBit, Nat.reduceLT]

/-- Settles O16: the merge that overflows raises, and nothing before it touched a stream. -/
theorem buildWeightOverflowFaults : Obligations.BuildWeightOverflowFaults := by
  intro s ha hk hw
  obtain ⟨node, nnode, hbody⟩ := buildBody_overflows (s := s.setBusy true) hk hw
  exact ⟨_, runCommand_raised ha hbody, faultsWith_nothing rfl, rfl⟩

/-! ### Merges (R135, R136) -/

/-- Settles O19: the merge loop keeps `LowestMerged`, and a built store has it. -/
theorem buildMergesTheTwoLowest : Obligations.BuildMergesTheTwoLowest := fun _ _ ha h he =>
  (exec_build_built ha h he).1.lowest

/-- Settles O20: one entry is within the limit, so `BUILD` completes, with the entry's Leaf as the only node. -/
theorem buildOfOneSymbol : Obligations.BuildOfOneSymbol := by
  intro s b c ha hent
  have hk : s.k = 1 := by rw [State.k, hent, List.length_singleton]
  have htotal : s.totalFT = c.toNat := by rw [← sum_tableEntries, hent]; rfl
  have hlimit : s.totalFT ≤ Config.maxCount := htotal ▸ Nat.le_pred_of_lt c.isLt
  obtain ⟨t, h, htreev, -, -, herr, -, -, hn, hr, htot, -⟩ := buildCompletesWithinTheWeightLimit s ha hk.ge hlimit
  obtain ⟨hleaves, -⟩ := buildAllocationOrder s t ha h herr
  rw [hk] at hn hr
  rw [htotal] at htot
  exact ⟨t, h, herr, htreev, BitVec.eq_of_toNat_eq hn, BitVec.eq_of_toNat_eq hr, BitVec.eq_of_toNat_eq htot,
    hleaves 0 (b, c) (by rw [hent]; rfl)⟩

/-! ### `BUILD` is a function of the table and the parameter (R138) -/

theorem exec_build_answers {s t : State} (ha : Accepts s) (h : exec .build s = .next t) : t.answers = s.answers := by
  have hdraws := buildBody_answers (s.setBusy true)
  rcases exec_cases (by decide) ha h with ⟨u, hu, rfl, -⟩ | ⟨e, u, hu, rfl, -⟩ <;>
    change buildBody _ = _ at hu <;> rw [hu] at hdraws <;> exact hdraws

/-- Settles O21: the two bodies end alike; one that completes sets `TREEV`, and one that raises leaves the fault state. -/
theorem buildDependsOnTableAndParameterOnly : Obligations.BuildDependsOnTableAndParameterOnly := by
  intro s s' t t' ha ha' hft heq h h'
  refine ⟨exec_build_answers ha h, ?_⟩
  have hsame : SameBuild (buildBody (s.setBusy true)) (buildBody (s'.setBusy true)) := buildBody_congr hft.symm heq.symm
  rcases exec_cases (by decide) ha h with ⟨u, hu, rfl, ho⟩ | ⟨e, u, hu, rfl, -⟩ <;>
    rcases exec_cases (by decide) ha' h' with ⟨u', hu', rfl, ho'⟩ | ⟨e', u', hu', rfl, -⟩ <;>
    change buildBody _ = _ at hu hu' <;> rw [hu, hu'] at hsame
  · obtain ⟨⟨-, hnnode, hnodes⟩, hroot, htotal⟩ := hsame
    refine ⟨(err_of_outside ha ho).trans (err_of_outside ha' ho').symm, ?_, fun _ =>
      ⟨hnnode.symm, hroot.symm, htotal.symm, fun i hi => (hnodes i hi).symm⟩⟩
    rw [setBusy_treev, setBusy_treev, (buildBody_flags hu).1, (buildBody_flags hu').1]
  · exact hsame.elim
  · exact hsame.elim
  · refine ⟨?_, ?_, fun he => ?_⟩
    · rw [faultEntry_err, faultEntry_err]
    · rw [faultEntry_treev, faultEntry_treev]
    · simp at he

/-! ### Reading a header that was written from a table (R162, R163) -/

/-- The state `HDES` leaves once it has read the header of the table `ft`. -/
def State.headerRead (w : State) (ft : Vector Count 256) : State :=
  { w.dropDerived.skip (1 + 5 * (tableEntries ft).length) with ft := ft }

/-- The bytes after the header are left to read. -/
theorem unread_headerRead {u w : State} {bytes : List Byte} (hw : w.unread = headerBytes u.ft ++ bytes) :
    (w.headerRead u.ft).unread = bytes := by
  have hskip : (w.headerRead u.ft).unread = w.unread.drop (1 + 5 * u.k) := unread_skip w.dropDerived _
  rw [hskip, hw, ← headerBytes_length, List.drop_left]

/-- `HDES` reads back the table a header was written from (R162). -/
theorem hdesBody_header {u w : State} {bytes : List Byte} (hk : 1 ≤ u.k) (hw : w.unread = headerBytes u.ft ++ bytes)
    (ha : AnswersOk w (1 + 5 * u.k)) : hdesBody w = .done (w.headerRead u.ft) := by
  have hcount : (kMinus1 u.k).toNat + 1 = u.k := by rw [toNat_kMinus1 (k_le u)]; omega
  have hlen : ((tableEntries u.ft).flatMap recordBytes).length = 5 * u.k := flatMap_recordBytes_length _
  have hbody := hdesBody_ok (s := w) (b := kMinus1 u.k) (l := (tableEntries u.ft).flatMap recordBytes) (r := bytes)
    (by rw [hw]; rfl) (by rw [hlen, hcount]) (by rw [hlen]; exact ha)
  rw [hbody, recordsIn_flatMap, assigned_tableEntries, hlen]
  rfl

/-! ### `DECODE` of a file (R215) -/

/-- What a `BUILD` that completes leaves was built by a body run of the same table under the same parameter. -/
theorem exec_build_builtBy {s t : State} (ha : Accepts s) (h : exec .build s = .next t) (he : t.err = false) :
    BuiltBy t := by
  obtain ⟨v, hv, rfl, -⟩ := exec_completed (by decide) ha h he
  obtain ⟨-, hft, heq⟩ := buildBody_built hv
  exact ⟨s.setBusy true, v, hft.symm, heq.symm, hv, rfl, rfl, rfl, rfl⟩

theorem TreeOf.totalFT_le {s : State} {tr : Tree} (h : TreeOf s tr) : s.totalFT ≤ Config.maxCount :=
  h.total ▸ Nat.le_pred_of_lt s.total.isLt

/-- The walk over a tree leaves it (R192). -/
theorem TreeOf.walked {s : State} {tr : Tree} (h : TreeOf s tr) (syms : List Byte) (j : NodeRef) (reads : Nat) :
    TreeOf (s.walked syms j reads) tr :=
  TreeOf.congr (s := s) ⟨rfl, rfl, rfl, rfl, rfl⟩ h

/-- `DECODE` of the header of a built table and a payload that begins with its Codes: `HDES` reads the table, `BUILD`
makes the same tree from it (R138), and `UNPACK` walks that tree (R196). -/
theorem decodeBody_header {u w : State} {tr : Tree} {coded : List (Byte × List Bool)} {bytes : List Byte}
    {more : List Bool} (hu : BuiltBy u) (htr : TreeOf u tr) (h2 : 2 ≤ u.k) (heq : w.eqInternal = u.eqInternal)
    (hw : w.unread = headerBytes u.ft ++ bytes) (hc : ∀ e ∈ coded, e ∈ tr.codes) (hlen : coded.length = u.totalFT)
    (hbits : bitsOf bytes = coded.flatMap Prod.snd ++ more) (hok : NeverFails w) :
    ∃ v, buildBody (w.headerRead u.ft) = .done v ∧ TreeOf v tr ∧ coded.length = v.total.toNat ∧ decodeBody w =
      .done (v.walked (coded.map Prod.fst) v.root (((coded.flatMap Prod.snd).length + 7) / 8)) := by
  have hk : 1 ≤ (w.headerRead u.ft).k := htr.nonempty
  obtain ⟨v, hv⟩ := buildBody_completes hk htr.totalFT_le
  have htv : TreeOf v tr := hu.tree htr (w := w.headerRead u.ft) rfl heq hv
  obtain ⟨htreev, -⟩ := buildBody_flags hv
  have hunread : v.unread = bytes := by
    obtain ⟨node, nnode, root, total, rfl⟩ := buildBody_done hv
    exact unread_headerRead hw
  have hanswers : NeverFails v := by
    obtain ⟨node, nnode, root, total, rfl⟩ := buildBody_done hv
    exact hok.of_drop (n := 1 + 5 * u.k) rfl
  obtain ⟨-, hft, -⟩ := buildBody_built hv
  have htotal : coded.length = v.total.toNat := hlen.trans (htv.total.trans (totalFT_congr hft)).symm
  have hunpack := unpackBody_ok (more := more) htreev htv.at_root (by rw [htr.leaves_length]; exact h2) hc
    htotal (by rw [hunread]; exact hbits) (hanswers.answersOk _)
  refine ⟨v, hv, htv, htotal, ?_⟩
  rw [decodeBody, hdesBody_header htr.nonempty hw (hok.answersOk _), Flow.andThen_done, if_neg (by omega), hv,
    Flow.andThen_done, hunpack]

/-- Settles O44: `decodeBody_header` between prologue and epilogue, which write `BUSY` only. -/
theorem decodeReadsTheFile : Obligations.DecodeReadsTheFile := by
  intro s t w tr coded bytes more ha h he htr hk haw hok heq hw hc hlen hbits
  obtain ⟨-, hft⟩ := exec_build_built ha h he
  obtain ⟨⟨-, htEq, -⟩, -⟩ := surroundings_kept_of_accepted (by decide) ha h
  rw [← hft] at hw ⊢
  rw [← k_congr hft] at hk ⊢
  rw [← totalFT_congr hft] at hlen
  rw [← htEq] at heq
  obtain ⟨v, hv, htv, htotal, hbody⟩ := decodeBody_header (w := w.setBusy true) (exec_build_builtBy ha h he) htr hk heq
    hw hc hlen hbits hok
  have ho := decodeBody_outside (w.setBusy true)
  rw [hbody] at ho
  obtain ⟨htreev, hcodev⟩ := buildBody_flags hv
  have htree := (htv.walked (coded.map Prod.fst) v.root (((coded.flatMap Prod.snd).length + 7) / 8)).setBusy false
  have hcount := outcnt_walked_eq (s := v) (syms := coded.map Prod.fst) (j := v.root)
    (reads := ((coded.flatMap Prod.snd).length + 7) / 8) (by rw [List.length_map, htotal])
  have hrun := runCommand_done haw hbody
  obtain ⟨node, nnode, root, total, rfl⟩ := buildBody_done hv
  exact ⟨_, hrun, rfl, rfl, rfl, htree, (setBusy_treev _ _).trans htreev, (setBusy_codev _ _).trans hcodev,
    setBusy_busy _ _, err_of_outside haw ho, rfl, hcount, rfl, ⟨rfl, rfl⟩, rfl, ⟨rfl, rfl, rfl⟩⟩

end Sys2Proof.Machine
end

section
/-! Proofs of the statements of the Code Table Generator (42_code_table.md): what `GENC` makes of a tree (R150, R151, R153)
and of an absent child (R152), that no code begins another (R154), and that the machine's own tree never raises `ERR_WALK`
(R152, R193). -/

namespace Sys2Proof.Machine

/-! ### `STATUS` after a `GENC` that completes (R35, R150, R235) -/

/-- Where the pseudocode wrote nothing in `STATUS` but `CODEV`, in the end to 1, the epilogue leaves every other bit as it
was before the prologue. -/
theorem status_of_setCodev {s u : State} (ha : Accepts s)
    (hu : u.status = (((s.setBusy true).setCodev false).setCodev true).status) :
    (u.setBusy false).codev = true ∧ (u.setBusy false).treev = s.treev ∧ (u.setBusy false).busy = false ∧
    (u.setBusy false).err = false ∧ (u.setBusy false).status.extractLsb' 4 4 = s.status.extractLsb' 4 4 := by
  have hbit (i : Nat) : u.status.getLsbD i = (((s.setBusy true).setCodev false).setCodev true).status.getLsbD i :=
    congrArg (BitVec.getLsbD · i) hu
  have hcodev : u.codev = true := (hbit 3).trans (setCodev_codev _ true)
  have htreev : u.treev = s.treev :=
    (hbit 2).trans ((setCodev_treev _ true).trans ((setCodev_treev _ false).trans (setBusy_treev s true)))
  have herr : u.err = s.err :=
    (hbit 1).trans ((setCodev_err _ true).trans ((setCodev_err _ false).trans (setBusy_err s true)))
  refine ⟨by rw [setBusy_codev, hcodev], by rw [setBusy_treev, htreev], setBusy_busy u false,
    by rw [setBusy_err, herr, ha.2], ?_⟩
  simp only [setBusy_status, hu, setCodev_status, reserved_setBit, Nat.reduceLT]

/-! ### `GENC` of a tree (R150, R151) -/

/-- Settles O23: `gencBody_ok` between prologue and epilogue, which write `BUSY` only. -/
theorem gencWritesRootPaths : Obligations.GencWritesRootPaths := by
  intro s tr ha hv htr
  obtain ⟨code, hbody, hcodes⟩ := gencBody_ok (htr.setBusy true) ((setBusy_treev s true).trans hv)
  obtain ⟨hcodev, htreev, hbusy, herr, hreserved⟩ := status_of_setCodev ha
    (u := { s.setBusy true with code := code, status := setBit (setBit (s.setBusy true).status 3 false) 3 true }) rfl
  exact ⟨_, runCommand_done ha hbody, hcodes _ rfl rfl, hcodev, htreev.trans hv, hbusy, herr, hreserved, rfl, rfl,
    ⟨rfl, rfl, rfl, rfl⟩, ⟨rfl, rfl⟩, ⟨rfl, rfl⟩, ⟨rfl, rfl, rfl⟩, rfl, rfl, rfl⟩

/-! ### `GENC` of a root that is a Leaf (R153) -/

theorem codeAt_setCode (s : State) (a b : Byte) (c : Code) :
    (s.setCode a c).codeAt b = if b = a then c else s.codeAt b := by
  simp only [State.codeAt, State.setCode, Vector.getElem_set, BitVec.toNat_inj, eq_comm (a := a)]

/-- The walk at a Leaf writes its entry (R150). -/
theorem walkCodes_leaf {n : Nat} {i : NodeRef} {path : List Bool} {s : State} {nd : Node} (hi : s.nodeAt i = some nd)
    (hk : nd.kind = .leaf) : walkCodes (n + 1) i path s = .done (s.setCode nd.sym (codeOf path)) := by
  simp only [walkCodes, hi, hk]

/-- `GENC` at a Leaf writes one entry, of the empty path (R153). -/
theorem gencBody_leaf {s : State} {nd : Node} (hv : s.treev = true) (hr : s.nodeAt s.root = some nd)
    (hk : nd.kind = .leaf) :
    gencBody s = .done (((s.setCodev false).invalidateCodes.setCode nd.sym (codeOf [])).setCodev true) := by
  rw [gencBody, if_pos hv, walkCodes_leaf (s := (s.setCodev false).invalidateCodes) hr hk, Flow.andThen_done]

/-- Settles O24: the Leaf's entry is the only one written after all were invalidated. -/
theorem gencOfOneLeaf : Obligations.GencOfOneLeaf := by
  intro s nd ha hv hr hk
  have hbody := gencBody_leaf (s := s.setBusy true) ((setBusy_treev s true).trans hv) hr hk
  obtain ⟨hcodev, -, -, herr, -⟩ := status_of_setCodev ha
    (u := (((s.setBusy true).setCodev false).invalidateCodes.setCode nd.sym (codeOf [])).setCodev true) rfl
  have hcode := codeAt_setCode ((s.setBusy true).setCodev false).invalidateCodes nd.sym
  refine ⟨_, runCommand_done ha hbody, herr, hcodev, ?_, fun b hb => ?_⟩
  · exact (hcode nd.sym _).trans (if_pos rfl)
  · have hother := ((hcode b (codeOf [])).trans (if_neg hb)).trans (codeAt_invalidateCodes _ b)
    exact congrArg Code.valid hother

/-! ### No code begins another (R154) -/

/-- A valid Code is its Leaf's root path. -/
theorem CodesOf.path_mem {s : State} {tr : Tree} (h : TreeOf s tr) (hc : CodesOf s tr) {b : Byte}
    (hb : (s.codeAt b).valid = true) : (b, (s.codeAt b).path) ∈ tr.codes :=
  (hc.code h ((hc.valid b).mp hb)).2

/-- Settles O25: no Leaf's root path begins another Leaf's, and none is empty where there are two Leaves. -/
theorem codesArePrefixFree : Obligations.CodesArePrefixFree := by
  intro s tr h hc h2
  constructor
  · intro b b' hb hb' hne hprefix
    have hmem := hc.path_mem h hb
    have hmem' := hc.path_mem h hb'
    have heq := tr.codes_not_prefix hmem hmem' hprefix
    exact hne (congrArg Prod.fst (tr.codes_unique hmem hmem' heq))
  · intro b hb
    obtain ⟨e, he, rfl⟩ := hc.leaf_of_valid h hb
    have hpath : e.2 ≠ [] := Tree.codes_path_ne_nil (by rw [h.leaves_length]; exact h2) e he
    rw [hc.len_eq h he]
    exact List.length_pos_iff.mpr hpath

/-! ### A step to an absent child (R152, R192, R193) -/

/-- The walk of `GENC` at an Internal node with an absent child (R152). -/
theorem walkCodes_absent {n : Nat} {i : NodeRef} {path : List Bool} {s : State} {nd : Node} (hi : s.nodeAt i = some nd)
    (hk : nd.kind = .internal) (h : nd.left = nil ∨ nd.right = nil) :
    walkCodes (n + 1) i path s = .raised .walk s := by
  simp only [walkCodes, hi, hk, if_pos h]

theorem gencBody_absent {s : State} {nd : Node} (hv : s.treev = true) (hr : s.nodeAt s.root = some nd)
    (hk : nd.kind = .internal) (h : nd.left = nil ∨ nd.right = nil) :
    gencBody s = .raised .walk (s.setCodev false).invalidateCodes := by
  rw [gencBody, if_pos hv, walkCodes_absent (s := (s.setCodev false).invalidateCodes) hr hk h, Flow.andThen_raised]

/-- A bit of the walk of `UNPACK` that leads to an absent child (R193). -/
theorem walkBit_absent {bit : Bool} {s : State} {nd : Node} (hc : s.nodeAt s.cur = some nd)
    (h : (if bit then nd.right else nd.left) = nil) : walkBit bit s = .raised .walk s := by
  simp only [walkBit, hc, h, nodeAt_nil]

/-- `UNPACK` whose first payload bit leads from the root to an absent child (R192, R193). -/
theorem unpackBody_absent {s : State} {nd : Node} {b : Byte} {rest : List Byte} (hv : s.treev = true)
    (hr : s.nodeAt s.root = some nd) (hk : nd.kind = .internal) (h0 : s.total ≠ 0) (hu : s.unread = b :: rest)
    (hok : s.answer = .ok) (h : (if b.getLsbD 7 then nd.right else nd.left) = nil) :
    unpackBody s = .raised .walk s.unpackStart.drawn.advance := by
  have hbit : walkBit (b.getLsbD 7) s.unpackStart.drawn.advance = .raised .walk s.unpackStart.drawn.advance :=
    walkBit_absent hr h
  have hout : s.unpackStart.outcnt ≠ s.unpackStart.total := Ne.symm h0
  rw [unpackBody_internal hv hr hk, walkLoop, if_neg hout, readByte_byte (s := s.unpackStart) hok hu, bitsMsb,
    walkBits, hbit, Flow.andThen_raised, Flow.andThen_raised]

/-- Settles O40: either body raises at the root's absent child, before anything is written to the sink. -/
theorem absentChildFaults : Obligations.AbsentChildFaults := by
  intro s nd ha hv hr hk
  have hv' : (s.setBusy true).treev = true := (setBusy_treev s true).trans hv
  constructor
  · intro h
    exact ⟨_, runCommand_raised ha (gencBody_absent hv' hr hk h), faultsWith_nothing rfl⟩
  · intro b rest h0 hu hok h
    have hbody := unpackBody_absent (s := s.setBusy true) hv' hr hk h0 hu (hok.answer (by decide)) h
    exact ⟨_, runCommand_raised ha hbody, faultsWith_nothing rfl⟩

/-! ### `ERR_WALK` with the machine's own tree (R152, R193) -/

/-- A command that ends in the fault state raised an error. -/
theorem exec_faulted {i : Instr} {s t : State} (ha : Accepts s) (h : exec i s = .next t) (he : t.err = true) :
    ∃ e u, bodyOf i (s.setBusy true) = .raised e u ∧ t = faultEntry s e u := by
  by_cases hr : i = .reset
  · subst hr
    rw [exec_reset ha.1] at h
    cases h
    simp at he
  · rcases exec_cases hr ha h with ⟨u, -, rfl, ho⟩ | ⟨e, u, hu, rfl, -⟩
    · rw [err_of_outside ha ho] at he
      cases he
    · exact ⟨e, u, hu, rfl⟩

/-- Settles O54: a body run with the machine's own tree is sound, and no other error has the code of `ERR_WALK`. -/
theorem walkFaultIsUnreachable : Obligations.WalkFaultIsUnreachable := by
  intro i s t hinv ha h he hcode
  obtain ⟨e, u, hu, rfl⟩ := exec_faulted ha h he
  have hsound : e ≠ .walk := by
    have hbody := bodyOf_sound i (hinv.setBusy true)
    rwa [hu] at hbody
  exact hsound (errCode_injective e .walk hcode)

end Sys2Proof.Machine
end

section
/-! Proofs of the statements of the Header Codec (43_header_codec.md): `HDES` reads back the header `HSER` wrote (R162), what
a failed write leaves of it (R160), and how `HDES` ends on a source with no header (R164) or a short one (R165). -/

namespace Sys2Proof.Machine

/-! ### A header written and read back (R162) -/

/-- Reading a header leaves `STATUS.ERR` (R163). -/
theorem headerRead_err (w : State) (ft : Vector Count 256) : (w.headerRead ft).err = w.err := dropDerived_err w

/-- An `HSER` that ends outside the fault state had a symbol to write, and appended the header of its table. -/
theorem exec_hser_completed {s t : State} (ha : Accepts s) (h : exec .hser s = .next t) (he : t.err = false) :
    1 ≤ s.k ∧ t.snk = s.snk ++ headerBytes s.ft := by
  obtain ⟨u, hu, rfl, -⟩ := exec_completed (by decide) ha h he
  exact hserBody_done (s := s.setBusy true) (u := u) hu

/-- `HDES` run where the header of a table stands next in the source. -/
theorem exec_hdes_header {u w : State} {bytes : List Byte} (ha : Accepts w) (hk : 1 ≤ u.k)
    (hw : w.unread = headerBytes u.ft ++ bytes) (hok : AnswersOk w (1 + 5 * u.k)) :
    exec .hdes w = .next (((w.setBusy true).headerRead u.ft).setBusy false) :=
  runCommand_done ha (hdesBody_header (w := w.setBusy true) hk hw (hok.congr rfl))

/-- Settles O33: what a completing `HSER` appends is the header, and `HDES` reads a header back to its table. -/
theorem headerRoundTrip : Obligations.HeaderRoundTrip := by
  intro s t ha h he
  obtain ⟨hk, hsnk⟩ := exec_hser_completed ha h he
  have hlen : (headerBytes s.ft).length = 1 + 5 * s.k := headerBytes_length s
  refine ⟨headerBytes s.ft, hsnk, hlen, fun s' more ha' hsrc hpos hok => ?_⟩
  have hunread : s'.unread = headerBytes s.ft ++ more := by rw [State.unread, hpos, hsrc, List.drop_zero]
  have hcursor : s'.srcPos + (1 + 5 * s.k) = (headerBytes s.ft).length := by rw [hpos, Nat.zero_add, hlen]
  refine ⟨_, exec_hdes_header ha' hk hunread (hlen ▸ hok), ?_, rfl, hcursor⟩
  rw [setBusy_err, headerRead_err, setBusy_err, ha'.2]

/-! ### A failed write of `HSER` (R160, R241) -/

/-- A command that raises `e` after writing `w` ends in its fault, with a prefix of `w` delivered. -/
theorem runCommand_faultsWith {body : State → Flow} {s u : State} {e : Err} {w : List Byte} (ha : Accepts s)
    (hb : body (s.setBusy true) = .raised e u) (hw : u.snk = s.snk ++ w) :
    ∃ t p, runCommand body s = .next t ∧ FaultsWith s t e p ∧ p <+: w := by
  obtain ⟨p, hfault, hprefix⟩ := faultsWith_faultEntry (e := e) hw
  exact ⟨_, p, runCommand_raised ha hb, hfault, hprefix⟩

/-- The write of `HSER` that fails raises `ERR_IO_WR` after the bytes before it (R63, R160). -/
theorem hserBody_writeFails {s : State} {m : Nat} {later : List IoAnswer} (hk : 1 ≤ s.k) (hm : m < 1 + 5 * s.k)
    (h : s.answers = List.replicate m .ok ++ .fail :: later) :
    hserBody s = .raised .ioWr { s with snk := s.snk ++ (headerBytes s.ft).take m, answers := later } := by
  rw [hserBody, if_neg (Nat.ne_of_gt hk)]
  exact snkWrites_fail _ s m later (by rwa [headerBytes_length]) h

/-- Settles O29: the write that fails ends the header after the `m` bytes before it, some of which the sink keeps. -/
theorem hserWriteFailureFaults : Obligations.HserWriteFailureFaults := fun s _ _ ha hk hm hanswers =>
  runCommand_faultsWith ha (hserBody_writeFails (s := s.setBusy true) hk hm hanswers) rfl

/-! ### A source without a whole header (R164, R165) -/

/-- Settles O30: the `EOF` at the first byte leaves the table as `HDES` cleared it. -/
theorem hdesOfEmptySource : Obligations.HdesOfEmptySource := by
  intro s ha hu hok
  have hbody := hdesBody_empty (s := s.setBusy true) hu (hok.congr rfl)
  obtain ⟨htreev, hcodev, hbusy, herr, -⟩ :=
    status_of_dropDerived ha (u := (s.setBusy true).dropDerived.clearFt.drawn) rfl
  have hzero : ∀ b, ((s.setBusy true).dropDerived.clearFt.drawn.setBusy false).ftAt b = 0 :=
    ftAt_clearFt (s.setBusy true).dropDerived
  exact ⟨_, runCommand_done ha hbody, herr, hbusy, htreev, hcodev, hzero, k_eq_zero.mpr hzero, rfl, rfl⟩

/-- Settles O32: the read past the end of the source raises `ERR_HDR`, and `HDES` writes no byte. -/
theorem hdesShortHeaderFaults : Obligations.HdesShortHeaderFaults := by
  intro s b rest ha hu hshort hok
  obtain ⟨u, hbody, hsnk⟩ := hdesBody_short (s := s.setBusy true) hu hshort (hok.congr rfl)
  exact ⟨_, runCommand_raised ha hbody, faultsWith_nothing hsnk⟩

end Sys2Proof.Machine
end

section
/-! Proofs of the statements of the Bit Writer (44_bit_writer.md): the BitStream `PACK` appends (R175, R181), and its fault
at a source byte without a Code (R177, R241). -/

namespace Sys2Proof.Machine

/-! ### `PACK` of a source whose bytes all have Codes (R175, R178, R181) -/

/-- The state a completed `PACK` leaves: the bit writer cleared, the BitStream appended, the source read to its end. -/
def State.packedSource (s : State) : State :=
  { s with acc := 0, nbits := 0, snk := s.snk ++ packedBytes (s.codeBits s.unread),
           answers := s.answers.drop (s.unread.length + 1 + ((s.codeBits s.unread).length + 7) / 8),
           srcPos := s.srcPos + s.unread.length }

/-- `PACK` as a command: its prologue and its epilogue, which write `BUSY` only, undo each other. -/
theorem exec_pack_ok {s : State} (ha : Accepts s) (hcv : s.codev = true)
    (hv : ∀ b ∈ s.unread, (s.codeAt b).valid = true)
    (hok : AnswersOk s (s.unread.length + 1 + ((s.codeBits s.unread).length + 7) / 8)) :
    exec .pack s = .next s.packedSource := by
  have hbody : packBody (s.setBusy true) = .done (s.setBusy true).packedSource :=
    packBody_ok (s := s.setBusy true) ((setBusy_codev s true).trans hcv) hv (hok.congr rfl)
  exact (runCommand_done ha hbody).trans (congrArg _ (setBusy_setBusy (s := s.packedSource) ha.1))

/-- Settles O35: `exec_pack_ok` gives the whole next state, and the unread bytes reach to the end of the source. -/
theorem packAppendsTheBitStream : Obligations.PackAppendsTheBitStream := fun _ ha hcv hpos hv hok =>
  ⟨_, exec_pack_ok ha hcv hv hok, rfl, srcPos_add_unread_length hpos, rfl, rfl, rfl, rfl, rfl, ⟨rfl, rfl, rfl, rfl⟩, rfl,
    ⟨rfl, rfl⟩, ⟨rfl, rfl, rfl⟩⟩

/-! ### A source byte without a Code (R175, R177, R241) -/

/-- Settles O36: the byte raises before any of its bits is put; the fault keeps a prefix of the whole bytes before it. -/
theorem packWithoutCodeFaults : Obligations.PackWithoutCodeFaults := by
  intro s before later b ha hcv hu hv hb hok
  obtain ⟨u, hbody, hsnk⟩ :=
    packBody_noCode (s := s.setBusy true) ((setBusy_codev s true).trans hcv) hu hv hb (hok.congr rfl)
  exact runCommand_faultsWith ha hbody hsnk

end Sys2Proof.Machine
end

section
/-! Proofs of the statements of the Bit Reader (45_bit_reader.md): `UNPACK` on a single Leaf (R191), on a payload that holds
the Codes of `TOTAL` symbols (R192, R195, R196), and on one that ends early (R194). -/

namespace Sys2Proof.Machine

/-! ### An `UNPACK` that completes (R191, R192, R196) -/

/-- `UNPACK` as a command whose loop ends at `ROOT`: its prologue and its epilogue, which write `BUSY` only, undo each
other. -/
theorem exec_unpack_walked {s : State} {syms : List Byte} {reads : Nat} (ha : Accepts s)
    (hbody : unpackBody (s.setBusy true) = .done ((s.setBusy true).walked syms s.root reads)) :
    exec .unpack s = .next (s.walked syms s.root reads) :=
  (runCommand_done ha hbody).trans (congrArg _ (setBusy_setBusy (s := s.walked syms s.root reads) ha.1))

/-- Settles O37: the single-symbol loop emits, and draws one answer, `TOTAL` times. -/
theorem unpackOfOneLeaf : Obligations.UnpackOfOneLeaf := by
  intro s nd ha hv hr hk hok
  have hbody := unpackBody_one (s := s.setBusy true) ((setBusy_treev s true).trans hv) hr hk (hok.congr rfl)
  have hlen : (List.replicate s.total.toNat nd.sym).length = s.total.toNat := List.length_replicate
  have hcount := outcnt_walked_eq (j := s.root) (reads := 0) hlen
  have hdrawn : s.answers.drop (0 + (List.replicate s.total.toNat nd.sym).length) = s.answers.drop s.total.toNat := by
    rw [hlen, Nat.zero_add]
  exact ⟨_, exec_unpack_walked ha hbody, rfl, rfl, rfl, hcount, rfl, rfl, rfl, ⟨rfl, rfl, rfl, rfl⟩, rfl, ⟨rfl, rfl⟩,
    hdrawn, ⟨rfl, rfl, rfl⟩⟩

/-- Settles O38: the walk of the Codes, `unpackBody_ok`, between prologue and epilogue. -/
theorem unpackEmitsTheEncodedSymbols : Obligations.UnpackEmitsTheEncodedSymbols := by
  intro s tr coded more ha hv htr hk hc hlen hbits hok
  have hleaves : 2 ≤ tr.leaves.length := htr.leaves_length ▸ hk
  have hbody := unpackBody_ok (s := s.setBusy true) ((setBusy_treev s true).trans hv) (htr.setBusy true).at_root hleaves
    hc hlen hbits (hok.congr rfl)
  have hcount := outcnt_walked_eq (j := s.root) (reads := ((coded.flatMap Prod.snd).length + 7) / 8)
    ((List.length_map Prod.fst).trans hlen)
  exact ⟨_, exec_unpack_walked ha hbody, rfl, rfl, rfl, hcount, rfl, rfl, rfl, ⟨rfl, rfl, rfl, rfl⟩, rfl, ⟨rfl, rfl⟩,
    ⟨rfl, rfl, rfl⟩⟩

/-! ### A payload that ends early (R194, R241) -/

/-- Settles O39: the read past the payload raises, after some of the decoded symbols; the fault keeps a prefix of them. -/
theorem unpackTruncatedFaults : Obligations.UnpackTruncatedFaults := by
  intro s tr coded part ha hv htr hk hc hlen hbits hpart hok
  have hleaves : 2 ≤ tr.leaves.length := htr.leaves_length ▸ hk
  obtain ⟨u, w, hbody, hsnk, hw⟩ := unpackBody_truncated (s := s.setBusy true) ((setBusy_treev s true).trans hv)
    (htr.setBusy true).at_root hleaves hc hlen hbits hpart (hok.congr rfl)
  obtain ⟨t, p, hrun, hfault, hp⟩ := runCommand_faultsWith ha hbody hsnk
  exact ⟨t, p, hrun, hfault, hp.trans hw⟩

end Sys2Proof.Machine
end

section
/-! Proofs of the statements of the composites and the system commands (46_composite_system.md): `NOP`, `REWIND` and `RESET`
(R210 to R212, R217), `ENCODE` and `DECODE` as their steps (R213, R215, R220), empty input (R214, R219), the file of a
repeated byte (R218), and that `DECODE` undoes `ENCODE` (R216). -/

namespace Sys2Proof.Machine

/-! ### `NOP`, `REWIND`, `RESET` (R210 to R212, R217) -/

/-- Settles O6: prologue and epilogue undo each other, and a `NOP` that is not accepted changes nothing. -/
theorem nopChangesNothing : Obligations.NopChangesNothing := by
  refine ⟨rfl, fun s => ?_⟩
  by_cases ha : Accepts s
  · exact (runCommand_done ha rfl).trans (congrArg _ (setBusy_setBusy s ha.1))
  · exact exec_refused (by decide) ha

/-- A rewind the environment grants (R211). -/
theorem rewindBody_ok {s : State} (h : s.answer = .ok) : rewindBody s = .done { s.drawn with srcPos := 0 } := by
  rw [rewindBody, h]

/-- Settles O7: a granted rewind writes the cursor between prologue and epilogue, and a failed one is the first access. -/
theorem rewindMovesTheCursor : Obligations.RewindMovesTheCursor := by
  refine ⟨rfl, fun s ha => ⟨fun hok => ?_, ?_⟩⟩
  · have hbody : rewindBody (s.setBusy true) = .done { (s.setBusy true).drawn with srcPos := 0 } := rewindBody_ok hok
    exact (runCommand_done ha hbody).trans
      (congrArg _ (setBusy_setBusy { s with srcPos := 0, answers := s.answers.tail } ha.1))
  · obtain ⟨hfail, -⟩ := AccessFirst.exec (i := .rewind) (by decide) ha (rewindBody_accessFirst (s.setBusy true))
    exact hfail

/-- Settles O8: `resetEngine` takes the engine's registers from `State.reset`, whose values O9 gives. -/
theorem resetReturnsTheEngine : Obligations.ResetReturnsTheEngine := by
  refine ⟨rfl, fun s hb => ⟨resetEngine s, exec_reset hb, ?_⟩⟩
  obtain ⟨hft, hnnode, hroot, htotal, hcode, hacc, hnbits, hcur, houtcnt, hstatus, herrcode⟩ :=
    resetStateHoldsTheSpecsValues
  exact ⟨hft, hnnode, hroot, htotal, hcode, hacc, hnbits, hcur, houtcnt, hstatus, herrcode, rfl, rfl, rfl, rfl,
    ⟨rfl, rfl, rfl⟩⟩

/-! ### Commands issued one after the other (R220) -/

/-- The pseudocode of each command in order, without the prologues and epilogues between. -/
def bodiesOf : List Instr → State → Flow
  | [], s => .done s
  | i :: is, s => (bodyOf i s).andThen (bodiesOf is)

theorem bodiesOf_nil : bodiesOf [] = .done := rfl

theorem bodiesOf_cons (i : Instr) (is : List Instr) :
    bodiesOf (i :: is) = fun s => (bodyOf i s).andThen (bodiesOf is) := rfl

/-- In the fault state commands other than `RESET` are refused one after the other (R242). -/
theorem execAll_fault_state {is : List Instr} (hr : .reset ∉ is) {s : State} (h : s.err = true) :
    execAll is s = .next s := by
  induction is with
  | nil => rfl
  | cons i is ih =>
    obtain ⟨hi, his⟩ := not_or.mp (mt List.mem_cons.mpr hr)
    rw [execAll, exec_fault_state (Ne.symm hi) h]
    exact ih his

/-- Commands issued one after the other that end outside the fault state ran their pseudocode in order: each epilogue and
the prologue after it undo each other (R220, R235). -/
theorem execAll_completed {is : List Instr} (hr : .reset ∉ is) {s t : State} (ha : Accepts s)
    (h : execAll is s = .next t) (he : t.err = false) :
    ∃ u, bodiesOf is (s.setBusy true) = .done u ∧ u.busy = true ∧ t = u.setBusy false := by
  induction is generalizing s with
  | nil =>
    obtain rfl : s = t := by cases h; rfl
    exact ⟨s.setBusy true, rfl, setBusy_busy s true, (setBusy_setBusy s ha.1).symm⟩
  | cons i is ih =>
    obtain ⟨hi, his⟩ := not_or.mp (mt List.mem_cons.mpr hr)
    rw [execAll] at h
    cases hx : exec i s with
    | fault r => rw [hx] at h; cases h
    | refused r => rw [hx] at h; cases h
    | next s' =>
      rw [hx] at h
      change execAll is s' = .next t at h
      have he' : s'.err = false := by
        by_contra hne
        rw [execAll_fault_state his (Bool.eq_true_of_not_eq_false hne)] at h
        cases h
        exact hne he
      obtain ⟨v, hv, rfl, ho⟩ := exec_completed (Ne.symm hi) ha hx he'
      obtain ⟨u, hu, hbusy, rfl⟩ := ih his ⟨setBusy_busy v false, he'⟩ h
      rw [setBusy_false_true (busy_of_outside ho)] at hu
      exact ⟨u, by rw [bodiesOf, hv, Flow.andThen_done, hu], hbusy, rfl⟩

theorem Flow.andThen_done_right (f : Flow) : f.andThen .done = f := by cases f <;> rfl

/-- `ENCODE` is the pseudocode of its steps in order, those after `FCNT` for a table that is not empty (R213). -/
theorem encodeBody_eq (s : State) : encodeBody s = (bodiesOf [.rewind, .fclr, .fcnt] s).andThen fun t =>
    if t.k = 0 then .done t else bodiesOf [.build, .genc, .hser, .rewind, .pack] t := by
  simp only [encodeBody, encodeRest, bodiesOf_cons, bodiesOf_nil, bodyOf, Flow.andThen_assoc, Flow.andThen_done_right]

/-- `DECODE` is the pseudocode of its steps in order, those after `HDES` for a table that is not empty (R215). -/
theorem decodeBody_eq (s : State) : decodeBody s = (bodiesOf [.hdes] s).andThen fun t =>
    if t.k = 0 then .done t else bodiesOf [.build, .unpack] t := by
  simp only [decodeBody, bodiesOf_cons, bodiesOf_nil, bodyOf, Flow.andThen_done_right]

/-- A composite whose pseudocode runs the steps `first`, and the steps `rest` where the table is not empty then, has the
effect of its steps issued one after the other, where they complete (R220). -/
theorem composite_eq_steps {body : State → Flow} {first rest : List Instr} (hfirst : .reset ∉ first)
    (hrest : .reset ∉ rest) (hbody : ∀ s, body s = (bodiesOf first s).andThen fun t =>
      if t.k = 0 then .done t else bodiesOf rest t) {s u : State} (ha : Accepts s) (h : execAll first s = .next u)
    (he : u.err = false) : (u.k = 0 → runCommand body s = .next u) ∧
      (u.k ≠ 0 → ∀ t, execAll rest u = .next t → t.err = false → runCommand body s = .next t) := by
  obtain ⟨v, hv, hbusy, rfl⟩ := execAll_completed hfirst ha h he
  have hgo : body (s.setBusy true) = if v.k = 0 then .done v else bodiesOf rest v := by
    rw [hbody, hv, Flow.andThen_done]
  constructor
  · intro hk
    exact runCommand_done ha (hgo.trans (if_pos hk))
  · intro hk t ht het
    obtain ⟨w, hw, -, rfl⟩ := execAll_completed hrest ⟨setBusy_busy v false, he⟩ ht het
    rw [setBusy_false_true hbusy] at hw
    exact runCommand_done ha ((hgo.trans (if_neg hk)).trans hw)

/-- Settles O41: `ENCODE` runs its steps, and those after `FCNT` only where the table is not empty. -/
theorem encodeEqualsItsParts : Obligations.EncodeEqualsItsParts := fun _ _ ha h he =>
  composite_eq_steps (by decide) (by decide) encodeBody_eq ha h he

/-- Settles O42: `DECODE` runs its steps, and those after `HDES` only where the table is not empty. -/
theorem decodeEqualsItsParts : Obligations.DecodeEqualsItsParts := by
  intro s u ha h he
  have hfirst : execAll [.hdes] s = .next u := by
    rw [execAll, h]
    rfl
  exact composite_eq_steps (by decide) (by decide) decodeBody_eq ha hfirst he

/-! ### Empty input (R214, R219) -/

/-- An accepted command whose pseudocode runs to its end completes, outside the fault state (R235). -/
theorem exec_of_done {i : Instr} (hr : i ≠ .reset) {s u : State} (ha : Accepts s)
    (h : bodyOf i (s.setBusy true) = .done u) :
    exec i s = .next (u.setBusy false) ∧ (u.setBusy false).err = false := by
  have ho := bodyOf_outside hr (s.setBusy true)
  rw [h] at ho
  rw [exec_eq hr]
  exact ⟨runCommand_done ha h, err_of_outside ha ho⟩

/-- An `ENCODE` of an empty source completes with nothing written, an empty table and both flags 0. -/
theorem exec_encode_empty {s : State} (ha : Accepts s) (hs : s.src = []) (hok : AnswersOk s 2) :
    ∃ t, exec .encode s = .next t ∧ t.err = false ∧ t.treev = false ∧ t.codev = false ∧ t.k = 0 ∧ t.snk = s.snk := by
  obtain ⟨u, hbody, hk, hsnk, htreev, hcodev⟩ := encodeBody_empty (s := s.setBusy true) hs (hok.congr rfl)
  obtain ⟨hrun, herr⟩ := exec_of_done (i := .encode) (by decide) ha hbody
  exact ⟨_, hrun, herr, (setBusy_treev u false).trans htreev, (setBusy_codev u false).trans hcodev, hk, hsnk⟩

/-- A `DECODE` whose `HDES` leaves the table empty ends there, with the flags `HDES` dropped (R219). -/
theorem exec_decode_emptyTable {s u : State} (ha : Accepts s) (h : hdesBody (s.setBusy true) = .done u)
    (hst : u.status = (s.setBusy true).dropDerived.status) (hsnk : u.snk = s.snk) (hk : u.k = 0) :
    exec .decode s = .next (u.setBusy false) ∧ (u.setBusy false).err = false ∧ (u.setBusy false).treev = false ∧
      (u.setBusy false).codev = false ∧ (u.setBusy false).k = 0 ∧ (u.setBusy false).snk = s.snk := by
  have hbody : decodeBody (s.setBusy true) = .done u := by rw [decodeBody, h, Flow.andThen_done, if_pos hk]
  obtain ⟨htreev, hcodev, -, herr, -⟩ := status_of_dropDerived ha hst
  exact ⟨runCommand_done ha hbody, herr, htreev, hcodev, hk, hsnk⟩

/-- A `DECODE` of an empty source completes with nothing written (R164, R219). -/
theorem exec_decode_empty {s : State} (ha : Accepts s) (hu : s.unread = []) (hok : AnswersOk s 1) :
    ∃ t, exec .decode s = .next t ∧ t.err = false ∧ t.treev = false ∧ t.codev = false ∧ t.k = 0 ∧ t.snk = s.snk :=
  ⟨_, exec_decode_emptyTable ha (hdesBody_empty (s := s.setBusy true) hu (hok.congr rfl)) rfl rfl
    (k_eq_zero.mpr (ftAt_clearFt (s.setBusy true).dropDerived))⟩

/-- Records whose counts are all 0 give every symbol the count 0 (R166). -/
theorem lastCount_eq_zero {records : List (Byte × Count)} (h : ∀ e ∈ records, e.2 = 0) (b : Byte) :
    lastCount b records = 0 := by
  rw [lastCount]
  cases hf : records.reverse.find? fun e => e.1 == b with
  | none => rfl
  | some e => exact h e (List.mem_reverse.mp (List.mem_of_find?_eq_some hf))

/-- Settles O45: in each case the table is empty after the steps that read, so nothing else runs. -/
theorem emptyInputCompletes : Obligations.EmptyInputCompletes := by
  refine fun s ha => ⟨exec_encode_empty ha, exec_decode_empty ha, fun b rest hu hlong hok hzero => ?_⟩
  have hlen : (rest.take (5 * (b.toNat + 1))).length = 5 * (b.toNat + 1) := List.length_take_of_le hlong
  have hsplit : (s.setBusy true).unread = b :: (rest.take (5 * (b.toNat + 1)) ++ rest.drop (5 * (b.toNat + 1))) := by
    rw [List.take_append_drop]
    exact hu
  have hbody := hdesBody_ok hsplit hlen (by rw [hlen]; exact hok.congr rfl)
  rw [hlen] at hbody
  obtain ⟨hrun, herr, htreev, hcodev, hk, hsnk⟩ := exec_decode_emptyTable ha hbody rfl rfl
    (k_eq_zero.mpr fun c => (getElem_assigned_zero _ c).trans (lastCount_eq_zero hzero c))
  exact ⟨_, hrun, herr, htreev, hcodev, hk, hsnk, rfl⟩

/-! ### The file of a repeated byte (R218) -/

/-- A value within the limit is the value of its count (R7). -/
theorem toNat_ofNat_count {n : Nat} (h : n ≤ Config.maxCount) : (BitVec.ofNat 32 n).toNat = n :=
  (BitVec.toNat_ofNat n 32).trans (Nat.mod_eq_of_lt (Nat.lt_succ_of_le h))

/-- The bytes of a count, from its value (R65). -/
theorem countBytes_ofNat {n : Nat} (h : n ≤ Config.maxCount) : countBytes (BitVec.ofNat 32 n) =
    [BitVec.ofNat 8 (n / 2 ^ 24), BitVec.ofNat 8 (n / 2 ^ 16), BitVec.ofNat 8 (n / 2 ^ 8), BitVec.ofNat 8 n] := by
  have hbyte (i : Nat) : (BitVec.ofNat 32 n).extractLsb' i 8 = BitVec.ofNat 8 (n / 2 ^ i) := by
    apply BitVec.eq_of_toNat_eq
    rw [BitVec.extractLsb'_toNat, toNat_ofNat_count h, BitVec.toNat_ofNat, Nat.shiftRight_eq_div_pow]
  rw [countBytes, hbyte, hbyte, hbyte, hbyte, Nat.pow_zero, Nat.div_one]

/-- The table of `n` repetitions of a byte has one entry (R22). -/
theorem tableEntries_replicate {u : State} {b : Byte} {n : Nat} (h1 : 1 ≤ n) (hn : n ≤ Config.maxCount)
    (h : ∀ c, (u.ftAt c).toNat = (List.replicate n b).count c) : tableEntries u.ft = [(b, BitVec.ofNat 32 n)] := by
  have hb : u.ftAt b = BitVec.ofNat 32 n := by
    apply BitVec.eq_of_toNat_eq
    rw [h b, List.count_replicate_self, toNat_ofNat_count hn]
  have hne : u.ftAt b ≠ 0 := ftAt_ne_zero_of_count h (List.mem_replicate.mpr ⟨by omega, rfl⟩)
  have hother {c : Byte} (hc : u.ftAt c ≠ 0) : c = b := by
    by_contra hcb
    refine hc (BitVec.eq_of_toNat_eq ((h c).trans ?_))
    exact List.count_eq_zero.mpr fun hm => hcb (List.eq_of_mem_replicate hm)
  have hmem (e : Byte × Count) : e ∈ tableEntries u.ft ↔ e ∈ [(b, BitVec.ofNat 32 n)] := by
    rw [mem_tableEntries, List.mem_singleton]
    constructor
    · rintro ⟨he, h0⟩
      have heb : e.1 = b := hother (he ▸ h0)
      exact Prod.ext heb (he.symm.trans (heb ▸ hb))
    · rintro rfl
      exact ⟨hb, hb ▸ hne⟩
  exact List.perm_singleton.mp ((List.perm_ext_iff_of_nodup (tableEntries_distinct u.ft).of_map
    (List.nodup_singleton _)).mpr hmem)

/-- The header of a table with one entry: the count byte `00` and one record (R91 to R93). -/
theorem headerBytes_singleton {ft : Vector Count 256} {b : Byte} {c : Count} (h : tableEntries ft = [(b, c)]) :
    headerBytes ft = 0x00 :: b :: countBytes c := by
  rw [headerBytes, h]
  rfl

/-- With one symbol every Code is empty, so the packed stream has no byte (R153, R155). -/
theorem Encoded.packed_of_one {s u : State} {tr : Tree} (h : Encoded s u tr) (hk : u.k = 1) :
    packedBytes (s.src.flatMap fun b => (u.codeAt b).path) = [] := by
  have hempty : (s.src.flatMap fun b => (u.codeAt b).path) = [] := by
    refine List.flatMap_eq_nil_iff.mpr fun b hb => List.length_eq_zero_iff.mp ?_
    obtain ⟨-, hmem⟩ := h.codes.code h.tree (ftAt_ne_zero_of_count h.counts hb)
    exact Nat.lt_one_iff.mp (hk ▸ h.tree.depth_lt hmem)
  rw [hempty]
  rfl

/-- The file of `n` repetitions of a byte: `00`, the byte, and `n` most significant byte first (R218). -/
def repeatedFile (b : Byte) (n : Nat) : List Byte :=
  [0x00, b, BitVec.ofNat 8 (n / 2 ^ 24), BitVec.ofNat 8 (n / 2 ^ 16), BitVec.ofNat 8 (n / 2 ^ 8), BitVec.ofNat 8 n]

/-- `ENCODE` of `n` repetitions of a byte has one symbol in its table, and its file is the header alone. -/
theorem Encoded.file_replicate {s u : State} {tr : Tree} {b : Byte} {n : Nat} (h : Encoded s u tr)
    (hs : s.src = List.replicate n b) (h1 : 1 ≤ n) (hn : n ≤ Config.maxCount) :
    u.k = 1 ∧ headerBytes u.ft ++ packedBytes (s.src.flatMap fun b => (u.codeAt b).path) = repeatedFile b n := by
  have hentries := tableEntries_replicate h1 hn (hs ▸ h.counts)
  have hk : u.k = 1 := congrArg List.length hentries
  rw [h.packed_of_one hk, headerBytes_singleton hentries, countBytes_ofNat hn]
  exact ⟨hk, rfl⟩

theorem replicate_ne_nil {b : Byte} {n : Nat} (h : 1 ≤ n) : List.replicate n b ≠ [] := by
  rw [Ne, List.replicate_eq_nil_iff]
  omega

/-- `ENCODE` of a repeated byte appends its six-byte file (R218). -/
theorem exec_encode_replicate {s : State} {b : Byte} {n : Nat} (ha : Accepts s) (hs : s.src = List.replicate n b)
    (h1 : 1 ≤ n) (hn : n ≤ Config.maxCount) (hok : NeverFails s) :
    ∃ t, exec .encode s = .next t ∧ t.err = false ∧ t.snk = s.snk ++ repeatedFile b n := by
  obtain ⟨u, tr, hbody, h⟩ := encodeBody_ok (s := s.setBusy true) (hs ▸ replicate_ne_nil h1)
    (by rw [setBusy_src, hs, List.length_replicate]; exact hn) hok
  obtain ⟨-, hfile⟩ := h.file_replicate hs h1 hn
  obtain ⟨hrun, herr⟩ := exec_of_done (i := .encode) (by decide) ha hbody
  refine ⟨_, hrun, herr, ?_⟩
  rw [← hfile, ← List.append_assoc]
  exact h.snk

/-- `DECODE` of the file of a repeated byte is `DECODE` of what `ENCODE` writes on the same machine (R216, R218). -/
theorem exec_decode_replicate {w : State} {b : Byte} {n : Nat} {more : List Byte} (ha : Accepts w)
    (hw : w.unread = repeatedFile b n ++ more) (h1 : 1 ≤ n) (hn : n ≤ Config.maxCount) (hok : NeverFails w) :
    ∃ x, exec .decode w = .next x ∧ x.err = false ∧ x.snk = w.snk ++ List.replicate n b ∧ x.srcPos = w.srcPos + 6 := by
  obtain ⟨u, tr, -, h⟩ := encodeBody_ok (s := { w.setBusy true with src := List.replicate n b }) (replicate_ne_nil h1)
    ((List.length_replicate ..).trans_le hn) hok
  obtain ⟨-, heq, -⟩ := h.around
  obtain ⟨hk, hfile⟩ := h.file_replicate rfl h1 hn
  obtain ⟨x, hbody, hsnk, -, -, -, hpos⟩ := decodeBody_ok (w := w.setBusy true) (more := more) h heq.symm
    (by rw [hfile]; exact hw) (NeverFails.answersOk hok _)
  obtain ⟨hrun, herr⟩ := exec_of_done (i := .decode) (by decide) ha hbody
  exact ⟨_, hrun, herr, hsnk, hpos hk⟩

/-- Settles O47: the file is the header of a table with one entry, and no byte of it is left to read. -/
theorem repeatedByteRoundTrip : Obligations.RepeatedByteRoundTrip := by
  intro s s' b n more ha ha' h1 hn hs hok hok' hpos hsrc
  refine ⟨exec_encode_replicate ha hs h1 hn hok, ?_⟩
  have hunread : s'.unread = repeatedFile b n ++ more := by rw [State.unread, hpos, hsrc]; rfl
  obtain ⟨x, hrun, herr, hsnk, hend⟩ := exec_decode_replicate ha' hunread h1 hn hok'
  exact ⟨x, hrun, herr, hsnk, by rw [hend, hpos]⟩

/-! ### `DECODE` undoes `ENCODE` (R216) -/

/-- An `ENCODE` that ends outside the fault state, of an empty source, wrote nothing (R214). -/
theorem exec_encode_completed_empty {s t : State} (ha : Accepts s) (h : exec .encode s = .next t) (he : t.err = false)
    (hs : s.src = []) : t.snk = s.snk := by
  obtain ⟨u, hu, rfl, -⟩ := exec_completed (by decide) ha h he
  obtain ⟨-, hsnk⟩ := encodeBody_done_empty (s := s.setBusy true) hu hs
  exact hsnk

/-- `DECODE` of the file a completed `ENCODE` of a non-empty source left in an empty sink, under the same parameter. -/
theorem exec_decode_encoded {s t w : State} (ha : Accepts s) (hsnk : s.snk = []) (hne : s.src ≠ [])
    (hlen : s.src.length ≤ Config.maxCount) (h : exec .encode s = .next t) (he : t.err = false) (haw : Accepts w)
    (hw : w.unread = t.snk) (heq : w.eqInternal = s.eqInternal) (hok : AnswersOk w (t.snk.length + s.src.length)) :
    ∃ x, exec .decode w = .next x ∧ x.err = false ∧ x.snk = w.snk ++ s.src := by
  obtain ⟨u, hu, rfl, -⟩ := exec_completed (by decide) ha h he
  obtain ⟨tr, henc⟩ := encodeBody_done (s := s.setBusy true) hu hne hlen
  obtain ⟨-, hequ, -⟩ := henc.around
  have hfile : (u.setBusy false).snk = headerBytes u.ft ++ packedBytes (s.src.flatMap fun b => (u.codeAt b).path) := by
    rw [setBusy_snk, henc.snk, setBusy_snk, hsnk, List.nil_append, setBusy_src]
  have hsize : (u.setBusy false).snk.length + s.src.length = (1 + 5 * u.k) +
      (((s.src.flatMap fun b => (u.codeAt b).path).length + 7) / 8 + s.src.length) := by
    rw [hfile, List.length_append, headerBytes_length, packedBytes_length, Nat.add_assoc]
  obtain ⟨x, hbody, hx, -⟩ := decodeBody_ok (w := w.setBusy true) (more := []) henc (heq.trans hequ.symm)
    (by rw [List.append_nil]; exact hw.trans hfile) (hsize ▸ hok.congr rfl)
  obtain ⟨hrun, herr⟩ := exec_of_done (i := .decode) (by decide) haw hbody
  exact ⟨_, hrun, herr, hx⟩

/-- The outcome is a next state with the property `p`. -/
def endsWith (p : State → Bool) : Host.Outcome State Fault Refusal → Bool
  | .next t => p t
  | _ => false

theorem exists_next_of_endsWith {p : State → Bool} {o : Host.Outcome State Fault Refusal} (h : endsWith p o = true) :
    ∃ t, o = .next t ∧ p t = true := by
  cases o with
  | next t => exact ⟨t, rfl, h⟩
  | fault r => cases h
  | refused r => cases h

/-- The reset engine with a given parameter and source. -/
def boundReset (eq : EqInternal) (src : List Byte) : State := { State.reset with eqInternal := eq, src := src }

theorem accepts_boundReset (eq : EqInternal) (src : List Byte) : Accepts (boundReset eq src) :=
  ⟨resetEngine_busy State.reset, resetEngine_err State.reset⟩

/-- The file of `"abcd"` under `OLDEST_FIRST`: four symbols of weight 1, each with a Code of two bits. -/
def abcdFile : List Byte :=
  [0x03, 0x61, 0, 0, 0, 0x01, 0x62, 0, 0, 0, 0x01, 0x63, 0, 0, 0, 0x01, 0x64, 0, 0, 0, 0x01, 0x1B]

/-- `OLDEST_FIRST` writes the file. -/
theorem encode_abcd : endsWith (fun t => !t.err && t.snk == abcdFile)
    (exec .encode (boundReset .oldestFirst [0x61, 0x62, 0x63, 0x64])) = true := by decide +kernel

/-- `NEWEST_FIRST` merges the two Internal nodes of weight 2 in the other order, and reads `"cdab"`. -/
theorem decode_abcd : endsWith (fun t => !t.err && t.snk == [0x63, 0x64, 0x61, 0x62])
    (exec .decode (boundReset .newestFirst abcdFile)) = true := by decide +kernel

/-- Settles O46: the round trip from `decodeBody_ok`, and `"abcd"` for the parameter that differs. -/
theorem encodeThenDecodeIsIdentity : Obligations.EncodeThenDecodeIsIdentity := by
  constructor
  · intro s t s' ha hsnk hlen h he
    have hempty (hs : s.src = []) : t.snk = [] := (exec_encode_completed_empty ha h he hs).trans hsnk
    refine ⟨hempty, fun ha' hsrc hpos hsnk' heq hok => ?_⟩
    have hunread : s'.unread = t.snk := by rw [State.unread, hpos, hsrc, List.drop_zero]
    by_cases hs : s.src = []
    · obtain ⟨t', hrun, herr, -, -, -, ht'⟩ := exec_decode_empty ha' (hunread.trans (hempty hs)) (hok.mono (by omega))
      exact ⟨t', hrun, herr, by rw [ht', hsnk', hs]⟩
    · obtain ⟨t', hrun, herr, ht'⟩ := exec_decode_encoded ha hsnk hs hlen h he ha' hunread heq (hok.mono (by omega))
      exact ⟨t', hrun, herr, by rw [ht', hsnk', List.nil_append]⟩
  · obtain ⟨t, henc, ht⟩ := exists_next_of_endsWith encode_abcd
    obtain ⟨t', hdec, ht'⟩ := exists_next_of_endsWith decode_abcd
    simp only [Bool.and_eq_true, Bool.not_eq_true', beq_iff_eq] at ht ht'
    obtain ⟨herr, hfile⟩ := ht
    obtain ⟨herr', hout⟩ := ht'
    refine ⟨_, t, _, t', accepts_boundReset _ _, rfl, henc, herr, accepts_boundReset _ _, hfile.symm, rfl, rfl,
      EqInternal.noConfusion, hdec, herr', ?_⟩
    rw [hout]
    decide

end Sys2Proof.Machine
end

section
/-! Proofs of the statements of the exceptions (60_exceptions.md): a missing prerequisite is `ERR_SEQ` (R236), what
every fault entry leaves (R231, R240, R241), and the fault state refuses every word but `RESET`'s (R242). -/

namespace Sys2Proof.Machine

/-! ### Missing prerequisites (R236) -/

theorem hserBody_empty {s : State} (hk : s.k = 0) : hserBody s = .raised .seq s := if_pos hk

/-- `GENC` drops `CODEV` before it looks at `TREEV` (R150). -/
theorem gencBody_without_tree {s : State} (hv : s.treev = false) : gencBody s = .raised .seq (s.setCodev false) :=
  if_neg (ne_true_of_eq_false hv)

theorem unpackBody_without_tree {s : State} (hv : s.treev = false) : unpackBody s = .raised .seq s :=
  if_neg (ne_true_of_eq_false hv)

theorem packBody_without_codes {s : State} (hv : s.codev = false) : packBody s = .raised .seq s :=
  if_neg (ne_true_of_eq_false hv)

/-- A raise before the first access to a stream delivers nothing and draws no answer (R240). -/
theorem exec_raised_before_access {i : Instr} {s u : State} {e : Err} (hr : i ≠ .reset) (ha : Accepts s)
    (hbody : bodyOf i (s.setBusy true) = .raised e u) (hsnk : u.snk = s.snk) (hanswers : u.answers = s.answers) :
    ∃ t, exec i s = .next t ∧ FaultsWith s t e [] ∧ t.answers = s.answers :=
  ⟨faultEntry s e u, by rw [exec_eq hr, runCommand_raised ha hbody], faultsWith_nothing hsnk, hanswers⟩

/-- Settles O14: each body tests its prerequisite before it touches a stream, and the prologue leaves what it tests. -/
theorem missingPrerequisiteFaults : Obligations.MissingPrerequisiteFaults := by
  intro s ha
  have htreev (hv : s.treev = false) : (s.setBusy true).treev = false := (setBusy_treev s true).trans hv
  have hcodev (hv : s.codev = false) : (s.setBusy true).codev = false := (setBusy_codev s true).trans hv
  refine ⟨fun hk => ?_, fun hk => ?_, fun hv => ?_, fun hv => ?_, fun hv => ?_⟩
  · exact exec_raised_before_access (i := .build) (by decide) ha (buildBody_empty (s := s.setBusy true) hk) rfl rfl
  · exact exec_raised_before_access (i := .hser) (by decide) ha (hserBody_empty (s := s.setBusy true) hk) rfl rfl
  · exact exec_raised_before_access (i := .genc) (by decide) ha (gencBody_without_tree (htreev hv)) rfl rfl
  · exact exec_raised_before_access (i := .unpack) (by decide) ha (unpackBody_without_tree (htreev hv)) rfl rfl
  · exact exec_raised_before_access (i := .pack) (by decide) ha (packBody_without_codes (hcodev hv)) rfl rfl

/-! ### Fault entry (R231, R240, R241) -/

/-- `ERR_ILLCMD` is no command's: it belongs to the words that select none (R237). -/
theorem bodyOf_raises_no_illCmd {i : Instr} {s u : State} {e : Err} (h : bodyOf i s = .raised e u) : e ≠ .illCmd := by
  by_cases hr : i = .reset
  · subst hr
    cases h
  · have hdraws := bodyOf_draws hr s
    rwa [h] at hdraws

/-- The codes a command can raise end below `ERR_ILLCMD`'s, which is 9 (R231). -/
theorem errCode_le_eight {e : Err} (h : e ≠ .illCmd) : e.code.toNat ≤ 8 := by
  have hne : e.code.toNat ≠ Err.illCmd.code.toNat := fun he =>
    h (errCode_injective e .illCmd (BitVec.eq_of_toNat_eq he))
  exact Nat.le_of_lt_succ (lt_of_le_of_ne (errCode_range e).2 hne)

/-- Settles O50: a command ends in the fault state by a raise, and the fault entry appends to the accepted sink. -/
theorem everyFaultEntry : Obligations.EveryFaultEntry := by
  intro i s t ha h he
  obtain ⟨e, u, hu, rfl⟩ := exec_faulted ha h he
  exact ⟨rfl, (errCode_range e).1, errCode_le_eight (bodyOf_raises_no_illCmd hu), _, rfl⟩

/-! ### Refusal in the fault state (R242) -/

/-- A word but `RESET`'s is refused in the fault state, whether it selects a command or not (R242). -/
theorem issueWord_fault_state {w : Byte} {s : State} (hw : w ≠ 0x0F) (h : s.err = true) : issueWord w s = .next s := by
  cases hd : decodeWord w with
  | some i =>
    have hr : i ≠ .reset := by
      rintro rfl
      exact hw (eq_encodeWord_of_decodeWord hd)
    rw [issueWord_of_decode hd, exec_fault_state hr h]
  | none => rw [issueWord_of_undefined hd, illegalWord, runCommand_not_accepted (.inr h)]

/-- Settles O48: refusal of commands and of words, and a step that keeps `STATUS` keeps `ERR`. -/
theorem faultStateRefusesCommands : Obligations.FaultStateRefusesCommands := by
  intro s herr
  refine ⟨fun i hr => exec_fault_state hr herr, fun w rest hw hs => ?_, fun t hstep ht => ?_⟩
  · rw [step_move hs]
    exact issueWord_fault_state (s := { s with script := rest }) hw herr
  · rcases onlyResetLeavesTheFaultState s t herr hstep with ⟨hstatus, -⟩ | hreset
    · have hsame : t.err = s.err := congrArg (BitVec.getLsbD · 1) hstatus
      rw [hsame, herr] at ht
      cases ht
    · exact hreset

end Sys2Proof.Machine
end
